-- ==== Sys2Proof/Word.lean ====
section
/-! DEFINITION. The word, halfword and byte of AArch32, the address range, and how a word is cut into
bytes. Rules R40 and R50: an A32 instruction is one 32-bit word, a T32 instruction one or two
16-bit halfwords, each stored least significant byte first. -/

namespace Sys2Proof

/-- A 32-bit word: an A32 instruction, a general register, a system register, the pc. -/
abbrev Word := BitVec 32

/-- A 16-bit halfword: the unit of a T32 instruction. -/
abbrev Half := BitVec 16

/-- The smallest addressable unit. -/
abbrev Byte := BitVec 8

/-- Addresses are the numbers below this (the pc is 32 bits wide, R25 and R43; log entry 3). -/
def addressTop : Nat := 2 ^ 32

/-- The two bytes of a halfword, the byte of the lower address first (R40). -/
def halfBytes (h : Half) : List Byte := [h.extractLsb' 0 8, h.extractLsb' 8 8]

/-- The four bytes of a word, the byte of the lowest address first (R40). -/
def wordBytes (w : Word) : List Byte :=
  [w.extractLsb' 0 8, w.extractLsb' 8 8, w.extractLsb' 16 8, w.extractLsb' 24 8]

/-- The halfword of two bytes, the first at the lower address. -/
def halfOf (b0 b1 : Byte) : Half := b1 ++ b0

/-- The word of four bytes, the first at the lowest address. -/
def wordOf (b0 b1 b2 b3 : Byte) : Word := b3 ++ b2 ++ b1 ++ b0

end Sys2Proof
end

