-- ==== Sys2Proof/Syntax.lean ====
section
/-! DEFINITION. The instructions of the opcode table, one constructor per row, and the condition
codes (30_encoding.md). -/

namespace Sys2Proof

/-- The two instruction sets of AArch32 state (R50); which one runs is a mode bit of the PE. -/
inductive InstrSet where
  | a32
  | t32
deriving DecidableEq, Repr, Inhabited

/-- The condition codes of R55's table. The value 1111 is no condition (R59) and has no constructor. -/
inductive Cond where
  | eq | ne | cs | cc | mi | pl | vs | vc | hi | ls | ge | lt | gt | le | al
deriving DecidableEq, Repr, Inhabited

/-- One constructor per row of spec/opcode_table.json. The A1 hints carry their condition field
(R51, R55); the two `DSB` rows carry their option field (R56); the T32 hints have no field. -/
inductive Instr where
  | wfeA1 (cond : Cond)
  | wfiA1 (cond : Cond)
  | sevA1 (cond : Cond)
  | sevlA1 (cond : Cond)
  | wfeT1
  | wfiT1
  | sevT1
  | sevlT1
  | wfeT2
  | wfiT2
  | sevT2
  | sevlT2
  | dsbA1 (option : BitVec 4)
  | dsbT1 (option : BitVec 4)
deriving DecidableEq, Repr, Inhabited

end Sys2Proof
end

