-- ==== Sys2Proof/WellFormed.lean ====
section
/-! DEFINITION. The constraints the opcode table puts on an instruction's fields. -/

namespace Sys2Proof

/-- `DSB SY`, the full-system barrier (R56). -/
def optionSy : BitVec 4 := 0b1111#4

/-- The constraint column of the opcode table: a `DSB` has option `SY` (R56). The constraint of the
A1 hints (condition field other than 1111, R59) holds of every `Cond`, and the other rows have none. -/
def Instr.wellFormed : Instr → Bool
  | .wfeA1 _ => true
  | .wfiA1 _ => true
  | .sevA1 _ => true
  | .sevlA1 _ => true
  | .wfeT1 => true
  | .wfiT1 => true
  | .sevT1 => true
  | .sevlT1 => true
  | .wfeT2 => true
  | .wfiT2 => true
  | .sevT2 => true
  | .sevlT2 => true
  | .dsbA1 option => option == optionSy
  | .dsbT1 option => option == optionSy

end Sys2Proof
end

