-- ==== Sys2Proof/Decode.lean ====
section
/-! DEFINITION. The decoder: total on any bytes, rejecting by name; then the encoder, written from the
same tables of 30_encoding.md. A `DSB` whose option is not `SY` is read as that `DSB` and refused by
its meaning (R56). -/

namespace Sys2Proof

/-- Why some bytes are no instruction of this spec. -/
inductive Reject where
  /-- Fewer bytes than the instruction has (R54). -/
  | truncated
  /-- A hint pattern or `DSB` pattern with a wrong should-be bit (R57). -/
  | shouldBe
  /-- The A32 hint pattern with condition field 1111 (R59). -/
  | unconditionalHint
  /-- A hint of another number (R58): `NOP`, `YIELD`, `DBG` and the rest. -/
  | otherHint (hint : Nat)
  /-- Any other instruction: the host's (R58, 00_scope.md section 3). -/
  | foreign
deriving DecidableEq, Repr

/-- What the decoder answers: an instruction with the bytes after it, or a rejection. -/
inductive Decoded where
  | instr (i : Instr) (rest : List Byte)
  | reject (r : Reject)
deriving DecidableEq, Repr

/-- The condition field's value (R55). -/
def Cond.bits : Cond → BitVec 4
  | .eq => 0b0000#4
  | .ne => 0b0001#4
  | .cs => 0b0010#4
  | .cc => 0b0011#4
  | .mi => 0b0100#4
  | .pl => 0b0101#4
  | .vs => 0b0110#4
  | .vc => 0b0111#4
  | .hi => 0b1000#4
  | .ls => 0b1001#4
  | .ge => 0b1010#4
  | .lt => 0b1011#4
  | .gt => 0b1100#4
  | .le => 0b1101#4
  | .al => 0b1110#4

/-- The condition a field value names; none for 1111 (R55, R59). -/
def condOfBits (b : BitVec 4) : Option Cond :=
  [Cond.eq, .ne, .cs, .cc, .mi, .pl, .vs, .vc, .hi, .ls, .ge, .lt, .gt, .le, .al][b.toNat]?

/-- The instruction of an A32 hint by its hint number (R51, R58). -/
def decodeA32Hint (cond : Cond) (w : Word) : Decoded :=
  match (w.extractLsb' 0 8).toNat with
  | 2 => .instr (.wfeA1 cond) []
  | 3 => .instr (.wfiA1 cond) []
  | 4 => .instr (.sevA1 cond) []
  | 5 => .instr (.sevlA1 cond) []
  | hint => .reject (.otherHint hint)

/-- An A32 word (R51, R56). A word that fits a pattern but for its should-be bits is refused under
that name (R57); with condition field 1111 the hint pattern is unallocated (R59). -/
def decodeA32 (w : Word) : Decoded :=
  if w.extractLsb' 16 12 = 0x320#12 then
    match condOfBits (w.extractLsb' 28 4) with
    | none => .reject .unconditionalHint
    | some cond =>
      if w.extractLsb' 8 8 = 0xF0#8 then decodeA32Hint cond w else .reject .shouldBe
  else if w.extractLsb' 20 12 = 0xF57#12 ∧ w.extractLsb' 4 4 = 0b0100#4 then
    if w.extractLsb' 8 12 = 0xFF0#12 then .instr (.dsbA1 (w.extractLsb' 0 4)) []
    else .reject .shouldBe
  else .reject .foreign

/-- Whether a first halfword begins a 32-bit T32 instruction (R54). -/
def t32Wide (hw1 : Half) : Bool :=
  hw1.extractLsb' 11 5 == 0b11101#5 || hw1.extractLsb' 11 5 == 0b11110#5
    || hw1.extractLsb' 11 5 == 0b11111#5

/-- A 16-bit T32 instruction (R52): with low bits other than 0000 the pattern is an `IT`. -/
def decodeT16 (hw : Half) : Decoded :=
  if hw.extractLsb' 8 8 = 0xBF#8 ∧ hw.extractLsb' 0 4 = 0#4 then
    match (hw.extractLsb' 4 4).toNat with
    | 2 => .instr .wfeT1 []
    | 3 => .instr .wfiT1 []
    | 4 => .instr .sevT1 []
    | 5 => .instr .sevlT1 []
    | hint => .reject (.otherHint hint)
  else .reject .foreign

/-- The instruction of a 32-bit T32 hint whose should-be bits are right (R53, R58). -/
def decodeT32Hint (hw2 : Half) : Decoded :=
  match (hw2.extractLsb' 0 8).toNat with
  | 2 => .instr .wfeT2 []
  | 3 => .instr .wfiT2 []
  | 4 => .instr .sevT2 []
  | 5 => .instr .sevlT2 []
  | hint => .reject (.otherHint hint)

/-- A 32-bit T32 instruction (R53, R56). -/
def decodeT32 (hw1 hw2 : Half) : Decoded :=
  if hw1.extractLsb' 4 12 = 0xF3A#12 ∧ hw2.extractLsb' 14 2 = 0b10#2
      ∧ hw2.extractLsb' 12 1 = 0#1 ∧ hw2.extractLsb' 8 3 = 0#3 then
    if hw1.extractLsb' 0 4 = 0xF#4 ∧ hw2.extractLsb' 13 1 = 0#1 ∧ hw2.extractLsb' 11 1 = 0#1 then
      decodeT32Hint hw2
    else .reject .shouldBe
  else if hw1.extractLsb' 4 12 = 0xF3B#12 ∧ hw2.extractLsb' 14 2 = 0b10#2
      ∧ hw2.extractLsb' 12 1 = 0#1 ∧ hw2.extractLsb' 4 4 = 0b0100#4 then
    if hw1.extractLsb' 0 4 = 0xF#4 ∧ hw2.extractLsb' 13 1 = 0#1 ∧ hw2.extractLsb' 8 4 = 0xF#4 then
      .instr (.dsbT1 (hw2.extractLsb' 0 4)) []
    else .reject .shouldBe
  else .reject .foreign

/-- The decoded instruction with `rest` as the bytes after it. -/
def Decoded.before (d : Decoded) (rest : List Byte) : Decoded :=
  match d with
  | .instr i _ => .instr i rest
  | .reject r => .reject r

/-- The decoder, from the bytes at an address on, by the instruction set in force (R40, R50, R54). -/
def decode : InstrSet → List Byte → Decoded
  | .a32, b0 :: b1 :: b2 :: b3 :: rest => (decodeA32 (wordOf b0 b1 b2 b3)).before rest
  | .a32, _ => .reject .truncated
  | .t32, b0 :: b1 :: rest =>
    if t32Wide (halfOf b0 b1) then
      match rest with
      | b2 :: b3 :: rest' => (decodeT32 (halfOf b0 b1) (halfOf b2 b3)).before rest'
      | _ => .reject .truncated
    else (decodeT16 (halfOf b0 b1)).before rest
  | .t32, _ => .reject .truncated

/-! The encoder. -/

/-- The instruction set an instruction belongs to (R50). -/
def Instr.iset : Instr → InstrSet
  | .wfeA1 _ => .a32
  | .wfiA1 _ => .a32
  | .sevA1 _ => .a32
  | .sevlA1 _ => .a32
  | .wfeT1 => .t32
  | .wfiT1 => .t32
  | .sevT1 => .t32
  | .sevlT1 => .t32
  | .wfeT2 => .t32
  | .wfiT2 => .t32
  | .sevT2 => .t32
  | .sevlT2 => .t32
  | .dsbA1 _ => .a32
  | .dsbT1 _ => .t32

/-- The A32 hint word (R51). -/
def encodeA32Hint (cond : Cond) (hint : BitVec 8) : List Byte :=
  wordBytes (cond.bits ++ 0x320#12 ++ 0xF0#8 ++ hint)

/-- The 16-bit T32 hint (R52). -/
def encodeT16Hint (hint : BitVec 4) : List Byte := halfBytes (0xBF#8 ++ hint ++ 0#4)

/-- The 32-bit T32 hint: the first halfword, then the second (R53). -/
def encodeT32Hint (hint : BitVec 8) : List Byte := halfBytes 0xF3AF#16 ++ halfBytes (0x80#8 ++ hint)

/-- The bytes of an instruction, the byte of the lowest address first (R40, R51 to R53, R56). -/
def encode : Instr → List Byte
  | .wfeA1 cond => encodeA32Hint cond 2#8
  | .wfiA1 cond => encodeA32Hint cond 3#8
  | .sevA1 cond => encodeA32Hint cond 4#8
  | .sevlA1 cond => encodeA32Hint cond 5#8
  | .wfeT1 => encodeT16Hint 2#4
  | .wfiT1 => encodeT16Hint 3#4
  | .sevT1 => encodeT16Hint 4#4
  | .sevlT1 => encodeT16Hint 5#4
  | .wfeT2 => encodeT32Hint 2#8
  | .wfiT2 => encodeT32Hint 3#8
  | .sevT2 => encodeT32Hint 4#8
  | .sevlT2 => encodeT32Hint 5#8
  | .dsbA1 option => wordBytes (0xF57FF04#28 ++ option)
  | .dsbT1 option => halfBytes 0xF3BF#16 ++ halfBytes (0x8F4#12 ++ option)

/-! The opcode table's numbering. -/

/-- The bytes of a table word of the given instruction set: an A32 word least significant byte
first; a 32-bit T32 value is `hw1 : hw2`, hw1 at the lower address (R53); a 16-bit value is hw1. -/
def tableBytes (iset : InstrSet) (nbits w : Nat) : List Byte :=
  match iset with
  | .a32 => wordBytes (BitVec.ofNat 32 w)
  | .t32 =>
    if nbits ≤ 16 then halfBytes (BitVec.ofNat 16 w) ++ halfBytes 0#16
    else halfBytes (BitVec.ofNat 16 (w / 2 ^ 16)) ++ halfBytes (BitVec.ofNat 16 w)

/-- The instruction set a table word belongs to: a 16-bit word is T32; a 32-bit word is A32 if the
A32 decoder reads it, else T32. -/
def tableIset (nbits w : Nat) : InstrSet :=
  if nbits ≤ 16 then .t32
  else
    match decode .a32 (tableBytes .a32 nbits w) with
    | .instr _ _ => .a32
    | .reject _ => .t32

/-- The instruction the decoder reads from a word numbered as the opcode table numbers it. -/
def decodeTableWord (nbits w : Nat) : Option Instr :=
  match decode (tableIset nbits w) (tableBytes (tableIset nbits w) nbits w) with
  | .instr i _ => some i
  | .reject _ => none

end Sys2Proof
end

