-- ==== Sys2Proof/Machine/Pe.lean ====
section
/-! DEFINITION. One processing element: the context the host PE model owns (R20, R23), the inputs the
wakeup rules read (R19), the run state (R17), and the moves of the agents (R28). Plain data only. -/

namespace Sys2Proof.Machine

/-- The modes of privilege levels PL0 and PL1 but Monitor (R174). -/
inductive LowMode where
  | user | fiq | irq | supervisor | abort | undefined | system
deriving DecidableEq, Repr, Inhabited

/-- The mode and security state (R174): Hyp mode is Non-secure only, Monitor mode is in Secure
state, every other mode exists in both (log entry 26). -/
inductive Mode where
  | low (mode : LowMode) (nonSecure : Bool)
  | hyp
  | monitor
deriving DecidableEq, Repr, Inhabited

/-- The fields of `PSTATE` the rules read: the condition flags (R55), the mask bits (R20), the
instruction set (R50), the mode (R19), and the conditions of the slots of the IT block in force, each
with the address of its slot (R60, log entry 8). -/
structure Pstate where
  n : Bool
  z : Bool
  c : Bool
  v : Bool
  maskA : Bool
  maskI : Bool
  maskF : Bool
  iset : InstrSet
  mode : Mode
  itBlock : List (Word × Cond)
deriving DecidableEq, Repr, Inhabited

/-- `ctx[p]` (R23): the architectural state of a PE that the host PE model owns. `regs` holds R0 to
R14, R15 is `pc` (R24); the control registers are those of R20; `hsr` is the syndrome register of
R168; `rest` stands for everything else (banked, floating-point, SIMD and other system registers).
The widths are log entry 27. -/
structure Context where
  regs : Vector Word 15
  pc : Word
  pstate : Pstate
  sctlr : Word
  hcr : Word
  scr : Word
  hsr : Word
  edscr : Word
  dbgosdlr : Word
  rest : List Word
deriving DecidableEq, Repr, Inhabited

/-- One Bool for each of IRQ, FIQ and SError. -/
structure PerExc where
  irq : Bool
  fiq : Bool
  serror : Bool
deriving DecidableEq, Repr, Inhabited

/-- The inputs of one PE (R19) and the predicates of R4 the host or the environment presents.
`physical`, `virtual`: the pending bits. `maskEffective`: `PhysMaskEffective`, before the constraint
of R93. `intdisPhysical`, `intdisVirtual`: `IntdisMasks`, before the constraint of R92 (log entry 29).
`otherException`: the instruction about to execute causes another exception (R72, R133, D34; log
entry 30).
`busIdle`, `debugIdle`: there is no bus activity (R151); the debug interface is idle (R154). -/
structure Inputs where
  physical : PerExc
  virtual : PerExc
  edbgrq : Bool
  haltingAllowed : Bool
  invasiveDebug : Bool
  maskEffective : PerExc
  intdisPhysical : PerExc
  intdisVirtual : PerExc
  powerdownConfigured : Bool
  otherException : Bool
  busIdle : Bool
  debugIdle : Bool
deriving DecidableEq, Repr, Inhabited

/-- The run state (R17). A suspended PE keeps the byte length of the `WFE` or `WFI` it is in, which
the resume step adds to the pc (R100, R143). -/
inductive RunState where
  | running
  | suspendedWfe (len : Nat)
  | suspendedWfi (len : Nat)
  | poweredDown
deriving DecidableEq, Repr, Inhabited

/-- The two waiting instructions, as the trap function names them (R165). -/
inductive WaitKind where
  | wfe
  | wfi
deriving DecidableEq, Repr, Inhabited

/-- The trap targets of R165. -/
inductive TrapTarget where
  | el1Undefined
  | el2HypTrap
  | el3MonitorTrap
deriving DecidableEq, Repr, Inhabited

/-- What a trap hands to the host's exception entry (R167): `pc` is the address of the trapped
instruction, the preferred return address; `len`, `iset` and `cond` are its length, its instruction set
and the condition it executed under. -/
structure TrapRecord where
  target : TrapTarget
  kind : WaitKind
  pc : Word
  len : Nat
  iset : InstrSet
  cond : Cond
deriving DecidableEq, Repr, Inhabited

/-- An explicit memory access of a PE that has not completed (R35, R36). -/
inductive Access where
  | load (addr : Word)
  | store (addr : Word) (value : Byte)
deriving DecidableEq, Repr, Inhabited

/-- The debug registers the source names (R20). -/
inductive DebugReg where
  | edscr
  | dbgosdlr
deriving DecidableEq, Repr, Inhabited

/-- One processing element. `er`: the Event Register (R10). `run`: R17. `wakereq`: R18. `sevq`: how
many `deliver(p)` the in-flight multiset holds for this PE (R22; log entry 25). `monitor`: the global monitor is
held (R26). `accesses`: outstanding memory accesses in program order (R36). `trap`: the last trap
handed to the host (R167). `idle`: the idle state is being signalled (R151). `hostReset`: the host PE's
reset values (R190, R192). -/
structure Pe where
  er : Bool
  run : RunState
  wakereq : Bool
  sevq : Nat
  inputs : Inputs
  ctx : Context
  monitor : Bool
  accesses : List Access
  trap : Option TrapRecord
  idle : Bool
  hostReset : Context
deriving DecidableEq, Repr, Inhabited

/-- The configuration values of R4 that are fixed for a system. -/
structure Params where
  haveEL2 : Bool
  haveEL3 : Bool
  haveDoubleLock : Bool
  separatePowerDomains : Bool
  gmClearSetsEr : Bool
  trapWhenWakeupPending : Bool
deriving DecidableEq, Repr, Inhabited

/-- The choices R4 leaves to the implementation at each occasion. -/
inductive Choice where
  /-- `may_suspend`: the PE does suspend (R74, R132). -/
  | suspend
  /-- `wfe_restart_clears_er` (R98). -/
  | restartClears
  /-- `sevl_signals`: this `SEVL` also signals the given other PE (R114). -/
  | sevlSignals (target : Nat)
  /-- A pending wakeup event does stop a `WFI` in a powerdown configuration (R147, the choice k). -/
  | pendingStopsPowerdown
  /-- Under `trap_when_wakeup_pending`, this execution traps (R165). -/
  | trapPending
  /-- `er_reset`: the Event Register after a reset (R12). -/
  | resetEventRegister
  /-- The Event Register lost in a powerdown (R147). -/
  | lostEventRegister
  /-- The global monitor lost in a powerdown (R33, R180; log entry 10). -/
  | lostMonitor
deriving DecidableEq, Repr, Inhabited

/-- A move of one agent (R28): a PE executes (`execute`); the delivery agent performs a delivery
(`deliver`); the environment produces an event, changes an input, resumes or resets a PE; the host PE
model runs an instruction outside this spec (`hostStep`), returns from an exception
(`exceptionReturn`, R13 (c)), enters an interrupt or another asynchronous exception
(`enterException`, R103, R171), issues or completes a memory access, sets a global monitor; the
debugger writes a debug register (R152); the idle state is signalled (R151). -/
inductive Move where
  | execute (pe : Nat)
  | deliver (pe : Nat)
  | timerStreamEvent (pe : Nat)
  | implEvent (pe : Nat)
  | globalMonitorCleared (pe : Nat)
  | implWfiEvent (pe : Nat)
  | setInputs (pe : Nat) (inputs : Inputs)
  | resume (pe : Nat)
  | reset (pe : Nat)
  | hostStep (pe : Nat) (ctx : Context)
  | exceptionReturn (pe : Nat) (ctx : Context)
  | enterException (pe : Nat) (ctx : Context)
  | issueAccess (pe : Nat) (access : Access)
  | completeAccess (pe : Nat) (index : Nat)
  | holdMonitor (pe : Nat)
  | debugWrite (pe : Nat) (reg : DebugReg) (value : Word)
  | signalIdle (pe : Nat)
deriving DecidableEq, Repr, Inhabited

end Sys2Proof.Machine
end

