-- ==== Sys2Proof/Config.lean ====
section
/-! DEFINITION. The free values: constants with no body, of which nothing can be proved, so that a
claim holds for every value (R6). A fresh one is drawn at each occasion by the step counter. -/

namespace Sys2Proof

/-- The choice made at a draw, by a PE, of a kind (R4, R6; log entry 1). -/
opaque Config.choose (draw pe : Nat) (choice : Machine.Choice) : Bool

/-- The move that comes next when none is on the agenda: every interleaving of the agents of R28 is
some value of it (log entry 2). -/
opaque Config.schedule (draw : Nat) : Machine.Move

/-- The configuration of the system after reset: R4 gives no value for any of it (log entry 4). -/
opaque Config.params : Machine.Params

/-- How many PEs the multiprocessor system has beside PE 0 (`PE` of R4; log entry 15). -/
opaque Config.otherPes : Nat

/-- The address after an instruction that ends at the top of the address space (R25; log entry 5). -/
opaque Config.pcPastTop (pc : Word) (len : Nat) : Word

/-- `TakeTrap`: the context after the host's entry of a trap, but for what R162 to R164 and R168 fix
(R167; log entry 6). -/
opaque Config.trapEntry (draw pe : Nat) (record : Machine.TrapRecord) (ctx : Machine.Context) :
    Machine.Context

/-- The context after the host's entry of another exception an instruction causes (R72; log entry 7). -/
opaque Config.exceptionEntry (draw pe : Nat) (ctx : Machine.Context) : Machine.Context

/-- `CV` and `COND` of the syndrome of a trapped T32 instruction (R168; log entry 9). -/
opaque Config.t32Syndrome (draw pe : Nat) : BitVec 5

/-- The architectural state a powerdown loses (R33, R147; log entry 10). -/
opaque Config.lostContext (draw pe : Nat) : Machine.Context

end Sys2Proof
end

