-- ==== Sys2Proof/Machine/Reset.lean ====
section
/-! DEFINITION. What a PE holds after reset: the values R12, R17 and R190 give, and for what the source
gives no reset value (R192) the values named in log entries 11 and 12. -/

namespace Sys2Proof.Machine

/-- The host PE's reset values, PRESUMED of the Armv8-A family in AArch32 state (log entry 11): A32
Secure Supervisor mode with A, I and F masked, the low reset vector, `SCTLR` 0x00C50838, every
other register zero. The source gives none of them (R192). -/
def contextAtReset : Context where
  regs := Vector.replicate 15 0#32
  pc := 0#32
  pstate :=
    { n := false, z := false, c := false, v := false
      maskA := true, maskI := true, maskF := true
      iset := .a32, mode := .low .supervisor false, itBlock := [] }
  sctlr := 0x00C50838#32
  hcr := 0#32
  scr := 0#32
  hsr := 0#32
  edscr := 0#32
  dbgosdlr := 0#32
  rest := []

/-- The same Bool for IRQ, FIQ and SError. -/
def perExcAll (b : Bool) : PerExc := { irq := b, fiq := b, serror := b }

/-- The inputs before the environment has changed any (log entry 12): nothing pending, no debug, the
`PSTATE` masks effective, no powerdown configured, as in the conventions of 95_test_vectors.md. -/
def inputsAtReset : Inputs where
  physical := perExcAll false
  virtual := perExcAll false
  edbgrq := false
  haltingAllowed := false
  invasiveDebug := false
  maskEffective := perExcAll true
  intdisPhysical := perExcAll false
  intdisVirtual := perExcAll false
  powerdownConfigured := false
  otherException := false
  busIdle := false
  debugIdle := false

/-- PE number `p` of a system just reset: Running, no wake request, nothing in flight, and an Event
Register of which nothing is known (R12, R190; log entry 13). -/
def peAtReset (p : Nat) : Pe where
  er := Config.choose 0 p .resetEventRegister
  run := .running
  wakereq := false
  sevq := 0
  inputs := inputsAtReset
  ctx := contextAtReset
  monitor := false
  accesses := []
  trap := none
  idle := false
  hostReset := contextAtReset

end Sys2Proof.Machine
end

