-- ==== Sys2Proof/Machine/State.lean ====
section
/-! DEFINITION. The state of the whole system: its configuration, its PEs, the memory they share, and
the moves to come; the reasons a step can stop; the state after reset. -/

namespace Sys2Proof.Machine

/-- Memory: (address, byte) pairs, the addresses strictly rising and below `addressTop`. A byte
that is not listed has never been written and cannot be read (log entry 14). -/
abbrev Memory := List Host.Cell

/-- Why a step stops the machine. -/
inductive Fault where
  /-- Raised by `exec` when `cur` names no PE of the system (R28 gives a step to PEs only). Safe: it
  stops where there is no machine to go on. -/
  | noSuchPe
  /-- Raised by the fetch of an instruction of which some byte has never been written (log entry
  14). Safe: it stops where the hardware would read some byte the spec does not give. -/
  | fetchUnwritten
deriving DecidableEq, Repr

/-- Why an instruction is given no meaning. -/
inductive Refusal where
  /-- Raised by the dispatcher for an instruction not modelled yet, by its mnemonic. Safe. -/
  | notModelled (mnemonic : String)
  /-- Raised by the fetch at a pc that is not aligned for the instruction set: what that does
  belongs to the host PE model (R41, D4). Safe. -/
  | misalignedFetch
  /-- Raised by the fetch of an instruction that would end past the top of the address space: the
  source has no such address (R25, R43). Safe. -/
  | fetchPastTop
  /-- Raised by the fetch of an instruction of which a PE has written a byte: such a program is
  refused (R45, D6). Safe. -/
  | selfModifyingCode
  /-- Raised by the fetch when the decoder rejects the bytes: no instruction of this spec (R57 to
  R59, D30). Safe. -/
  | rejected (why : Reject)
  /-- Raised by `DSB` with an option other than `SY`, which the spec refuses (R56, D30). Safe. -/
  | dsbOption (option : BitVec 4)
deriving DecidableEq, Repr

/-- The system. `params`: the configuration (R4). `pes`: the PEs of the multiprocessor system (R4,
R178); PE `p` is number `p` of the list. `cur`: the PE that executes (the model's own field).
`mem`: the memory the PEs share (R39). `written`: the addresses some PE has stored to (R45).
`agenda`: the moves that come next, the soonest first (R28; the model's own field, log entry 2).
`draws`: the step counter that free values are drawn by (the model's own field, log entry 1). -/
structure State where
  params : Params
  pes : List Pe
  cur : Nat
  mem : Memory
  written : List Nat
  agenda : List Move
  draws : Nat
deriving DecidableEq, Repr

/-- The machine right after reset: every PE of the system just reset (R190 to R192; log entries 4
and 11 to 15), no delivery in flight, no memory written, nothing on the agenda. -/
def State.reset : State where
  params := Config.params
  pes := peAtReset 0 :: (List.range Config.otherPes).map fun p => peAtReset (p + 1)
  cur := 0
  mem := []
  written := []
  agenda := []
  draws := 1

end Sys2Proof.Machine
end

