-- ==== Sys2Proof/Machine/Fields.lean ====
section
/-! DEFINITION. The fields the rules read: the control and debug fields at the bit positions of R20,
the mode predicates of R19, and the masks under the constraints of R92 and R93. -/

namespace Sys2Proof.Machine

/-- `SCTLR.nTWE` or `SCTLR.nTWI` (R20, R162). -/
def sctlrNoTrap (kind : WaitKind) (c : Context) : Bool :=
  match kind with
  | .wfe => c.sctlr.getLsbD 18
  | .wfi => c.sctlr.getLsbD 16

/-- `HCR.TWE` or `HCR.TWI` (R20, R163). -/
def hcrTrap (kind : WaitKind) (c : Context) : Bool :=
  match kind with
  | .wfe => c.hcr.getLsbD 14
  | .wfi => c.hcr.getLsbD 13

/-- `SCR.TWE` or `SCR.TWI` (R20, R164). -/
def scrTrap (kind : WaitKind) (c : Context) : Bool :=
  match kind with
  | .wfe => c.scr.getLsbD 13
  | .wfi => c.scr.getLsbD 12

/-- `HCR.{IMO, FMO, AMO}` (R20). -/
def hcrRouting (c : Context) : PerExc :=
  { irq := c.hcr.getLsbD 4, fiq := c.hcr.getLsbD 3, serror := c.hcr.getLsbD 5 }

/-- `PSTATE.{I, F, A}`, true where the bit masks (R20). -/
def pstateMasks (c : Context) : PerExc :=
  { irq := c.pstate.maskI, fiq := c.pstate.maskF, serror := c.pstate.maskA }

/-- The mask bits where the `CPSR` shows them: A bit 8, I bit 7, F bit 6 (R20). -/
def cpsrMaskBits (c : Context) : Word :=
  0#23 ++ BitVec.ofBool c.pstate.maskA ++ BitVec.ofBool c.pstate.maskI
    ++ BitVec.ofBool c.pstate.maskF ++ 0#6

/-- `EDSCR.HDE` (R20). -/
def edscrHde (c : Context) : Bool := c.edscr.getLsbD 14

/-- `EDSCR.INTdis` (R20); which interrupts each value masks is not in the source (R92). -/
def edscrIntdis (c : Context) : BitVec 2 := c.edscr.extractLsb' 22 2

/-- `DBGOSDLR.DLK` (R20). -/
def dbgosdlrDlk (c : Context) : Bool := c.dbgosdlr.getLsbD 0

/-- `AtEL0(p)`: User mode (R19, R174). -/
def atEl0 (c : Context) : Bool :=
  match c.pstate.mode with
  | .low .user _ => true
  | _ => false

/-- `InHypMode(p)` (R19). -/
def inHypMode (c : Context) : Bool :=
  match c.pstate.mode with
  | .hyp => true
  | _ => false

/-- `InMonitorMode(p)` (R19). -/
def inMonitorMode (c : Context) : Bool :=
  match c.pstate.mode with
  | .monitor => true
  | _ => false

/-- `NonSecure(p)` (R19, R174). -/
def nonSecure (c : Context) : Bool :=
  match c.pstate.mode with
  | .low _ ns => ns
  | .hyp => true
  | .monitor => false

/-- `f` of each of IRQ, FIQ and SError of three records. -/
def perExcMap3 (f : Bool → Bool → Bool → Bool) (x y z : PerExc) : PerExc :=
  { irq := f x.irq y.irq z.irq, fiq := f x.fiq y.fiq z.fiq, serror := f x.serror y.serror z.serror }

/-- Whether one of the three holds. -/
def perExcAny (x : PerExc) : Bool := x.irq || x.fiq || x.serror

/-- The configuration in which `EDSCR.INTdis` can mask: invasive debug enabled and `EDSCR.HDE` 1 (R92). -/
def intdisActive (pe : Pe) : Bool := pe.inputs.invasiveDebug && edscrHde pe.ctx

/-- `IntdisMasks(p, X)` for a record of it, false unless R92's configuration holds. -/
def intdisMasks (pe : Pe) (masks : PerExc) : PerExc :=
  if intdisActive pe then masks else perExcAll false

/-- `PhysMaskEffective(p, X)`: as the host presents it, but true where neither EL2 nor EL3 is
implemented (R93). -/
def physMaskEffective (pr : Params) (pe : Pe) : PerExc :=
  if pr.haveEL2 || pr.haveEL3 then pe.inputs.maskEffective else perExcAll true

/-- `EDBGRQ[p] and HaltingAllowed(p)`: wakeup event 9 of `WFE` and 7 of `WFI` (R88, R140). -/
def debugWakeup (pe : Pe) : Bool := pe.inputs.edbgrq && pe.inputs.haltingAllowed

/-- Whether virtual interrupts can be wakeup events: Non-secure state outside Hyp mode (R85, R137). -/
def virtualWakeups (c : Context) : Bool := nonSecure c && !inHypMode c

/-- The interfaces the words "debug interface" can name (R155). -/
inductive DebugInterface where
  | externalDebug
  | coreToDebugDomain
deriving DecidableEq, Repr

/-- Which interface must be idle under R154: with separate Core and Debug power domains, the one
between them (R155). No step reads it; `Inputs.debugIdle` speaks of this interface. -/
def debugInterfaceNamed (pr : Params) : DebugInterface :=
  if pr.separatePowerDomains then .coreToDebugDomain else .externalDebug

/-- Whether an input of R19 differs in two records: the pending bits, `EDBGRQ`, `HaltingAllowed` or
`InvasiveDebugEnabled`. The other fields of `Inputs` are no inputs of R19, so that a change of one
of them alone (`PhysMaskEffective`, `IntdisMasks`, the powerdown configuration, another exception,
an idle interface) is no occurrence in R18, R99 (iii) and R143: DEDUCED, the model's choice (log
entry 21). -/
def wakeInputsDiffer (i j : Inputs) : Bool :=
  decide (i.physical ≠ j.physical) || decide (i.virtual ≠ j.virtual) || i.edbgrq != j.edbgrq
    || i.haltingAllowed != j.haltingAllowed || i.invasiveDebug != j.invasiveDebug

/-- Whether the idle state may be signalled: the bus is idle (R151), and with `FEAT_DoubleLock` and
`DBGOSDLR.DLK` set the debug interface is idle too (R154). What "no ongoing bus activity" means is not
in the source (N37); the model takes the input `busIdle` for it, which the environment sets freely and
which does not depend on the PE's outstanding accesses: DESIGN CHOICE (log entry 23). -/
def idleAllowed (pr : Params) (pe : Pe) : Bool :=
  pe.inputs.busIdle && (!(pr.haveDoubleLock && dbgosdlrDlk pe.ctx) || pe.inputs.debugIdle)

end Sys2Proof.Machine
end

