-- ==== Sys2Proof/Machine/Ops.lean ====
section
/-! DEFINITION. The shared operations: memory, the PEs of the system, the pc, the fetch, the trap
function and taking a trap (R165, R167), the exception return (R13 (c)), and the choice of the next
move. -/

namespace Sys2Proof.Machine

/-! Memory. -/

/-- The byte at an address, if it has been written. -/
def readByte : Memory → Nat → Option Byte
  | [], _ => none
  | (b, v) :: m, a => if a = b then some v else readByte m a

/-- Memory with a byte written; the list stays in its canonical order. -/
def writeByte : Memory → Nat → Byte → Memory
  | [], a, v => [(a, v)]
  | (b, u) :: m, a, v =>
    if a < b then (a, v) :: (b, u) :: m
    else if a = b then (a, v) :: m
    else (b, u) :: writeByte m a v

/-- Memory with bytes written from an address on. -/
def writeBytes : Memory → Nat → List Byte → Memory
  | m, _, [] => m
  | m, a, v :: vs => writeBytes (writeByte m a v) (a + 1) vs

/-- `n` bytes from an address on, if all of them have been written. -/
def readBytes (m : Memory) : Nat → Nat → Option (List Byte)
  | _, 0 => some []
  | a, n + 1 =>
    match readByte m a, readBytes m (a + 1) n with
    | some v, some vs => some (v :: vs)
    | _, _ => none

/-- The addresses rise strictly from `low` on and stay below `addressTop`. -/
def risingFrom : Nat → Memory → Bool
  | _, [] => true
  | low, (a, _) :: m => decide (low ≤ a) && decide (a < addressTop) && risingFrom (a + 1) m

/-- The canonical form of memory. -/
def Memory.wf (m : Memory) : Bool := risingFrom 0 m

/-! The PEs. -/

/-- The state with PE `p` changed by `f`; unchanged if there is no such PE. -/
def State.modifyPe (s : State) (p : Nat) (f : Pe → Pe) : State :=
  { s with pes := s.pes.modify p f }

/-- The state with every PE changed by `f`, which is given its number. -/
def State.mapPes (s : State) (f : Nat → Pe → Pe) : State :=
  { s with pes := s.pes.mapIdx f }

/-- The state at the next draw of free values (log entry 1). -/
def State.tick (s : State) : State := { s with draws := s.draws + 1 }

/-- When and by whom choices are drawn. -/
structure Occasion where
  draw : Nat
  pe : Nat
deriving DecidableEq, Repr

/-- The occasion of the executing PE. -/
def State.occasion (s : State) : Occasion := { draw := s.draws, pe := s.cur }

/-- The implementation's choice of a kind at an occasion (R4, R6). -/
def Occasion.choose (o : Occasion) (c : Choice) : Bool := Config.choose o.draw o.pe c

/-! The program counter. -/

/-- `pc + len` (R25); past the top of the address space, which the source does not describe, a free
value (log entry 5). -/
def advancePc (pc : Word) (len : Nat) : Word :=
  if pc.toNat + len < addressTop then pc + BitVec.ofNat 32 len else Config.pcPastTop pc len

/-- The instruction of the PE completes: `pc <- pc + len` (R25). -/
def Pe.complete (pe : Pe) (len : Nat) : Pe :=
  { pe with ctx := { pe.ctx with pc := advancePc pe.ctx.pc len } }

/-! The Event Register and the deliveries. -/

/-- `ER[p] <- 1` (R13). -/
def Pe.setEventRegister (pe : Pe) : Pe := { pe with er := true }

/-- `ClearEventRegister()`: `ER[p] <- 0` (R95). -/
def Pe.clearEventRegister (pe : Pe) : Pe := { pe with er := false }

/-- `sevq <- sevq + {deliver(p)}` (R22, R111). -/
def Pe.enqueueDelivery (pe : Pe) : Pe := { pe with sevq := pe.sevq + 1 }

/-! Traps and exceptions. -/

/-- `WFxTrap(p, kind)` (R165, with R162 to R164 and the order of R166). -/
def wfxTrap (pr : Params) (kind : WaitKind) (c : Context) : Option TrapTarget :=
  if atEl0 c && !sctlrNoTrap kind c then some .el1Undefined
  else if pr.haveEL2 && nonSecure c && !inHypMode c && hcrTrap kind c then some .el2HypTrap
  else if pr.haveEL3 && !inMonitorMode c && scrTrap kind c then some .el3MonitorTrap
  else none

/-- The mode a trap is taken to (R162 to R164): Undefined mode, Hyp mode, or Monitor mode. R162 does not
say in which security state Undefined mode is entered; that it is the one of the trapped PE is the
model's choice (DESIGN CHOICE, log entry 6). Hyp mode is Non-secure and Monitor mode Secure (log entry
26). -/
def trapMode (t : TrapTarget) (c : Context) : Mode :=
  match t with
  | .el1Undefined => .low .undefined (nonSecure c)
  | .el2HypTrap => .hyp
  | .el3MonitorTrap => .monitor

/-- `CV` and `COND` of the syndrome: the condition of an A32 instruction; for T32 an implementation
choice (R168 and section 6 of 95_test_vectors.md; log entry 9). -/
def syndromeCond (o : Occasion) (r : TrapRecord) : BitVec 5 :=
  match r.iset with
  | .a32 => 1#1 ++ r.cond.bits
  | .t32 => Config.t32Syndrome o.draw o.pe

/-- `HSR` of a `WFE` or `WFI` trapped to Hyp mode: `EC` 0x01, `IL` 1 for a 32-bit encoding, `CV` and
`COND`, and `TI` 1 for `WFE` (R168). -/
def hypSyndrome (o : Occasion) (r : TrapRecord) : Word :=
  0x01#6 ++ BitVec.ofBool (r.len == 4) ++ syndromeCond o r ++ 0#19
    ++ BitVec.ofBool (r.kind == .wfe)

/-- `HSR` after a trap: only a trap to Hyp mode records a syndrome (R168). -/
def trapSyndrome (o : Occasion) (r : TrapRecord) (c : Context) : Word :=
  match r.target with
  | .el2HypTrap => hypSyndrome o r
  | .el1Undefined => c.hsr
  | .el3MonitorTrap => c.hsr

/-- TAKING A TRAP (R167): the record goes to the host's exception entry, whose effect on the context is
free (`TakeTrap`, log entry 6) but for the mode (R162 to R164) and the syndrome (R168). The Event
Register, the run state and the deliveries in flight stay. -/
def takeTrap (o : Occasion) (r : TrapRecord) (pe : Pe) : Pe :=
  let entered := Config.trapEntry o.draw o.pe r pe.ctx
  { pe with
    trap := some r
    ctx :=
      { entered with
        pstate := { entered.pstate with mode := trapMode r.target pe.ctx }
        hsr := trapSyndrome o r pe.ctx } }

/-- The host's entry of another exception (R72, R169, D34): no state this spec owns changes; the
context is the host's (log entry 7). -/
def takeOtherException (o : Occasion) (pe : Pe) : Pe :=
  { pe with ctx := Config.exceptionEntry o.draw o.pe pe.ctx }

/-- An exception return executed by the PE: the host restores the context, and the Event Register is
set (R13 (c), R173). -/
def exceptionReturn (ctx : Context) (pe : Pe) : Pe := { pe.setEventRegister with ctx := ctx }

/-! Fetching. -/

/-- What a fetch answers. -/
inductive Fetched where
  | instr (i : Instr)
  | fault (f : Fault)
  | refused (r : Refusal)
deriving DecidableEq, Repr

/-- How many bytes an A32 or T32 instruction is aligned to (R41). -/
def fetchAlign : InstrSet → Nat
  | .a32 => 4
  | .t32 => 2

/-- Whether a PE has stored to one of the `n` bytes from `a` on (R45). -/
def writtenAny (written : List Nat) (a n : Nat) : Bool := written.any fun x => decide (a ≤ x ∧ x < a + n)

/-- The `n` bytes of an instruction at address `a`, or why the fetch stops. -/
def fetchBytes (s : State) (a n : Nat) : Sum Fetched (List Byte) :=
  if addressTop < a + n then .inl (.refused .fetchPastTop)
  else if writtenAny s.written a n then .inl (.refused .selfModifyingCode)
  else
    match readBytes s.mem a n with
    | none => .inl (.fault .fetchUnwritten)
    | some bytes => .inr bytes

/-- The instruction some bytes hold; bytes that hold none are refused (log entry 31). -/
def fetchDecoded (iset : InstrSet) (bytes : List Byte) : Fetched :=
  match decode iset bytes with
  | .instr i _ => .instr i
  | .reject why => .refused (.rejected why)

/-- Whether the bytes of a first halfword begin a 32-bit T32 instruction (R54). -/
def beginsWide (bytes : List Byte) : Bool :=
  match bytes with
  | b0 :: b1 :: _ => t32Wide (halfOf b0 b1)
  | _ => false

/-- The fetch of the instruction at the pc (R40, R41, R45, R50, R54). A T32 second halfword is
fetched only where the first calls for one. -/
def fetch (s : State) (pe : Pe) : Fetched :=
  if pe.ctx.pc.toNat % fetchAlign pe.ctx.pstate.iset ≠ 0 then .refused .misalignedFetch
  else
    match pe.ctx.pstate.iset with
    | .a32 =>
      match fetchBytes s pe.ctx.pc.toNat 4 with
      | .inl stop => stop
      | .inr bytes => fetchDecoded .a32 bytes
    | .t32 =>
      match fetchBytes s pe.ctx.pc.toNat 2 with
      | .inl stop => stop
      | .inr first =>
        if beginsWide first then
          match fetchBytes s pe.ctx.pc.toNat 4 with
          | .inl stop => stop
          | .inr bytes => fetchDecoded .t32 bytes
        else fetchDecoded .t32 first

/-! The next move. -/

/-- The move that comes next: the first of the agenda, or, when the agenda is empty, whatever the
schedule brings (R28; log entry 2). -/
def State.nextMove (s : State) : Move :=
  match s.agenda with
  | m :: _ => m
  | [] => Config.schedule s.draws

/-- The state with the next move taken off the agenda. -/
def State.dropMove (s : State) : State := { s with agenda := s.agenda.tail }

end Sys2Proof.Machine
end

