-- ==== Sys2Proof/Machine/Operands.lean ====
section
/-! DEFINITION. The forms an instruction comes in: its length (R50) and where its condition comes from
(R55, R60). No instruction of this spec has another operand (R63). -/

namespace Sys2Proof.Machine

/-- Where the condition of an instruction comes from: its field, in A32; the IT block, in T32; or
nowhere, for the unconditional A32 `DSB` (R55, R56, R60). -/
inductive CondSource where
  | field (cond : Cond)
  | itBlock
  | always
deriving DecidableEq, Repr

/-- The form of an instruction: its instruction set, its length in bytes and its condition. -/
structure Form where
  iset : InstrSet
  len : Nat
  source : CondSource
deriving DecidableEq, Repr

/-- Encoding A1 with a condition field (R51). -/
def formA1 (cond : Cond) : Form := { iset := .a32, len := 4, source := .field cond }

/-- The unconditional A32 encoding of `DSB` (R56). -/
def formA1Always : Form := { iset := .a32, len := 4, source := .always }

/-- A 16-bit T32 encoding (R52). -/
def formT16 : Form := { iset := .t32, len := 2, source := .itBlock }

/-- A 32-bit T32 encoding (R53, R56). -/
def formT32 : Form := { iset := .t32, len := 4, source := .itBlock }

/-- The condition of the slot of the IT block at an address; outside an IT block, always (R60). -/
def itCond (slots : List (Word × Cond)) (pc : Word) : Cond :=
  match slots with
  | [] => .al
  | (a, cond) :: rest => if a = pc then cond else itCond rest pc

/-- The condition an instruction executes under (R55, R60). -/
def formCond (f : Form) (c : Context) : Cond :=
  match f.source with
  | .field cond => cond
  | .itBlock => itCond c.pstate.itBlock c.pc
  | .always => .al

/-- `ConditionPassed(p, cond)` (R55). -/
def conditionPassed (f : Form) (c : Context) : Bool := condHolds c.pstate (formCond f c)

/-- The frame every hint shares (R17, R55): a PE that is not Running takes no step; one whose condition
fails only moves past the instruction; otherwise the operation. -/
def executeHint (f : Form) (op : State → Pe → State) (s : State) :
    Host.Outcome State Fault Refusal :=
  match s.pes[s.cur]? with
  | none => .fault .noSuchPe
  | some pe =>
    match pe.run with
    | .running =>
      .next (if conditionPassed f pe.ctx then op s pe
        else s.modifyPe s.cur fun q => q.complete f.len)
    | .suspendedWfe _ => .next s
    | .suspendedWfi _ => .next s
    | .poweredDown => .next s

/-- The `WFE` or `WFI` of the PE is trapped to `t`, or, where no control applies, `otherwise` (R165). -/
def trappedOr (o : Occasion) (pr : Params) (kind : WaitKind) (f : Form) (pe otherwise : Pe) : Pe :=
  match wfxTrap pr kind pe.ctx with
  | none => otherwise
  | some t =>
    takeTrap o
      { target := t, kind := kind, pc := pe.ctx.pc, len := f.len, iset := f.iset
        cond := formCond f pe.ctx } pe

/-- The branch of `WFE` and `WFI` with a wakeup event pending: it completes, but under
`trap_when_wakeup_pending` the implementation may trap it (R165). -/
def completePending (o : Occasion) (pr : Params) (kind : WaitKind) (f : Form) (pe : Pe) : Pe :=
  if pr.trapWhenWakeupPending && o.choose .trapPending then
    trappedOr o pr kind f pe (pe.complete f.len)
  else pe.complete f.len

end Sys2Proof.Machine
end

