-- ==== Sys2Proof/Machine/Barrier.lean ====
section
/-! DEFINITION. `DSB` (R36) in its two encodings; the full-system option only (R56). -/

namespace Sys2Proof.Machine

/-- `DSB SY` of the executing PE (R36): while an earlier memory access of the PE is outstanding the
barrier waits, the pc staying at it; when none is, it completes (log entry 28). -/
def dsb (f : Form) (s : State) (pe : Pe) : State :=
  if pe.accesses.isEmpty then s.modifyPe s.cur fun q => q.complete f.len else s

/-- `DSB` with an option: the spec refuses every option but `SY` (R56, D30). -/
def executeDsb (f : Form) (option : BitVec 4) (s : State) : Host.Outcome State Fault Refusal :=
  if option = optionSy then executeHint f (dsb f) s else .refused (.dsbOption option)

/-- `DSB`, encoding A1, which is unconditional (R36, R56). -/
def execDsbA1 (option : BitVec 4) (s : State) : Host.Outcome State Fault Refusal :=
  executeDsb formA1Always option s

/-- `DSB`, encoding T1, 32 bits (R36, R56). -/
def execDsbT1 (option : BitVec 4) (s : State) : Host.Outcome State Fault Refusal :=
  executeDsb formT32 option s

end Sys2Proof.Machine
end

