-- ==== Sys2Proof/Machine/SendEvent.lean ====
section
/-! DEFINITION. Send Event: `SEV` (R111), `SEVL` (R113), each in three encodings, and the atomic
`SendEvent()` (R118). The deliveries themselves are moves of the delivery agent (Environment.lean). -/

namespace Sys2Proof.Machine

/-- `SEV` (R111): a delivery to every PE, the executing one included, is put in flight. -/
def sev (f : Form) (s : State) (_ : Pe) : State :=
  (s.mapPes fun _ q => q.enqueueDelivery).modifyPe s.cur fun q => q.complete f.len

/-- `SEVL` (R113): the local Event Register is set at once, and a delivery to whichever other PEs the
implementation chooses is put in flight (R114). -/
def sevl (f : Form) (s : State) (_ : Pe) : State :=
  s.mapPes fun p q =>
    if p = s.cur then q.setEventRegister.complete f.len
    else if s.occasion.choose (.sevlSignals p) then q.enqueueDelivery
    else q

/-- `SendEvent()` read atomically (R118): every Event Register is set. It is what `SEV` comes to when
all its deliveries are performed at once. -/
def sendEventAtomic (s : State) : State := s.mapPes fun _ q => q.setEventRegister

/-- `SEV`, encoding A1 (R51, R111). -/
def execSevA1 (cond : Cond) (s : State) : Host.Outcome State Fault Refusal :=
  executeHint (formA1 cond) (sev (formA1 cond)) s

/-- `SEV`, encoding T1 (R52, R111). -/
def execSevT1 (s : State) : Host.Outcome State Fault Refusal :=
  executeHint formT16 (sev formT16) s

/-- `SEV.W`, encoding T2 (R53, R111). -/
def execSevT2 (s : State) : Host.Outcome State Fault Refusal :=
  executeHint formT32 (sev formT32) s

/-- `SEVL`, encoding A1 (R51, R113). -/
def execSevlA1 (cond : Cond) (s : State) : Host.Outcome State Fault Refusal :=
  executeHint (formA1 cond) (sevl (formA1 cond)) s

/-- `SEVL`, encoding T1 (R52, R113). -/
def execSevlT1 (s : State) : Host.Outcome State Fault Refusal :=
  executeHint formT16 (sevl formT16) s

/-- `SEVL.W`, encoding T2 (R53, R113). -/
def execSevlT2 (s : State) : Host.Outcome State Fault Refusal :=
  executeHint formT32 (sevl formT32) s

end Sys2Proof.Machine
end

