-- ==== Sys2Proof/Machine/WaitForEvent.lean ====
section
/-! DEFINITION. Wait For Event: the wakeup condition (R94) and the instruction (R71) in its three
encodings. -/

namespace Sys2Proof.Machine

/-- The physical interrupts that are WFE wakeup events (R82 to R84, R92, R93). -/
def wfePhysical (pr : Params) (pe : Pe) : PerExc :=
  perExcMap3 (fun pending open_ disabled => pending && open_ && !disabled) pe.inputs.physical
    (perExcMap3 (fun masked effective _ => !masked || !effective) (pstateMasks pe.ctx)
      (physMaskEffective pr pe) (perExcAll false))
    (intdisMasks pe pe.inputs.intdisPhysical)

/-- The virtual interrupts that are WFE wakeup events in Non-secure state outside Hyp mode (R85 to
R87): the Note of R93 is about the physical ones only. -/
def wfeVirtual (pe : Pe) : PerExc :=
  perExcMap3 (fun pending open_ disabled => pending && open_ && !disabled) pe.inputs.virtual
    (perExcMap3 (fun routed masked _ => routed && !masked) (hcrRouting pe.ctx) (pstateMasks pe.ctx)
      (perExcAll false))
    (intdisMasks pe pe.inputs.intdisVirtual)

/-- `WFEWakeupPending(p)` (R94). -/
def wfeWakeupPending (pr : Params) (pe : Pe) : Bool :=
  perExcAny (wfePhysical pr pe)
    || (virtualWakeups pe.ctx && perExcAny (wfeVirtual pe))
    || debugWakeup pe

/-- `WFE` executed by a PE (R71): with the Event Register set it clears it and completes (R73); with a
wakeup event pending it completes (R72); else it completes, is trapped (R75), or suspends (R74, R97). -/
def waitForEvent (o : Occasion) (pr : Params) (f : Form) (pe : Pe) : Pe :=
  if pe.er then pe.clearEventRegister.complete f.len
  else if wfeWakeupPending pr pe then completePending o pr .wfe f pe
  else if o.choose .suspend then
    trappedOr o pr .wfe f pe { pe with run := .suspendedWfe f.len, wakereq := false }
  else pe.complete f.len

/-- `WFE` of the executing PE: no other PE is touched (R102). -/
def wfe (f : Form) (s : State) (_ : Pe) : State :=
  s.modifyPe s.cur (waitForEvent s.occasion s.params f)

/-- `WFE`, encoding A1 (R51, R71). -/
def execWfeA1 (cond : Cond) (s : State) : Host.Outcome State Fault Refusal :=
  executeHint (formA1 cond) (wfe (formA1 cond)) s

/-- `WFE`, encoding T1 (R52, R71). -/
def execWfeT1 (s : State) : Host.Outcome State Fault Refusal :=
  executeHint formT16 (wfe formT16) s

/-- `WFE.W`, encoding T2 (R53, R71). -/
def execWfeT2 (s : State) : Host.Outcome State Fault Refusal :=
  executeHint formT32 (wfe formT32) s

end Sys2Proof.Machine
end

