-- ==== Sys2Proof/Machine/WaitForInterrupt.lean ====
section
/-! DEFINITION. Wait For Interrupt: the wakeup condition (R142), the powerdown (R147) and the
instruction (R131) in its three encodings. -/

namespace Sys2Proof.Machine

/-- `WFIWakeupPending(p)` (R142): the `PSTATE` masks and `EDSCR.INTdis` play no part (R145). -/
def wfiWakeupPending (pe : Pe) : Bool :=
  perExcAny pe.inputs.physical
    || (virtualWakeups pe.ctx
        && perExcAny (perExcMap3 (fun pending routed _ => pending && routed) pe.inputs.virtual
          (hcrRouting pe.ctx) (perExcAll false)))
    || debugWakeup pe

/-- The PE powers down (R147): all its architectural state is lost (R33, R180): its context, its Event
Register and its global monitor, which R178 lists as private to the PE; that the monitor is part of
what is lost is the model's reading (DESIGN CHOICE, log entry 10). Nothing else of the PE changes. -/
def powerDown (o : Occasion) (pe : Pe) : Pe :=
  { pe with
    run := .poweredDown
    er := o.choose .lostEventRegister
    monitor := o.choose .lostMonitor
    ctx := Config.lostContext o.draw o.pe }

/-- `WFI` executed by a PE (R131): with a wakeup event pending it completes (R133), where in a powerdown
configuration the pending event may be ignored (R147); else it completes, is trapped (R158), powers
down (R147), or suspends (R132, R157). The Event Register is not read (R146). -/
def waitForInterrupt (o : Occasion) (pr : Params) (f : Form) (pe : Pe) : Pe :=
  if wfiWakeupPending pe && (!pe.inputs.powerdownConfigured || o.choose .pendingStopsPowerdown) then
    completePending o pr .wfi f pe
  else if o.choose .suspend then
    trappedOr o pr .wfi f pe
      (if pe.inputs.powerdownConfigured then powerDown o pe
        else { pe with run := .suspendedWfi f.len, wakereq := false })
  else pe.complete f.len

/-- `WFI` of the executing PE: no other PE is touched. -/
def wfi (f : Form) (s : State) (_ : Pe) : State :=
  s.modifyPe s.cur (waitForInterrupt s.occasion s.params f)

/-- `WFI`, encoding A1 (R51, R131). -/
def execWfiA1 (cond : Cond) (s : State) : Host.Outcome State Fault Refusal :=
  executeHint (formA1 cond) (wfi (formA1 cond)) s

/-- `WFI`, encoding T1 (R52, R131). -/
def execWfiT1 (s : State) : Host.Outcome State Fault Refusal :=
  executeHint formT16 (wfi formT16) s

/-- `WFI.W`, encoding T2 (R53, R131). -/
def execWfiT2 (s : State) : Host.Outcome State Fault Refusal :=
  executeHint formT32 (wfi formT32) s

end Sys2Proof.Machine
end

