-- ==== Sys2Proof/Machine/Dispatch.lean ====
section
/-! DEFINITION. The dispatcher: one arm per constructor of Instr. The executing PE is `cur`. -/

namespace Sys2Proof.Machine

def exec (i : Instr) (s : State) : Host.Outcome State Fault Refusal :=
  match i with
  | .wfeA1 cond => Sys2Proof.Machine.execWfeA1 cond s
  | .wfiA1 cond => Sys2Proof.Machine.execWfiA1 cond s
  | .sevA1 cond => Sys2Proof.Machine.execSevA1 cond s
  | .sevlA1 cond => Sys2Proof.Machine.execSevlA1 cond s
  | .wfeT1 => Sys2Proof.Machine.execWfeT1 s
  | .wfiT1 => Sys2Proof.Machine.execWfiT1 s
  | .sevT1 => Sys2Proof.Machine.execSevT1 s
  | .sevlT1 => Sys2Proof.Machine.execSevlT1 s
  | .wfeT2 => Sys2Proof.Machine.execWfeT2 s
  | .wfiT2 => Sys2Proof.Machine.execWfiT2 s
  | .sevT2 => Sys2Proof.Machine.execSevT2 s
  | .sevlT2 => Sys2Proof.Machine.execSevlT2 s
  | .dsbA1 option => Sys2Proof.Machine.execDsbA1 option s
  | .dsbT1 option => Sys2Proof.Machine.execDsbT1 option s

end Sys2Proof.Machine
end

