-- ==== Sys2Proof/Machine/Environment.lean ====
section
/-! DEFINITION. The moves of the agents other than a PE executing an instruction of this spec (R28):
deliveries (R119), wakeup events (R99, R143), resuming (R100, R143), reset (R190), the host PE, the
debugger (R152) and the idle signal (R151 to R154). A move that is not enabled changes nothing. -/

namespace Sys2Proof.Machine

/-- A WFE wakeup event occurs for the PE: the latch of a PE suspended in `WFE` is set (R18, R99). -/
def Pe.noteWfeEvent (pe : Pe) : Pe :=
  match pe.run with
  | .suspendedWfe _ => { pe with wakereq := true }
  | .suspendedWfi _ => pe
  | .running => pe
  | .poweredDown => pe

/-- A WFI wakeup event occurs for the PE: the latch of a PE suspended in `WFI` is set (R18, R143). -/
def Pe.noteWfiEvent (pe : Pe) : Pe :=
  match pe.run with
  | .suspendedWfi _ => { pe with wakereq := true }
  | .suspendedWfe _ => pe
  | .running => pe
  | .poweredDown => pe

/-- An event that sets the Event Register and is a WFE wakeup event (R13, R99 (i)). -/
def Pe.receiveEvent (pe : Pe) : Pe := pe.setEventRegister.noteWfeEvent

/-- The delivery agent performs one `deliver(p)`, if one is in flight (R119). -/
def Pe.performDelivery (pe : Pe) : Pe :=
  if pe.sevq = 0 then pe else { pe.receiveEvent with sevq := pe.sevq - 1 }

/-- `GlobalMonitorCleared(p)` (R91, R99 (ii)): a WFE wakeup event, which sets the Event Register only
under `gm_clear_sets_er`. -/
def Pe.clearMonitor (pr : Params) (pe : Pe) : Pe :=
  { pe.noteWfeEvent with er := pr.gmClearSetsEr || pe.er, monitor := false }

/-- The idle signal is withdrawn where it may no longer be given (R154). -/
def Pe.settleIdle (pr : Params) (pe : Pe) : Pe := { pe with idle := pe.idle && idleAllowed pr pe }

/-- The latches after an input of R19 has changed (R99 (iii), R143). -/
def Pe.noteLevels (pr : Params) (pe : Pe) : Pe :=
  match pe.run with
  | .suspendedWfe _ => if wfeWakeupPending pr pe then { pe with wakereq := true } else pe
  | .suspendedWfi _ => if wfiWakeupPending pe then { pe with wakereq := true } else pe
  | .running => pe
  | .poweredDown => pe

/-- The environment changes the inputs of the PE (R19, R99 (iii), R143). Only a change of an input of
R19 can set the latch; a change of the other fields alone does not (DEDUCED, log entry 21). -/
def Pe.changeInputs (pr : Params) (i : Inputs) (pe : Pe) : Pe :=
  Pe.settleIdle pr
    (if wakeInputsDiffer i pe.inputs then Pe.noteLevels pr { pe with inputs := i }
      else { pe with inputs := i })

/-- The PE is Running again and its `WFE` or `WFI` completes (R100, R143). -/
def Pe.wake (pe : Pe) (len : Nat) : Pe :=
  { pe.complete len with run := .running, wakereq := false, idle := false }

/-- The resume step, enabled whenever the PE is suspended (R100, R143); after a `WFE` the
implementation may clear the Event Register (R98). -/
def Pe.resume (o : Occasion) (pe : Pe) : Pe :=
  match pe.run with
  | .suspendedWfe len =>
    if o.choose .restartClears then pe.clearEventRegister.wake len else pe.wake len
  | .suspendedWfi len => pe.wake len
  | .running => pe
  | .poweredDown => pe

/-- The context after a reset: the host's reset values; after a powerdown everything but the reset
entry is unknown (R190, R147; log entry 10). -/
def contextAfterReset (o : Occasion) (pe : Pe) : Context :=
  match pe.run with
  | .poweredDown => { Config.lostContext o.draw o.pe with pc := pe.hostReset.pc }
  | .running => pe.hostReset
  | .suspendedWfe _ => pe.hostReset
  | .suspendedWfi _ => pe.hostReset

/-- The global monitor after a reset: not held (log entry 17); after a powerdown, which lost it,
unknown (R33, R180; log entry 10). -/
def monitorAfterReset (o : Occasion) (pe : Pe) : Bool :=
  match pe.run with
  | .poweredDown => o.choose .lostMonitor
  | .running => false
  | .suspendedWfe _ => false
  | .suspendedWfi _ => false

/-- `Reset(p)` (R190, R191): Running, no wake request, an unknown Event Register, the host's reset
values. Deliveries in flight, inputs and outstanding memory accesses stay (log entries 17 and 18). -/
def Pe.reset (o : Occasion) (pe : Pe) : Pe :=
  { pe with
    er := o.choose .resetEventRegister
    run := .running
    wakereq := false
    ctx := contextAfterReset o pe
    monitor := monitorAfterReset o pe
    trap := none
    idle := false }

/-- What only a Running PE does (R28 (1)). -/
def Pe.ifRunning (f : Pe → Pe) (pe : Pe) : Pe :=
  match pe.run with
  | .running => f pe
  | .suspendedWfe _ => pe
  | .suspendedWfi _ => pe
  | .poweredDown => pe

/-- Whether what is fetched at a pc can be an instruction outside this spec (R28 (1)): bytes that the
decoder rejects; or, where the fetch stops before the decoder sees any, bytes of which no PE has
written one (R45; log entries 20 and 24). An instruction of this spec is none. -/
def Fetched.canBeHost (written : List Nat) (pc : Nat) : Fetched → Bool
  | .instr _ => false
  | .refused (.rejected _) => true
  | .refused _ => !writtenAny written pc 4
  | .fault _ => !writtenAny written pc 4

/-- The PE is about to execute an instruction outside this spec: it is Running, and what is fetched at
its pc can be one (R28 (1); log entry 20). In particular no later instruction of the PE runs while a
`DSB` waits (R36), and none runs from bytes a PE has written (R45). -/
def runsHostInstruction (s : State) (pe : Pe) : Bool :=
  match pe.run with
  | .running => (fetch s pe).canBeHost s.written pe.ctx.pc.toNat
  | .suspendedWfe _ => false
  | .suspendedWfi _ => false
  | .poweredDown => false

/-- What an instruction outside this spec does, where the PE is about to execute one. -/
def Pe.hostInstruction (s : State) (f : Pe → Pe) (pe : Pe) : Pe :=
  if runsHostInstruction s pe then f pe else pe

/-- A memory access of the PE becomes outstanding (R35, R36). -/
def Pe.issueAccess (a : Access) (pe : Pe) : Pe := { pe with accesses := pe.accesses ++ [a] }

/-- The PE's debug register takes a value, whatever the PE's run state (R152; log entry 22). -/
def Pe.debugWrite (pr : Params) (reg : DebugReg) (value : Word) (pe : Pe) : Pe :=
  Pe.settleIdle pr
    (match reg with
      | .edscr => { pe with ctx := { pe.ctx with edscr := value } }
      | .dbgosdlr => { pe with ctx := { pe.ctx with dbgosdlr := value } })

/-- What a debug interface reads (R152). -/
def Pe.debugRead (pe : Pe) : DebugReg → Word
  | .edscr => pe.ctx.edscr
  | .dbgosdlr => pe.ctx.dbgosdlr

/-- The idle state is signalled, where the PE is in its WFI state or powered down and R154 allows it
(log entry 23). -/
def Pe.signalIdle (pr : Params) (pe : Pe) : Pe :=
  match pe.run with
  | .suspendedWfi _ => { pe with idle := idleAllowed pr pe }
  | .poweredDown => { pe with idle := idleAllowed pr pe }
  | .running => pe
  | .suspendedWfe _ => pe

/-- The addresses a store adds to what the programs have written (R45; log entry 24). -/
def noteWritten (written : List Nat) : Access → List Nat
  | .load _ => written
  | .store a _ => if a.toNat ∈ written then written else a.toNat :: written

/-- An instruction of PE `p` outside this spec issues a memory access (R35, R45). -/
def issueAccess (p : Nat) (a : Access) (s : State) : State :=
  match (s.pes[p]?).map (runsHostInstruction s) with
  | some true => { s.modifyPe p (Pe.issueAccess a) with written := noteWritten s.written a }
  | _ => s

/-- An access reaches memory: a store is now visible to every PE (R36, R39). -/
def performAccess (m : Memory) : Access → Memory
  | .load _ => m
  | .store a v => writeByte m a.toNat v

/-- Outstanding access number `k` of PE `p` completes, in any order and in any run state (R35, R38; log
entry 19). -/
def completeAccess (p k : Nat) (s : State) : State :=
  match (s.pes[p]?).bind fun pe => pe.accesses[k]? with
  | none => s
  | some a =>
    { s.modifyPe p (fun pe => { pe with accesses := pe.accesses.eraseIdx k }) with
      mem := performAccess s.mem a }

/-- The effect of a move other than `execute` (R28). -/
def environment (m : Move) (s : State) : State :=
  match m with
  | .execute _ => s
  | .deliver p => s.modifyPe p Pe.performDelivery
  | .timerStreamEvent p => s.modifyPe p Pe.receiveEvent
  | .implEvent p => s.modifyPe p Pe.receiveEvent
  | .globalMonitorCleared p => s.modifyPe p (Pe.clearMonitor s.params)
  | .implWfiEvent p => s.modifyPe p Pe.noteWfiEvent
  | .setInputs p i => s.modifyPe p (Pe.changeInputs s.params i)
  | .resume p => s.modifyPe p (Pe.resume { draw := s.draws, pe := p })
  | .reset p => s.modifyPe p (Pe.reset { draw := s.draws, pe := p })
  | .hostStep p ctx => s.modifyPe p (Pe.hostInstruction s fun pe => { pe with ctx := ctx })
  | .exceptionReturn p ctx => s.modifyPe p (Pe.hostInstruction s (exceptionReturn ctx))
  | .enterException p ctx => s.modifyPe p (Pe.ifRunning fun pe => { pe with ctx := ctx })
  | .issueAccess p a => issueAccess p a s
  | .completeAccess p k => completeAccess p k s
  | .holdMonitor p => s.modifyPe p (Pe.hostInstruction s fun pe => { pe with monitor := true })
  | .debugWrite p reg v => s.modifyPe p (Pe.debugWrite s.params reg v)
  | .signalIdle p => s.modifyPe p (Pe.signalIdle s.params)

end Sys2Proof.Machine
end

