-- ==== Sys2Proof/Machine/Moves.lean ====
section
/-! DEFINITION. One move of one agent (R28): a PE executing the instruction it fetches, or a move of
the environment; and where a table word is stored so that a PE fetches it next. -/

namespace Sys2Proof.Machine

/-- PE `p` takes a step of kind (1) of R28: only a Running PE does; another exception the instruction
causes comes before its rule (R72, R169); else it fetches and executes. A step of no PE does nothing
(log entry 33). -/
def executeOn (p : Nat) (s : State) : Host.Outcome State Fault Refusal :=
  match s.pes[p]? with
  | none => .next s
  | some pe =>
    if pe.run ≠ .running then .next s
    else if pe.inputs.otherException then
      .next (s.modifyPe p (takeOtherException { draw := s.draws, pe := p }))
    else
      match fetch s pe with
      | .fault f => .fault f
      | .refused r => .refused r
      | .instr i => exec i { s with cur := p }

/-- One move of one agent (R28), the free values drawn afresh. -/
def stepWith (m : Move) (s : State) : Host.Outcome State Fault Refusal :=
  match m with
  | .execute p => executeOn p s.tick
  | other => .next (environment other s.tick)

/-- A PE about to fetch a word of the given instruction set: Running, in that instruction set, its pc
aligned, with no other exception. -/
def Pe.aboutToFetch (iset : InstrSet) (pe : Pe) : Pe :=
  { pe with
    run := .running
    inputs := { pe.inputs with otherException := false }
    ctx :=
      { pe.ctx with
        pc := pe.ctx.pc &&& 0xFFFFFFFC#32
        pstate := { pe.ctx.pstate with iset := iset } } }

/-- The address PE `cur` fetches from once its pc is aligned. -/
def State.fetchAddress (s : State) : Nat :=
  match s.pes[s.cur]? with
  | none => 0
  | some pe => (pe.ctx.pc &&& 0xFFFFFFFC#32).toNat

/-- The state with a table word stored where PE `cur` fetches, and that PE's step put first on the
agenda (log entry 16). -/
def placeFetchWord (s : State) (nbits w : Nat) : State :=
  { s.modifyPe s.cur (Pe.aboutToFetch (tableIset nbits w)) with
    mem := writeBytes s.mem s.fetchAddress (tableBytes (tableIset nbits w) nbits w)
    written := s.written.filter fun a => !decide (s.fetchAddress ≤ a ∧ a < s.fetchAddress + 4)
    agenda := .execute s.cur :: s.agenda }

end Sys2Proof.Machine
end

