-- ==== Sys2Proof/Machine/Step.lean ====
section
/-! DEFINITION. The step of the system, and where a table word is stored so that the next step runs
it. -/

namespace Sys2Proof.Machine

/-- One step of the system: the move that comes next (R28; log entry 2). -/
def step (s : State) : Host.Outcome State Fault Refusal := stepWith s.nextMove s.dropMove

/-- The state with a table word stored where the next step fetches, which runs exactly it (log entry
16). -/
def State.withFetchWord (s : State) (nbits w : Nat) : State := placeFetchWord s nbits w

end Sys2Proof.Machine
end

