-- ==== Sys2Proof/Safety.lean ====
section
/-! DEFINITION. The terms claims are stated in: what each constructor of `Instr` is an encoding of, what
a PE keeps, the invariant of the system, and runs with the fairness the spec obliges the agents to
(R101, R120, R144). -/

namespace Sys2Proof.Machine

/-! What a constructor encodes. -/

/-- The five instructions (R2). -/
inductive Op where
  | wfe | wfi | sev | sevl | dsb
deriving DecidableEq, Repr

/-- The instruction a constructor is an encoding of. -/
def instrOp : Instr → Op
  | .wfeA1 _ => .wfe
  | .wfiA1 _ => .wfi
  | .sevA1 _ => .sev
  | .sevlA1 _ => .sevl
  | .wfeT1 => .wfe
  | .wfiT1 => .wfi
  | .sevT1 => .sev
  | .sevlT1 => .sevl
  | .wfeT2 => .wfe
  | .wfiT2 => .wfi
  | .sevT2 => .sev
  | .sevlT2 => .sevl
  | .dsbA1 _ => .dsb
  | .dsbT1 _ => .dsb

/-- The form of a constructor: instruction set, length, source of its condition (R50, R55, R60). -/
def instrForm : Instr → Form
  | .wfeA1 cond => formA1 cond
  | .wfiA1 cond => formA1 cond
  | .sevA1 cond => formA1 cond
  | .sevlA1 cond => formA1 cond
  | .wfeT1 => formT16
  | .wfiT1 => formT16
  | .sevT1 => formT16
  | .sevlT1 => formT16
  | .wfeT2 => formT32
  | .wfiT2 => formT32
  | .sevT2 => formT32
  | .sevlT2 => formT32
  | .dsbA1 _ => formA1Always
  | .dsbT1 _ => formT32

/-- The executing PE is `pe`, it is Running, and the condition of `i` passes: the premise of the
instruction rules (R55, R71, R111, R113, R131). -/
def Ready (i : Instr) (s : State) (pe : Pe) : Prop :=
  s.pes[s.cur]? = some pe ∧ pe.run = .running ∧ conditionPassed (instrForm i) pe.ctx = true

/-! What stays. -/

/-- The PE a move is a move of: the one that executes, or the one the agent acts on (R28). -/
def Move.target : Move → Nat
  | .execute p => p
  | .deliver p => p
  | .timerStreamEvent p => p
  | .implEvent p => p
  | .globalMonitorCleared p => p
  | .implWfiEvent p => p
  | .setInputs p _ => p
  | .resume p => p
  | .reset p => p
  | .hostStep p _ => p
  | .exceptionReturn p _ => p
  | .enterException p _ => p
  | .issueAccess p _ => p
  | .completeAccess p _ => p
  | .holdMonitor p => p
  | .debugWrite p _ _ => p
  | .signalIdle p => p

/-- Every register and field of the context but the pc is the same (R23). -/
def SameButPc (c c' : Context) : Prop := c' = { c with pc := c'.pc }

/-- Every PE but `p` is the same, and there are as many. -/
def SameButPe (p : Nat) (s t : State) : Prop :=
  t.pes.length = s.pes.length ∧ ∀ q, q ≠ p → t.pes[q]? = s.pes[q]?

/-- What no instruction of this spec touches: the configuration, memory (every byte reads as before),
what programs have written, and the model's own fields (R34). -/
def SameSystem (s t : State) : Prop :=
  t.params = s.params ∧ (∀ a, readByte t.mem a = readByte s.mem a) ∧ t.mem = s.mem
    ∧ t.written = s.written ∧ t.cur = s.cur ∧ t.agenda = s.agenda ∧ t.draws = s.draws

/-- Every field of the PE but the Event Register, the run state, the wake request and the pc is the
same (the list of writes of R71). -/
def SameButWait (pe pe' : Pe) : Prop :=
  SameButPc pe.ctx pe'.ctx
    ∧ pe' = { pe with er := pe'.er, run := pe'.run, wakereq := pe'.wakereq, ctx := pe'.ctx }

/-! The invariant. -/

/-- The length of an instruction (R50). -/
def lengthOk (len : Nat) : Bool := len == 2 || len == 4

/-- The fields of a PE fit together: a suspended PE is inside an instruction of some length (R17); a
wake request is pending only in a suspension (R18); the idle state is signalled only in the WFI state
or a powerdown, and only where R154 allows it. -/
def peOk (pr : Params) (pe : Pe) : Bool :=
  match pe.run with
  | .running => !pe.wakereq && !pe.idle
  | .suspendedWfe len => lengthOk len && !pe.idle
  | .suspendedWfi len => lengthOk len && (!pe.idle || idleAllowed pr pe)
  | .poweredDown => !pe.wakereq && (!pe.idle || idleAllowed pr pe)

/-- The address a store goes to is known to have been written (R45). -/
def accessRecorded (written : List Nat) : Access → Prop
  | .load _ => True
  | .store a _ => a.toNat ∈ written

/-- The invariant of the system: memory is canonical, the executing PE exists, every PE's fields fit
together, and every outstanding store is recorded. -/
def SystemOk (s : State) : Prop :=
  s.mem.wf = true ∧ s.cur < s.pes.length
    ∧ ∀ pe ∈ s.pes, peOk s.params pe = true ∧ ∀ a ∈ pe.accesses, accessRecorded s.written a

/-! Runs. -/

/-- An infinite run under an infinite schedule of moves. -/
def IsRun (schedule : Nat → Move) (run : Nat → State) : Prop :=
  ∀ n, stepWith (schedule n) (run n) = .next (run (n + 1))

/-- The PE is obliged to resume (R101, R144): a wakeup event has occurred; for `WFI` only outside the
debug configuration of D26. -/
def mustResume (pe : Pe) : Bool :=
  match pe.run with
  | .suspendedWfe _ => pe.wakereq
  | .suspendedWfi _ => pe.wakereq && !intdisActive pe
  | .running => false
  | .poweredDown => false

/-- PE `p` of the state is obliged to resume. -/
def MustResume (s : State) (p : Nat) : Prop := ∃ pe, s.pes[p]? = some pe ∧ mustResume pe = true

/-- The fairness of R101, R120 and R144 (D29): a PE obliged to resume resumes or is reset, unless the
obligation lapses; a delivery in flight is performed. Nothing is assumed of the other agents (log
entry 32). -/
def Fair (schedule : Nat → Move) (run : Nat → State) : Prop :=
  (∀ n p, MustResume (run n) p →
      ∃ m, n ≤ m ∧ (schedule m = .resume p ∨ schedule m = .reset p ∨ ¬ MustResume (run m) p))
    ∧ ∀ n p pe, (run n).pes[p]? = some pe → 0 < pe.sevq → ∃ m, n ≤ m ∧ schedule m = .deliver p

end Sys2Proof.Machine
end

