-- ==== Sys2Proof/Laws/State.lean ====
section
/-! SUPPORT. The small lemmas of the state's updates: one per field and update, and what a lookup of a
PE sees of them. -/

namespace Sys2Proof.Machine

/-! `State.modifyPe`. -/

@[simp] theorem modifyPe_params (s : State) (p : Nat) (f : Pe → Pe) :
    (s.modifyPe p f).params = s.params := rfl
@[simp] theorem modifyPe_cur (s : State) (p : Nat) (f : Pe → Pe) :
    (s.modifyPe p f).cur = s.cur := rfl
@[simp] theorem modifyPe_mem (s : State) (p : Nat) (f : Pe → Pe) :
    (s.modifyPe p f).mem = s.mem := rfl
@[simp] theorem modifyPe_written (s : State) (p : Nat) (f : Pe → Pe) :
    (s.modifyPe p f).written = s.written := rfl
@[simp] theorem modifyPe_agenda (s : State) (p : Nat) (f : Pe → Pe) :
    (s.modifyPe p f).agenda = s.agenda := rfl
@[simp] theorem modifyPe_draws (s : State) (p : Nat) (f : Pe → Pe) :
    (s.modifyPe p f).draws = s.draws := rfl
@[simp] theorem modifyPe_length (s : State) (p : Nat) (f : Pe → Pe) :
    (s.modifyPe p f).pes.length = s.pes.length := by simp [State.modifyPe]

/-- The changed PE, looked up. -/
@[simp] theorem modifyPe_same (s : State) (p : Nat) (f : Pe → Pe) :
    (s.modifyPe p f).pes[p]? = (s.pes[p]?).map f := by simp [State.modifyPe]

/-- Another PE, looked up. -/
theorem modifyPe_other (s : State) (p q : Nat) (f : Pe → Pe) (h : q ≠ p) :
    (s.modifyPe p f).pes[q]? = s.pes[q]? := by
  simp [State.modifyPe, Ne.symm h]

/-- A member of the changed list is an old member or the change of one. -/
theorem mem_modifyPe {s : State} {p : Nat} {f : Pe → Pe} {x : Pe}
    (h : x ∈ (s.modifyPe p f).pes) : x ∈ s.pes ∨ ∃ pe ∈ s.pes, s.pes[p]? = some pe ∧ x = f pe := by
  obtain ⟨q, hq⟩ := List.mem_iff_getElem?.mp h
  by_cases hp : q = p
  · subst hp
    rw [modifyPe_same] at hq
    obtain ⟨pe, hpe, rfl⟩ := Option.map_eq_some_iff.mp hq
    exact .inr ⟨pe, List.mem_of_getElem? hpe, hpe, rfl⟩
  · rw [modifyPe_other s p q f hp] at hq
    exact .inl (List.mem_of_getElem? hq)

/-! `State.mapPes`. -/

@[simp] theorem mapPes_params (s : State) (f : Nat → Pe → Pe) :
    (s.mapPes f).params = s.params := rfl
@[simp] theorem mapPes_cur (s : State) (f : Nat → Pe → Pe) : (s.mapPes f).cur = s.cur := rfl
@[simp] theorem mapPes_mem (s : State) (f : Nat → Pe → Pe) : (s.mapPes f).mem = s.mem := rfl
@[simp] theorem mapPes_written (s : State) (f : Nat → Pe → Pe) :
    (s.mapPes f).written = s.written := rfl
@[simp] theorem mapPes_agenda (s : State) (f : Nat → Pe → Pe) :
    (s.mapPes f).agenda = s.agenda := rfl
@[simp] theorem mapPes_draws (s : State) (f : Nat → Pe → Pe) :
    (s.mapPes f).draws = s.draws := rfl
@[simp] theorem mapPes_length (s : State) (f : Nat → Pe → Pe) :
    (s.mapPes f).pes.length = s.pes.length := by simp [State.mapPes]

/-- Any PE of the changed list, looked up. -/
@[simp] theorem mapPes_get (s : State) (f : Nat → Pe → Pe) (p : Nat) :
    (s.mapPes f).pes[p]? = (s.pes[p]?).map (f p) := by simp [State.mapPes]

/-! `State.tick` and `State.dropMove`. -/

@[simp] theorem tick_params (s : State) : s.tick.params = s.params := rfl
@[simp] theorem tick_pes (s : State) : s.tick.pes = s.pes := rfl
@[simp] theorem tick_cur (s : State) : s.tick.cur = s.cur := rfl
@[simp] theorem tick_mem (s : State) : s.tick.mem = s.mem := rfl
@[simp] theorem tick_written (s : State) : s.tick.written = s.written := rfl
@[simp] theorem tick_agenda (s : State) : s.tick.agenda = s.agenda := rfl
@[simp] theorem tick_draws (s : State) : s.tick.draws = s.draws + 1 := rfl

@[simp] theorem dropMove_params (s : State) : s.dropMove.params = s.params := rfl
@[simp] theorem dropMove_pes (s : State) : s.dropMove.pes = s.pes := rfl
@[simp] theorem dropMove_cur (s : State) : s.dropMove.cur = s.cur := rfl
@[simp] theorem dropMove_mem (s : State) : s.dropMove.mem = s.mem := rfl
@[simp] theorem dropMove_written (s : State) : s.dropMove.written = s.written := rfl
@[simp] theorem dropMove_draws (s : State) : s.dropMove.draws = s.draws := rfl

/-! `Pe.complete`. -/

@[simp] theorem complete_er (pe : Pe) (n : Nat) : (pe.complete n).er = pe.er := rfl
@[simp] theorem complete_run (pe : Pe) (n : Nat) : (pe.complete n).run = pe.run := rfl
@[simp] theorem complete_wakereq (pe : Pe) (n : Nat) : (pe.complete n).wakereq = pe.wakereq := rfl
@[simp] theorem complete_sevq (pe : Pe) (n : Nat) : (pe.complete n).sevq = pe.sevq := rfl
@[simp] theorem complete_inputs (pe : Pe) (n : Nat) : (pe.complete n).inputs = pe.inputs := rfl
@[simp] theorem complete_monitor (pe : Pe) (n : Nat) : (pe.complete n).monitor = pe.monitor := rfl
@[simp] theorem complete_accesses (pe : Pe) (n : Nat) : (pe.complete n).accesses = pe.accesses := rfl
@[simp] theorem complete_trap (pe : Pe) (n : Nat) : (pe.complete n).trap = pe.trap := rfl
@[simp] theorem complete_idle (pe : Pe) (n : Nat) : (pe.complete n).idle = pe.idle := rfl
@[simp] theorem complete_hostReset (pe : Pe) (n : Nat) :
    (pe.complete n).hostReset = pe.hostReset := rfl
@[simp] theorem complete_pc (pe : Pe) (n : Nat) :
    (pe.complete n).ctx.pc = advancePc pe.ctx.pc n := rfl

/-- Completing changes the pc of the context and nothing else of it (R23, R25). -/
theorem complete_sameButPc (pe : Pe) (n : Nat) : SameButPc pe.ctx (pe.complete n).ctx := rfl

/-! `Pe.setEventRegister`, `Pe.clearEventRegister`, `Pe.enqueueDelivery`. -/

@[simp] theorem setEventRegister_er (pe : Pe) : pe.setEventRegister.er = true := rfl
@[simp] theorem setEventRegister_run (pe : Pe) : pe.setEventRegister.run = pe.run := rfl
@[simp] theorem setEventRegister_wakereq (pe : Pe) : pe.setEventRegister.wakereq = pe.wakereq := rfl
@[simp] theorem setEventRegister_sevq (pe : Pe) : pe.setEventRegister.sevq = pe.sevq := rfl
@[simp] theorem setEventRegister_inputs (pe : Pe) : pe.setEventRegister.inputs = pe.inputs := rfl
@[simp] theorem setEventRegister_ctx (pe : Pe) : pe.setEventRegister.ctx = pe.ctx := rfl
@[simp] theorem setEventRegister_accesses (pe : Pe) :
    pe.setEventRegister.accesses = pe.accesses := rfl
@[simp] theorem setEventRegister_idle (pe : Pe) : pe.setEventRegister.idle = pe.idle := rfl
@[simp] theorem clearEventRegister_er (pe : Pe) : pe.clearEventRegister.er = false := rfl
@[simp] theorem clearEventRegister_run (pe : Pe) : pe.clearEventRegister.run = pe.run := rfl
@[simp] theorem clearEventRegister_wakereq (pe : Pe) :
    pe.clearEventRegister.wakereq = pe.wakereq := rfl
@[simp] theorem clearEventRegister_sevq (pe : Pe) : pe.clearEventRegister.sevq = pe.sevq := rfl
@[simp] theorem clearEventRegister_inputs (pe : Pe) : pe.clearEventRegister.inputs = pe.inputs := rfl
@[simp] theorem clearEventRegister_ctx (pe : Pe) : pe.clearEventRegister.ctx = pe.ctx := rfl
@[simp] theorem clearEventRegister_accesses (pe : Pe) :
    pe.clearEventRegister.accesses = pe.accesses := rfl
@[simp] theorem clearEventRegister_idle (pe : Pe) : pe.clearEventRegister.idle = pe.idle := rfl
@[simp] theorem enqueueDelivery_er (pe : Pe) : pe.enqueueDelivery.er = pe.er := rfl
@[simp] theorem enqueueDelivery_run (pe : Pe) : pe.enqueueDelivery.run = pe.run := rfl
@[simp] theorem enqueueDelivery_wakereq (pe : Pe) : pe.enqueueDelivery.wakereq = pe.wakereq := rfl
@[simp] theorem enqueueDelivery_sevq (pe : Pe) : pe.enqueueDelivery.sevq = pe.sevq + 1 := rfl
@[simp] theorem enqueueDelivery_inputs (pe : Pe) : pe.enqueueDelivery.inputs = pe.inputs := rfl
@[simp] theorem enqueueDelivery_ctx (pe : Pe) : pe.enqueueDelivery.ctx = pe.ctx := rfl
@[simp] theorem enqueueDelivery_accesses (pe : Pe) :
    pe.enqueueDelivery.accesses = pe.accesses := rfl
@[simp] theorem enqueueDelivery_idle (pe : Pe) : pe.enqueueDelivery.idle = pe.idle := rfl
@[simp] theorem setEventRegister_monitor (pe : Pe) : pe.setEventRegister.monitor = pe.monitor := rfl
@[simp] theorem setEventRegister_trap (pe : Pe) : pe.setEventRegister.trap = pe.trap := rfl
@[simp] theorem setEventRegister_hostReset (pe : Pe) : pe.setEventRegister.hostReset = pe.hostReset := rfl
@[simp] theorem clearEventRegister_monitor (pe : Pe) : pe.clearEventRegister.monitor = pe.monitor := rfl
@[simp] theorem clearEventRegister_trap (pe : Pe) : pe.clearEventRegister.trap = pe.trap := rfl
@[simp] theorem clearEventRegister_hostReset (pe : Pe) : pe.clearEventRegister.hostReset = pe.hostReset := rfl
@[simp] theorem enqueueDelivery_monitor (pe : Pe) : pe.enqueueDelivery.monitor = pe.monitor := rfl
@[simp] theorem enqueueDelivery_trap (pe : Pe) : pe.enqueueDelivery.trap = pe.trap := rfl
@[simp] theorem enqueueDelivery_hostReset (pe : Pe) : pe.enqueueDelivery.hostReset = pe.hostReset := rfl

/-! `powerDown`. -/

@[simp] theorem powerDown_run (o : Occasion) (pe : Pe) : (powerDown o pe).run = .poweredDown := rfl
@[simp] theorem powerDown_wakereq (o : Occasion) (pe : Pe) : (powerDown o pe).wakereq = pe.wakereq := rfl
@[simp] theorem powerDown_sevq (o : Occasion) (pe : Pe) : (powerDown o pe).sevq = pe.sevq := rfl
@[simp] theorem powerDown_inputs (o : Occasion) (pe : Pe) : (powerDown o pe).inputs = pe.inputs := rfl
@[simp] theorem powerDown_accesses (o : Occasion) (pe : Pe) : (powerDown o pe).accesses = pe.accesses := rfl
@[simp] theorem powerDown_trap (o : Occasion) (pe : Pe) : (powerDown o pe).trap = pe.trap := rfl
@[simp] theorem powerDown_idle (o : Occasion) (pe : Pe) : (powerDown o pe).idle = pe.idle := rfl
@[simp] theorem powerDown_hostReset (o : Occasion) (pe : Pe) : (powerDown o pe).hostReset = pe.hostReset := rfl

end Sys2Proof.Machine
end

