-- ==== Sys2Proof/Certificates/Slice0/Obligations.lean ====
section
/-! DEFINITION. The statements for the provers. Each says what the spec's rules say an instruction or
the system does, over every state; free values (Config) stay free in them. -/

open Sys2Proof Sys2Proof.Machine

/-! Encoding. -/

/-- Decoding the encoding of an instruction, whatever bytes follow it, gives it back (R51 to R56). -/
def Obligations.DecodeOfEncode : Prop :=
  ∀ (i : Instr) (rest : List Byte), decode i.iset (encode i ++ rest) = .instr i rest

/-- The decoder reads an instruction from nothing but its encoding: no other bytes are taken for it
(R57: the should-be bits are fixed). -/
def Obligations.EncodeOfDecode : Prop :=
  ∀ (iset : InstrSet) (bytes rest : List Byte) (i : Instr),
    decode iset bytes = .instr i rest → bytes = encode i ++ rest ∧ i.iset = iset

/-- Words of section 2 of 95_test_vectors.md, one or more of every instruction: E1, E2, E4 to E6, E12,
E15 to E18, E21 to E24, E27. -/
def Obligations.VectorWordsDecode : Prop :=
  decode .a32 [0x02#8, 0xF0#8, 0x20#8, 0xE3#8] = .instr (.wfeA1 .al) []
    ∧ decode .a32 [0x03#8, 0xF0#8, 0x20#8, 0xE3#8] = .instr (.wfiA1 .al) []
    ∧ decode .a32 [0x05#8, 0xF0#8, 0x20#8, 0xE3#8] = .instr (.sevlA1 .al) []
    ∧ decode .a32 [0x02#8, 0xF0#8, 0x20#8, 0x13#8] = .instr (.wfeA1 .ne) []
    ∧ decode .a32 [0x04#8, 0xF0#8, 0x20#8, 0x03#8] = .instr (.sevA1 .eq) []
    ∧ decode .a32 [0x4F#8, 0xF0#8, 0x7F#8, 0xF5#8] = .instr (.dsbA1 optionSy) []
    ∧ decode .t32 [0x20#8, 0xBF#8] = .instr .wfeT1 []
    ∧ decode .t32 [0x30#8, 0xBF#8] = .instr .wfiT1 []
    ∧ decode .t32 [0x40#8, 0xBF#8] = .instr .sevT1 []
    ∧ decode .t32 [0x50#8, 0xBF#8] = .instr .sevlT1 []
    ∧ decode .t32 [0xAF#8, 0xF3#8, 0x02#8, 0x80#8] = .instr .wfeT2 []
    ∧ decode .t32 [0xAF#8, 0xF3#8, 0x03#8, 0x80#8] = .instr .wfiT2 []
    ∧ decode .t32 [0xAF#8, 0xF3#8, 0x04#8, 0x80#8] = .instr .sevT2 []
    ∧ decode .t32 [0xAF#8, 0xF3#8, 0x05#8, 0x80#8] = .instr .sevlT2 []
    ∧ decode .t32 [0xBF#8, 0xF3#8, 0x4F#8, 0x8F#8] = .instr (.dsbT1 optionSy) []

/-- R57, R59: a word that fits a hint or `DSB` pattern but for its should-be bits is refused, and so is
an A32 word with condition field 1111 and the hint pattern in bits 27 to 16. -/
def Obligations.ReservedWordsRefused : Prop :=
  (∀ (w : Word) (rest : List Byte), w.extractLsb' 28 4 = 0b1111#4 → w.extractLsb' 16 12 = 0x320#12 →
      decode .a32 (wordBytes w ++ rest) = .reject .unconditionalHint)
    ∧ (∀ (w : Word) (rest : List Byte), w.extractLsb' 28 4 ≠ 0b1111#4 →
      w.extractLsb' 16 12 = 0x320#12 → w.extractLsb' 8 8 ≠ 0xF0#8 →
      decode .a32 (wordBytes w ++ rest) = .reject .shouldBe)
    ∧ (∀ (w : Word) (rest : List Byte), w.extractLsb' 20 12 = 0xF57#12 →
      w.extractLsb' 4 4 = 0b0100#4 → w.extractLsb' 8 12 ≠ 0xFF0#12 →
      decode .a32 (wordBytes w ++ rest) = .reject .shouldBe)
    ∧ (∀ (hw1 hw2 : Half) (rest : List Byte), hw1.extractLsb' 4 12 = 0xF3A#12 →
      hw2.extractLsb' 14 2 = 0b10#2 → hw2.extractLsb' 12 1 = 0#1 → hw2.extractLsb' 8 3 = 0#3 →
      (hw1.extractLsb' 0 4 ≠ 0xF#4 ∨ hw2.extractLsb' 13 1 ≠ 0#1 ∨ hw2.extractLsb' 11 1 ≠ 0#1) →
      decode .t32 (halfBytes hw1 ++ halfBytes hw2 ++ rest) = .reject .shouldBe)
    ∧ (∀ (hw1 hw2 : Half) (rest : List Byte), hw1.extractLsb' 4 12 = 0xF3B#12 →
      hw2.extractLsb' 14 2 = 0b10#2 → hw2.extractLsb' 12 1 = 0#1 →
      hw2.extractLsb' 4 4 = 0b0100#4 →
      (hw1.extractLsb' 0 4 ≠ 0xF#4 ∨ hw2.extractLsb' 13 1 ≠ 0#1 ∨ hw2.extractLsb' 8 4 ≠ 0xF#4) →
      decode .t32 (halfBytes hw1 ++ halfBytes hw2 ++ rest) = .reject .shouldBe)

/-! Fetching and stepping. -/

/-- Where the bytes at an aligned pc are the encoding of `i`, none of them written by a program, the
fetch gives `i` (R40, R41, R45, R50, R54). -/
def Obligations.FetchReadsTheEncoding : Prop :=
  ∀ (s : State) (pe : Pe) (i : Instr), pe.ctx.pstate.iset = i.iset →
    pe.ctx.pc.toNat % fetchAlign i.iset = 0 →
    readBytes s.mem pe.ctx.pc.toNat (encode i).length = some (encode i) →
    pe.ctx.pc.toNat + (encode i).length ≤ addressTop →
    writtenAny s.written pe.ctx.pc.toNat (encode i).length = false →
    fetch s pe = .instr i

/-- R45, D6: a program that executes what it has written is refused. A fetch at an aligned pc that would
take a byte a PE has written is refused as self-modifying code: the four bytes of an A32 instruction,
the halfword of a T32 instruction, and both halfwords of a 32-bit T32 instruction. A Running PE that
takes a step there stops with that refusal, and no instruction of the host runs there either. No
instruction is ever fetched from bytes a PE has written. -/
def Obligations.SelfModifiedCodeRefused : Prop :=
  (∀ (s : State) (pe : Pe), pe.ctx.pstate.iset = .a32 → pe.ctx.pc.toNat % 4 = 0 →
      writtenAny s.written pe.ctx.pc.toNat 4 = true → fetch s pe = .refused .selfModifyingCode)
    ∧ (∀ (s : State) (pe : Pe), pe.ctx.pstate.iset = .t32 → pe.ctx.pc.toNat % 2 = 0 →
      writtenAny s.written pe.ctx.pc.toNat 2 = true → fetch s pe = .refused .selfModifyingCode)
    ∧ (∀ (s : State) (pe : Pe) (b0 b1 : Byte), pe.ctx.pstate.iset = .t32 →
      pe.ctx.pc.toNat % 2 = 0 → pe.ctx.pc.toNat + 4 ≤ addressTop →
      readBytes s.mem pe.ctx.pc.toNat 2 = some [b0, b1] → t32Wide (halfOf b0 b1) = true →
      writtenAny s.written pe.ctx.pc.toNat 4 = true → fetch s pe = .refused .selfModifyingCode)
    ∧ (∀ (s : State) (p : Nat) (pe : Pe), s.pes[p]? = some pe → pe.run = .running →
      pe.inputs.otherException = false → fetch s pe = .refused .selfModifyingCode →
      stepWith (.execute p) s = .refused .selfModifyingCode
        ∧ ∀ (m : Move), (∃ ctx, m = .hostStep p ctx) ∨ (∃ ctx, m = .exceptionReturn p ctx)
            ∨ (∃ a, m = .issueAccess p a) ∨ m = .holdMonitor p →
          stepWith m s = .next { s with draws := s.draws + 1 })
    ∧ ∀ (s : State) (pe : Pe) (i : Instr), fetch s pe = .instr i →
      writtenAny s.written pe.ctx.pc.toNat (encode i).length = false

/-- A step whose move is PE `p` executing, where `p` is Running, causes no other exception and fetches
`i`, is `exec i`: what the step adds is to take the move off the agenda, to name `p` the executing
PE and to move on to the next draw of free values. -/
def Obligations.StepRunsTheFetchedInstruction : Prop :=
  ∀ (s : State) (p : Nat) (later : List Move) (pe : Pe) (i : Instr),
    s.agenda = .execute p :: later → s.pes[p]? = some pe → pe.run = .running →
    pe.inputs.otherException = false → fetch s pe = .instr i →
    step s = exec i { s with agenda := later, cur := p, draws := s.draws + 1 }

/-- Another exception the instruction causes comes before the instruction's rule: no state of this spec
changes, only the context, which is the host's (R72 (a), R133 (a), R169, D34). -/
def Obligations.OtherExceptionComesFirst : Prop :=
  ∀ (s : State) (p : Nat) (pe : Pe), s.pes[p]? = some pe → pe.run = .running →
    pe.inputs.otherException = true →
    ∃ ctx, stepWith (.execute p) s
      = .next ({ s with draws := s.draws + 1 }.modifyPe p fun q => { q with ctx := ctx })

/-- R25, R27: where the pc goes when an instruction of this spec is executed inside the address space
by a Running PE: past it, by the length of its encoding, when it completes; nowhere, while the PE is
suspended in it or a `DSB` waits; into the host's exception entry, when it is trapped; and a PE that
powers down has lost it (R147). -/
def Obligations.PcMovesByTheLength : Prop :=
  ∀ (i : Instr) (s t : State) (pe pe' : Pe), exec i s = .next t → s.pes[s.cur]? = some pe →
    t.pes[s.cur]? = some pe' → pe.run = .running →
    pe.ctx.pc.toNat + (encode i).length < addressTop →
    (pe'.run = .running ∧ pe'.ctx.pc.toNat = pe.ctx.pc.toNat + (encode i).length)
      ∨ (pe'.ctx.pc = pe.ctx.pc
        ∧ ((instrOp i = .wfe ∧ pe'.run = .suspendedWfe (encode i).length)
          ∨ (instrOp i = .wfi ∧ pe'.run = .suspendedWfi (encode i).length)
          ∨ (instrOp i = .dsb ∧ pe.accesses ≠ [] ∧ pe' = pe)))
      ∨ (∃ r, wfxTrap s.params r.kind pe.ctx = some r.target ∧ r.pc = pe.ctx.pc
        ∧ (instrOp i = .wfe ∧ r.kind = .wfe ∨ instrOp i = .wfi ∧ r.kind = .wfi)
        ∧ pe' = takeTrap { draw := s.draws, pe := s.cur } r pe)
      ∨ (instrOp i = .wfi ∧ pe.inputs.powerdownConfigured = true ∧ pe'.run = .poweredDown)

/-- R55, R56, R60: the condition table; where the condition comes from: the field of an A1 hint, always
for the A32 `DSB`, and for a T32 instruction the slot of the IT block at its address, always where no
slot is (the slots as log entry 8 holds them); and that an instruction whose condition fails moves
past itself and does nothing else. -/
def Obligations.FailedConditionOnlyMovesPc : Prop :=
  (∀ (i : Instr) (c : Context), conditionPassed (instrForm i) c =
      match i with
      | .wfeA1 cond => condHolds c.pstate cond
      | .wfiA1 cond => condHolds c.pstate cond
      | .sevA1 cond => condHolds c.pstate cond
      | .sevlA1 cond => condHolds c.pstate cond
      | .dsbA1 _ => true
      | _ => condHolds c.pstate ((c.pstate.itBlock.lookup c.pc).getD .al))
    ∧ (∀ (p : Pstate) (c : Cond), condHolds p c =
      match c.bits.toNat with
      | 0 => p.z
      | 1 => !p.z
      | 2 => p.c
      | 3 => !p.c
      | 4 => p.n
      | 5 => !p.n
      | 6 => p.v
      | 7 => !p.v
      | 8 => p.c && !p.z
      | 9 => !p.c || p.z
      | 10 => p.n == p.v
      | 11 => p.n != p.v
      | 12 => !p.z && (p.n == p.v)
      | 13 => p.z || (p.n != p.v)
      | _ => true)
    ∧ ∀ (i : Instr) (s : State) (pe : Pe), i.wellFormed = true → s.pes[s.cur]? = some pe →
      pe.run = .running → conditionPassed (instrForm i) pe.ctx = false →
      exec i s = .next (s.modifyPe s.cur fun q =>
        { q with ctx := { q.ctx with pc := advancePc q.ctx.pc (instrForm i).len } })

/-! Wait For Event. -/

/-- R73: `WFE` with the Event Register set clears it and completes; it neither suspends nor is trapped. -/
def Obligations.WfeWithRegisterSetCompletes : Prop :=
  ∀ (i : Instr) (s : State) (pe : Pe), instrOp i = .wfe → Ready i s pe → pe.er = true →
    exec i s = .next (s.modifyPe s.cur fun q =>
      { q with er := false
               ctx := { q.ctx with pc := advancePc q.ctx.pc (instrForm i).len } })

/-- R71, R72 (c): `WFE` with a wakeup event pending completes, the Event Register staying 0; only
under `trap_when_wakeup_pending` may it be trapped instead (R165). -/
def Obligations.WfeWithWakeupPendingCompletes : Prop :=
  ∀ (i : Instr) (s : State) (pe : Pe), instrOp i = .wfe → Ready i s pe → pe.er = false →
    wfeWakeupPending s.params pe = true →
    ∃ t, exec i s = .next t
      ∧ (s.params.trapWhenWakeupPending = false ∨ wfxTrap s.params .wfe pe.ctx = none →
          t = s.modifyPe s.cur fun q => q.complete (instrForm i).len)
      ∧ (∀ target, s.params.trapWhenWakeupPending = true →
          wfxTrap s.params .wfe pe.ctx = some target →
          t = s.modifyPe s.cur fun q =>
            if Config.choose s.draws s.cur .trapPending then
              takeTrap { draw := s.draws, pe := s.cur }
                { target := target, kind := .wfe, pc := pe.ctx.pc, len := (instrForm i).len
                  iset := i.iset, cond := formCond (instrForm i) pe.ctx } q
            else q.complete (instrForm i).len)

/-- R71, R74, R97: `WFE` with the Event Register clear, nothing pending and no trap control applying
suspends, the pc staying at it, or completes, as the implementation chooses. -/
def Obligations.WfeSuspendsOrCompletes : Prop :=
  ∀ (i : Instr) (s : State) (pe : Pe), instrOp i = .wfe → Ready i s pe → pe.er = false →
    wfeWakeupPending s.params pe = false → wfxTrap s.params .wfe pe.ctx = none →
    exec i s = .next (s.modifyPe s.cur fun q =>
      if Config.choose s.draws s.cur .suspend then
        { q with run := .suspendedWfe (instrForm i).len, wakereq := false }
      else { q with ctx := { q.ctx with pc := advancePc q.ctx.pc (instrForm i).len } })

/-- R75, R165 (D12): where a trap control applies, the would-be suspension is the trap; the `WFE` may
still complete without suspending. -/
def Obligations.WfeIsTrappedOrCompletes : Prop :=
  ∀ (i : Instr) (s : State) (pe : Pe) (target : TrapTarget), instrOp i = .wfe → Ready i s pe →
    pe.er = false → wfeWakeupPending s.params pe = false →
    wfxTrap s.params .wfe pe.ctx = some target →
    exec i s = .next (s.modifyPe s.cur fun q =>
      if Config.choose s.draws s.cur .suspend then
        takeTrap { draw := s.draws, pe := s.cur }
          { target := target, kind := .wfe, pc := pe.ctx.pc, len := (instrForm i).len
            iset := i.iset, cond := formCond (instrForm i) pe.ctx } q
      else q.complete (instrForm i).len)

/-- R72: a Running PE is not suspended in `WFE` by a step that is not its own (R28), nor by one in which
its instruction causes another exception, the Event Register is set, or a WFE wakeup event is pending
(in the sense of R94). These conditions are not sufficient: it is not suspended either where a trap
control applies (R75, R165 with D12) or where the implementation chooses not to suspend it (R74, the
choice being the free value of log entry 1). -/
def Obligations.WfeSuspendsOnlyIf : Prop :=
  ∀ (m : Move) (s t : State) (p : Nat) (pe pe' : Pe), stepWith m s = .next t →
    s.pes[p]? = some pe → t.pes[p]? = some pe' → pe.run = .running →
    (m ≠ .execute p ∨ pe.inputs.otherException = true ∨ pe.er = true
      ∨ wfeWakeupPending s.params pe = true
      ∨ (∃ target, wfxTrap s.params .wfe pe.ctx = some target)
      ∨ Config.choose (s.draws + 1) p .suspend = false) →
    ∀ len, pe'.run ≠ .suspendedWfe len

/-- R102, R30 (and R167 for the trapped case): what a `WFE` leaves unchanged. It never sets the Event
Register, never touches another PE or memory, and changes its own PE in the Event Register, the run
state, the wake request and the pc, unless it is trapped. -/
def Obligations.WfeFrame : Prop :=
  ∀ (i : Instr) (s t : State) (pe pe' : Pe), instrOp i = .wfe → exec i s = .next t →
    s.pes[s.cur]? = some pe → t.pes[s.cur]? = some pe' →
    SameSystem s t ∧ SameButPe s.cur s t ∧ (pe'.er = true → pe.er = true)
      ∧ (SameButWait pe pe'
        ∨ ∃ r, wfxTrap s.params .wfe pe.ctx = some r.target ∧ r.kind = .wfe
          ∧ pe' = takeTrap { draw := s.draws, pe := s.cur } r pe)

/-- R94: the levels that are pending WFE wakeup events, under the masks of R82 to R87, R92 and R93. -/
def Obligations.WfeWakeupLevels : Prop :=
  ∀ (pr : Params) (pe : Pe), wfeWakeupPending pr pe = true ↔
    (pe.inputs.physical.irq = true ∧ (pe.ctx.pstate.maskI = false
          ∨ (pe.inputs.maskEffective.irq = false ∧ (pr.haveEL2 = true ∨ pr.haveEL3 = true)))
        ∧ ¬ (pe.inputs.intdisPhysical.irq = true ∧ pe.inputs.invasiveDebug = true
            ∧ pe.ctx.edscr.getLsbD 14 = true))
      ∨ (pe.inputs.physical.fiq = true ∧ (pe.ctx.pstate.maskF = false
          ∨ (pe.inputs.maskEffective.fiq = false ∧ (pr.haveEL2 = true ∨ pr.haveEL3 = true)))
        ∧ ¬ (pe.inputs.intdisPhysical.fiq = true ∧ pe.inputs.invasiveDebug = true
            ∧ pe.ctx.edscr.getLsbD 14 = true))
      ∨ (pe.inputs.physical.serror = true ∧ (pe.ctx.pstate.maskA = false
          ∨ (pe.inputs.maskEffective.serror = false ∧ (pr.haveEL2 = true ∨ pr.haveEL3 = true)))
        ∧ ¬ (pe.inputs.intdisPhysical.serror = true ∧ pe.inputs.invasiveDebug = true
            ∧ pe.ctx.edscr.getLsbD 14 = true))
      ∨ ((∃ mode, pe.ctx.pstate.mode = .low mode true)
        ∧ ((pe.ctx.hcr.getLsbD 4 = true ∧ pe.inputs.virtual.irq = true
              ∧ pe.ctx.pstate.maskI = false
              ∧ ¬ (pe.inputs.intdisVirtual.irq = true ∧ pe.inputs.invasiveDebug = true
                ∧ pe.ctx.edscr.getLsbD 14 = true))
          ∨ (pe.ctx.hcr.getLsbD 3 = true ∧ pe.inputs.virtual.fiq = true
              ∧ pe.ctx.pstate.maskF = false
              ∧ ¬ (pe.inputs.intdisVirtual.fiq = true ∧ pe.inputs.invasiveDebug = true
                ∧ pe.ctx.edscr.getLsbD 14 = true))
          ∨ (pe.ctx.hcr.getLsbD 5 = true ∧ pe.inputs.virtual.serror = true
              ∧ pe.ctx.pstate.maskA = false
              ∧ ¬ (pe.inputs.intdisVirtual.serror = true ∧ pe.inputs.invasiveDebug = true
                ∧ pe.ctx.edscr.getLsbD 14 = true))))
      ∨ (pe.inputs.edbgrq = true ∧ pe.inputs.haltingAllowed = true)

/-! Wait For Interrupt. -/

/-- R134 to R140, R145: the levels that are pending WFI wakeup events, whatever the `PSTATE` masks; that
there are no others, and that no debug mask enters, is R142 with decision D26. -/
def Obligations.WfiWakeupLevels : Prop :=
  ∀ (pe : Pe), wfiWakeupPending pe = true ↔
    pe.inputs.physical.irq = true ∨ pe.inputs.physical.fiq = true
      ∨ pe.inputs.physical.serror = true
      ∨ ((∃ mode, pe.ctx.pstate.mode = .low mode true)
        ∧ ((pe.ctx.hcr.getLsbD 4 = true ∧ pe.inputs.virtual.irq = true)
          ∨ (pe.ctx.hcr.getLsbD 3 = true ∧ pe.inputs.virtual.fiq = true)
          ∨ (pe.ctx.hcr.getLsbD 5 = true ∧ pe.inputs.virtual.serror = true)))
      ∨ (pe.inputs.edbgrq = true ∧ pe.inputs.haltingAllowed = true)

/-- R145: the mask bits of `PSTATE` cannot mask a WFI wakeup event: whether one is pending does not
depend on them. This is the difference from `WFE`: there they do mask the interrupts, so that with all
three set, each able to mask its physical exception, no interrupt is a WFE wakeup event. A virtual
interrupt still needs its `HCR` bit and Non-secure state outside Hyp mode to be a WFI wakeup event. -/
def Obligations.WfiWakeupCannotBeMasked : Prop :=
  (∀ (pe : Pe) (a i f : Bool),
      wfiWakeupPending { pe with ctx := { pe.ctx with
        pstate := { pe.ctx.pstate with maskA := a, maskI := i, maskF := f } } }
      = wfiWakeupPending pe)
    ∧ (∀ (pr : Params) (pe : Pe), pe.ctx.pstate.maskA = true → pe.ctx.pstate.maskI = true →
      pe.ctx.pstate.maskF = true → physMaskEffective pr pe = perExcAll true →
      wfeWakeupPending pr pe = true → pe.inputs.edbgrq = true ∧ pe.inputs.haltingAllowed = true)
    ∧ ∀ (pe : Pe), wfiWakeupPending pe = true → pe.inputs.physical = perExcAll false →
      ¬ (pe.inputs.edbgrq = true ∧ pe.inputs.haltingAllowed = true) →
      (∃ mode, pe.ctx.pstate.mode = .low mode true)
        ∧ ((pe.ctx.hcr.getLsbD 4 = true ∧ pe.inputs.virtual.irq = true)
          ∨ (pe.ctx.hcr.getLsbD 3 = true ∧ pe.inputs.virtual.fiq = true)
          ∨ (pe.ctx.hcr.getLsbD 5 = true ∧ pe.inputs.virtual.serror = true))

/-- R131, R133 (b): `WFI` with a wakeup event pending, outside a powerdown configuration, completes,
whatever the Event Register; only under `trap_when_wakeup_pending` may it be trapped (R165). -/
def Obligations.WfiWithWakeupPendingCompletes : Prop :=
  ∀ (i : Instr) (s : State) (pe : Pe), instrOp i = .wfi → Ready i s pe →
    wfiWakeupPending pe = true → pe.inputs.powerdownConfigured = false →
    ∃ t, exec i s = .next t
      ∧ (s.params.trapWhenWakeupPending = false ∨ wfxTrap s.params .wfi pe.ctx = none →
          t = s.modifyPe s.cur fun q => q.complete (instrForm i).len)
      ∧ (∀ target, s.params.trapWhenWakeupPending = true →
          wfxTrap s.params .wfi pe.ctx = some target →
          t = s.modifyPe s.cur fun q =>
            if Config.choose s.draws s.cur .trapPending then
              takeTrap { draw := s.draws, pe := s.cur }
                { target := target, kind := .wfi, pc := pe.ctx.pc, len := (instrForm i).len
                  iset := i.iset, cond := formCond (instrForm i) pe.ctx } q
            else q.complete (instrForm i).len)

/-- R131, R132, R157: `WFI` with nothing pending and no trap control applying suspends or completes,
as the implementation chooses; in a powerdown configuration the suspension is the powerdown (R147),
which loses the context, the Event Register and the global monitor (free values, log entry 10) and
changes nothing else of the PE. -/
def Obligations.WfiSuspendsOrCompletes : Prop :=
  ∀ (i : Instr) (s : State) (pe : Pe), instrOp i = .wfi → Ready i s pe →
    wfiWakeupPending pe = false → wfxTrap s.params .wfi pe.ctx = none →
    exec i s = .next (s.modifyPe s.cur fun q =>
      if Config.choose s.draws s.cur .suspend then
        if pe.inputs.powerdownConfigured then
          { q with
            run := .poweredDown
            er := Config.choose s.draws s.cur .lostEventRegister
            monitor := Config.choose s.draws s.cur .lostMonitor
            ctx := Config.lostContext s.draws s.cur }
        else { q with run := .suspendedWfi (instrForm i).len, wakereq := false }
      else { q with ctx := { q.ctx with pc := advancePc q.ctx.pc (instrForm i).len } })

/-- R158, R165: where a trap control applies, the would-be suspension of a `WFI` is the trap. -/
def Obligations.WfiIsTrappedOrCompletes : Prop :=
  ∀ (i : Instr) (s : State) (pe : Pe) (target : TrapTarget), instrOp i = .wfi → Ready i s pe →
    wfiWakeupPending pe = false → wfxTrap s.params .wfi pe.ctx = some target →
    exec i s = .next (s.modifyPe s.cur fun q =>
      if Config.choose s.draws s.cur .suspend then
        takeTrap { draw := s.draws, pe := s.cur }
          { target := target, kind := .wfi, pc := pe.ctx.pc, len := (instrForm i).len
            iset := i.iset, cond := formCond (instrForm i) pe.ctx } q
      else q.complete (instrForm i).len)

/-- R147: with a wakeup event pending in a powerdown configuration the `WFI` completes, or proceeds as
if nothing were pending, as the implementation chooses: it then completes, or is trapped where a
control applies (R158), or powers down. Where it does not ignore the event, it may be trapped only
under `trap_when_wakeup_pending` (R165). -/
def Obligations.PowerdownMayIgnorePending : Prop :=
  ∀ (i : Instr) (s : State) (pe : Pe), instrOp i = .wfi → Ready i s pe →
    wfiWakeupPending pe = true → pe.inputs.powerdownConfigured = true →
    exec i s = .next (s.modifyPe s.cur fun q =>
      match wfxTrap s.params .wfi pe.ctx with
      | none =>
        if Config.choose s.draws s.cur .pendingStopsPowerdown then q.complete (instrForm i).len
        else if Config.choose s.draws s.cur .suspend then
          powerDown { draw := s.draws, pe := s.cur } q
        else q.complete (instrForm i).len
      | some target =>
        if (if Config.choose s.draws s.cur .pendingStopsPowerdown then
              s.params.trapWhenWakeupPending && Config.choose s.draws s.cur .trapPending
            else Config.choose s.draws s.cur .suspend) then
          takeTrap { draw := s.draws, pe := s.cur }
            { target := target, kind := .wfi, pc := pe.ctx.pc, len := (instrForm i).len
              iset := i.iset, cond := formCond (instrForm i) pe.ctx } q
        else q.complete (instrForm i).len)

/-- R133: a Running PE is not suspended in `WFI` by a step that is not its own, nor by one in which its
instruction causes another exception or a WFI wakeup event is pending. These conditions are not
sufficient: it is not suspended either where a trap control applies (R158) or where the implementation
chooses not to suspend it (R132). A powerdown is no suspension here; it may come with a wakeup event
pending (R147). -/
def Obligations.WfiSuspendsOnlyIf : Prop :=
  ∀ (m : Move) (s t : State) (p : Nat) (pe pe' : Pe), stepWith m s = .next t →
    s.pes[p]? = some pe → t.pes[p]? = some pe' → pe.run = .running →
    (m ≠ .execute p ∨ pe.inputs.otherException = true ∨ wfiWakeupPending pe = true
      ∨ (∃ target, wfxTrap s.params .wfi pe.ctx = some target)
      ∨ Config.choose (s.draws + 1) p .suspend = false) →
    ∀ len, pe'.run ≠ .suspendedWfi len

/-- R146, R122: a `WFI` leaves the Event Register as it was, at once and across a suspension; the
register does not stop it from suspending, and a delivery does not wake it. A powerdown loses the
register (R147). -/
def Obligations.WfiIgnoresTheEventRegister : Prop :=
  (∀ (i : Instr) (s t : State) (pe pe' : Pe), instrOp i = .wfi → exec i s = .next t →
      s.pes[s.cur]? = some pe → t.pes[s.cur]? = some pe' → pe'.run ≠ .poweredDown →
      pe'.er = pe.er)
    ∧ (∀ (s : State) (p : Nat) (pe : Pe) (len : Nat), s.pes[p]? = some pe →
      pe.run = .suspendedWfi len → ∃ t pe', stepWith (.resume p) s = .next t
        ∧ t.pes[p]? = some pe' ∧ pe'.run = .running ∧ pe'.er = pe.er)
    ∧ (∀ (o : Occasion) (pr : Params) (f : Form) (pe : Pe) (b : Bool),
      (waitForInterrupt o pr f { pe with er := b }).run = (waitForInterrupt o pr f pe).run)
    ∧ (∀ (s : State) (p : Nat) (pe : Pe) (len : Nat), s.pes[p]? = some pe → 0 < pe.sevq →
      pe.run = .suspendedWfi len → ∃ t pe', stepWith (.deliver p) s = .next t
        ∧ t.pes[p]? = some pe' ∧ pe'.er = true ∧ pe'.run = pe.run ∧ pe'.wakereq = pe.wakereq)

/-- R32, R34, R146: what a `WFI` leaves unchanged: other PEs, memory, and of its own PE everything but
the run state, the wake request and the pc, unless it is trapped or powers down. -/
def Obligations.WfiFrame : Prop :=
  ∀ (i : Instr) (s t : State) (pe pe' : Pe), instrOp i = .wfi → exec i s = .next t →
    s.pes[s.cur]? = some pe → t.pes[s.cur]? = some pe' →
    SameSystem s t ∧ SameButPe s.cur s t
      ∧ ((SameButWait pe pe' ∧ pe'.er = pe.er)
        ∨ (∃ r, wfxTrap s.params .wfi pe.ctx = some r.target ∧ r.kind = .wfi
          ∧ pe' = takeTrap { draw := s.draws, pe := s.cur } r pe)
        ∨ (pe.inputs.powerdownConfigured = true
          ∧ pe' = powerDown { draw := s.draws, pe := s.cur } pe))

/-! Send Event. -/

/-- R111: `SEV` puts one delivery to every PE in flight, the executing one included, and completes: at
every privilege level and under every trap control (R117). -/
def Obligations.SevSignalsEveryPe : Prop :=
  ∀ (i : Instr) (s : State) (pe : Pe), instrOp i = .sev → Ready i s pe →
    exec i s = .next (s.mapPes fun p q =>
      if p = s.cur then
        { q with sevq := q.sevq + 1
                 ctx := { q.ctx with pc := advancePc q.ctx.pc (instrForm i).len } }
      else { q with sevq := q.sevq + 1 })

/-- R113: `SEVL` sets the local Event Register at once, puts in flight a delivery to whichever other
PEs the implementation chooses (R114), and completes. -/
def Obligations.SevlSetsTheLocalRegister : Prop :=
  ∀ (i : Instr) (s : State) (pe : Pe), instrOp i = .sevl → Ready i s pe →
    exec i s = .next (s.mapPes fun p q =>
      if p = s.cur then
        { q with er := true
                 ctx := { q.ctx with pc := advancePc q.ctx.pc (instrForm i).len } }
      else if Config.choose s.draws s.cur (.sevlSignals p) then { q with sevq := q.sevq + 1 }
      else q)

/-- R34, R111, R113: what `SEV` and `SEVL` leave unchanged: memory, and of every PE everything but the
deliveries in flight to it and, in the executing PE, the pc and (`SEVL` only) the Event Register. -/
def Obligations.SendEventFrame : Prop :=
  ∀ (i : Instr) (s t : State), (instrOp i = .sev ∨ instrOp i = .sevl) → exec i s = .next t →
    SameSystem s t ∧ t.pes.length = s.pes.length
      ∧ ∀ (p : Nat) (pe pe' : Pe), s.pes[p]? = some pe → t.pes[p]? = some pe' →
        (pe.sevq ≤ pe'.sevq ∧ pe'.sevq ≤ pe.sevq + 1)
          ∧ (p ≠ s.cur → pe' = { pe with sevq := pe'.sevq })
          ∧ (instrOp i = .sev → pe'.er = pe.er)
          ∧ SameButPc pe.ctx pe'.ctx
          ∧ pe' = { pe with er := pe'.er, sevq := pe'.sevq, ctx := pe'.ctx }

/-- R117: `SEV` and `SEVL` are available at all privilege levels. Whatever the mode and the security state
of the PE and whatever its control registers hold, neither is undefined, trapped or disabled: it has its
effect and completes, the PE going on after it in the same mode, with no trap taken. An `SEVL` sets
the local Event Register; an `SEV`, of unprivileged software too, has an event on its way to every
PE. -/
def Obligations.SendEventAtAllPrivilegeLevels : Prop :=
  ∀ (i : Instr) (s : State) (pe : Pe), (instrOp i = .sev ∨ instrOp i = .sevl) → Ready i s pe →
    ∃ t pe', exec i s = .next t ∧ t.pes[s.cur]? = some pe' ∧ pe'.run = .running
      ∧ pe'.trap = pe.trap ∧ pe'.ctx.pstate = pe.ctx.pstate
      ∧ pe'.ctx.pc = advancePc pe.ctx.pc (instrForm i).len
      ∧ (instrOp i = .sevl → pe'.er = true)
      ∧ (instrOp i = .sev → ∀ (q : Nat) (x : Pe), s.pes[q]? = some x →
        ∃ x', t.pes[q]? = some x' ∧ 0 < x'.sevq)

/-- R118: the atomic `SendEvent()` is one schedule of `SEV`: once each of its deliveries has been
performed, in any order, every Event Register is as `SendEvent()` leaves it and as many deliveries
are in flight as before. -/
def Obligations.AtomicSendEventIsASchedule : Prop :=
  ∀ (i : Instr) (s t : State) (pe : Pe) (order : List Nat), instrOp i = .sev → Ready i s pe →
    exec i s = .next t → order.Perm (List.range s.pes.length) →
    (order.foldl (fun u p => environment (.deliver p) u) t).pes.map (fun q => (q.er, q.sevq))
      = (sendEventAtomic s).pes.map fun q => (q.er, q.sevq)

/-- R115: a `WFE` right after an `SEVL` on the same PE finds the Event Register set: it clears it and
completes, neither suspended nor trapped, with no barrier between. -/
def Obligations.SevlThenWfeCompletes : Prop :=
  ∀ (i j : Instr) (s : State) (pe : Pe), instrOp i = .sevl → instrOp j = .wfe → Ready i s pe →
    ∃ t pe1, exec i s = .next t ∧ t.pes[s.cur]? = some pe1
      ∧ (conditionPassed (instrForm j) pe1.ctx = true →
        ∃ u pe2, exec j t = .next u ∧ u.pes[s.cur]? = some pe2 ∧ pe2.er = false
          ∧ pe2.run = .running ∧ pe2.trap = pe.trap
          ∧ pe2.ctx.pc = advancePc (advancePc pe.ctx.pc (instrForm i).len) (instrForm j).len)

/-! The barrier and memory. -/

/-- R36: a `DSB SY` completes when no earlier memory access of its PE is outstanding, and until then
waits where it is. -/
def Obligations.DsbWaitsForAccesses : Prop :=
  ∀ (i : Instr) (s : State) (pe : Pe), instrOp i = .dsb → i.wellFormed = true → Ready i s pe →
    exec i s = .next (if pe.accesses = [] then s.modifyPe s.cur fun q =>
        { q with ctx := { q.ctx with pc := advancePc q.ctx.pc (instrForm i).len } }
      else s)

/-- R36: no instruction after a `DSB` executes until the `DSB` has completed. While PE `p` is Running
at a `DSB` whose condition passes and an earlier access of `p` is outstanding, then, whatever moves
(but an exception taken, or a reset), the pc stays at the `DSB`, `p` stays Running, a step of `p` itself
changes nothing of `p`, no access is issued, and one leaves only by completing. -/
def Obligations.DsbHoldsLaterInstructions : Prop :=
  ∀ (m : Move) (s t : State) (p : Nat) (pe pe' : Pe) (i : Instr), stepWith m s = .next t →
    s.pes[p]? = some pe → t.pes[p]? = some pe' → pe.run = .running →
    pe.inputs.otherException = false → fetch s pe = .instr i → instrOp i = .dsb →
    conditionPassed (instrForm i) pe.ctx = true → pe.accesses ≠ [] → m ≠ .reset p →
    (∀ ctx, m ≠ .enterException p ctx) →
    pe'.ctx.pc = pe.ctx.pc ∧ pe'.run = .running
      ∧ (m = .execute p → pe' = pe)
      ∧ (pe'.accesses = pe.accesses
        ∨ ∃ k, m = .completeAccess p k ∧ pe'.accesses = pe.accesses.eraseIdx k)

/-- R34, R36: what a `DSB` leaves unchanged: everything but the pc of its PE. -/
def Obligations.DsbFrame : Prop :=
  ∀ (i : Instr) (s t : State) (pe pe' : Pe), instrOp i = .dsb → exec i s = .next t →
    s.pes[s.cur]? = some pe → t.pes[s.cur]? = some pe' →
    SameSystem s t ∧ SameButPe s.cur s t ∧ SameButPc pe.ctx pe'.ctx
      ∧ pe' = { pe with ctx := pe'.ctx }

/-- R56, D30: a `DSB` with an option other than `SY` is refused, in every state and both encodings. -/
def Obligations.OtherBarrierOptionsRefused : Prop :=
  ∀ (option : BitVec 4) (s : State), option ≠ optionSy →
    exec (.dsbA1 option) s = .refused (.dsbOption option)
      ∧ exec (.dsbT1 option) s = .refused (.dsbOption option)

/-- An outstanding access leaves the list only by completing, and a store that completes is then what
memory holds at its address: the model's memory system (log entry 19), under which accesses complete in
any order and in any run state as R35 and R38 admit, and a `DSB` waits for them (R36). That a powerdown
(log entry 10) and a reset (log entry 18) keep them is the model's choice. -/
def Obligations.AccessesLeaveOnlyByCompleting : Prop :=
  ∀ (m : Move) (s t : State) (p : Nat) (pe pe' : Pe), stepWith m s = .next t →
    s.pes[p]? = some pe → t.pes[p]? = some pe' →
    pe'.accesses = pe.accesses
      ∨ (∃ a, m = .issueAccess p a ∧ pe'.accesses = pe.accesses ++ [a])
      ∨ ∃ k, m = .completeAccess p k ∧ pe'.accesses = pe.accesses.eraseIdx k
          ∧ ∀ addr v, pe.accesses[k]? = some (.store addr v) →
            readByte t.mem addr.toNat = some v

/-- Memory is changed by nothing but a completing store of the host, of one byte, at its address only:
no instruction of this spec (R34), no suspension and no powerdown (R30, R31) changes it. That the host
changes it in no other way is the model's memory system (log entry 19). -/
def Obligations.MemoryChangesOnlyByStores : Prop :=
  ∀ (m : Move) (s t : State) (a : Nat), stepWith m s = .next t →
    readByte t.mem a ≠ readByte s.mem a →
    ∃ p k pe addr v, m = .completeAccess p k ∧ s.pes[p]? = some pe
      ∧ pe.accesses[k]? = some (.store addr v) ∧ addr.toNat = a

/-- R45: the text of a program that is not refused never changes. Every step keeps this of a system that
meets the invariant: each byte that no program has written reads as it does in a given text. (What
counts as written is log entry 24; that only completing stores change memory is log entry 19.) -/
def Obligations.UnwrittenBytesNeverChange : Prop :=
  ∀ (text : Nat → Option Byte) (s t : State), SystemOk s →
    (∀ a, a ∉ s.written → readByte s.mem a = text a) → step s = .next t →
    ∀ a, a ∉ t.written → readByte t.mem a = text a

/-! Traps and exceptions. -/

/-- R162 to R166, with the bit positions of R20: the trap function: `SCTLR`, then `HCR`, then `SCR`, the
first that applies (general knowledge in the spec, D10). -/
def Obligations.TrapFunction : Prop :=
  ∀ (pr : Params) (kind : WaitKind) (c : Context),
    (wfxTrap pr kind c = some .el1Undefined ↔
        (∃ ns, c.pstate.mode = .low .user ns)
          ∧ c.sctlr.getLsbD (match kind with | .wfe => 18 | .wfi => 16) = false)
      ∧ (wfxTrap pr kind c = some .el2HypTrap ↔
        wfxTrap pr kind c ≠ some .el1Undefined ∧ pr.haveEL2 = true
          ∧ (∃ mode, c.pstate.mode = .low mode true)
          ∧ c.hcr.getLsbD (match kind with | .wfe => 14 | .wfi => 13) = true)
      ∧ (wfxTrap pr kind c = some .el3MonitorTrap ↔
        wfxTrap pr kind c ≠ some .el1Undefined ∧ wfxTrap pr kind c ≠ some .el2HypTrap
          ∧ pr.haveEL3 = true ∧ c.pstate.mode ≠ .monitor
          ∧ c.scr.getLsbD (match kind with | .wfe => 13 | .wfi => 12) = true)

/-- R162 to R164, R167, R168: taking a trap records the trapped instruction's address, enters the
target's mode, writes the syndrome for Hyp mode only, and leaves the Event Register, the run state,
the deliveries in flight and everything else outside the context. That Undefined mode is entered in the
security state of the trapped PE is the model's choice (log entry 6; how modes and security states go
together is log entry 26). That the other bits of the syndrome are 0 is section 6 of
95_test_vectors.md. The rest of the context is the host's (log entry 6). -/
def Obligations.TrapEntry : Prop :=
  ∀ (o : Occasion) (r : TrapRecord) (pe : Pe),
    (takeTrap o r pe).trap = some r
      ∧ takeTrap o r pe = { pe with trap := some r, ctx := (takeTrap o r pe).ctx }
      ∧ (r.target = .el1Undefined → (takeTrap o r pe).ctx.hsr = pe.ctx.hsr
          ∧ (takeTrap o r pe).ctx.pstate.mode = .low .undefined (nonSecure pe.ctx))
      ∧ (r.target = .el3MonitorTrap → (takeTrap o r pe).ctx.hsr = pe.ctx.hsr
          ∧ (takeTrap o r pe).ctx.pstate.mode = .monitor)
      ∧ (r.target = .el2HypTrap → (takeTrap o r pe).ctx.pstate.mode = .hyp
          ∧ (takeTrap o r pe).ctx.hsr.extractLsb' 26 6 = 0x01#6
          ∧ (takeTrap o r pe).ctx.hsr.getLsbD 25 = (r.len == 4)
          ∧ (r.iset = .a32 → (takeTrap o r pe).ctx.hsr.getLsbD 24 = true
              ∧ (takeTrap o r pe).ctx.hsr.extractLsb' 20 4 = r.cond.bits)
          ∧ (takeTrap o r pe).ctx.hsr.extractLsb' 1 19 = 0#19
          ∧ (takeTrap o r pe).ctx.hsr.getLsbD 0 = (r.kind == .wfe))

/-- R13 (c), R173: an exception return executed by a PE sets its Event Register, and no other PE's; the
context is the one the host restores. -/
def Obligations.ExceptionReturnSetsTheRegister : Prop :=
  ∀ (s : State) (p : Nat) (pe : Pe) (ctx : Context), s.pes[p]? = some pe →
    runsHostInstruction s pe = true →
    stepWith (.exceptionReturn p ctx) s
      = .next ({ s with draws := s.draws + 1 }.modifyPe p fun q =>
        { q with er := true, ctx := ctx })

/-! The agents. -/

/-- R119: performing a delivery. -/
def Obligations.DeliveryIsPerformed : Prop :=
  ∀ (s : State) (p : Nat) (pe : Pe), s.pes[p]? = some pe → 0 < pe.sevq →
    stepWith (.deliver p) s = .next ({ s with draws := s.draws + 1 }.modifyPe p fun q =>
      { q with sevq := q.sevq - 1, er := true
               wakereq := match q.run with
                 | .suspendedWfe _ => true
                 | _ => q.wakereq })

/-- R99 (i), (ii) and R143: what the instantaneous events do. A timer stream event and an
IMPLEMENTATION DEFINED event set the Event Register and are WFE wakeup events; a monitor clear is a
WFE wakeup event and sets the register only under `gm_clear_sets_er` (R91); an IMPLEMENTATION DEFINED
WFI event is a WFI wakeup event and does not touch the register (R141). Nothing else of the PE, no
other PE and no memory changes. -/
def Obligations.InstantaneousEvents : Prop :=
  ∀ (s : State) (p : Nat) (pe : Pe), s.pes[p]? = some pe →
    (∀ m, m = .timerStreamEvent p ∨ m = .implEvent p →
        stepWith m s = .next ({ s with draws := s.draws + 1 }.modifyPe p fun q =>
          { q with er := true
                   wakereq := match q.run with
                     | .suspendedWfe _ => true
                     | _ => q.wakereq }))
      ∧ stepWith (.globalMonitorCleared p) s
        = .next ({ s with draws := s.draws + 1 }.modifyPe p fun q =>
          { q with er := s.params.gmClearSetsEr || q.er
                   monitor := false
                   wakereq := match q.run with
                     | .suspendedWfe _ => true
                     | _ => q.wakereq })
      ∧ stepWith (.implWfiEvent p) s
        = .next ({ s with draws := s.draws + 1 }.modifyPe p fun q =>
          { q with wakereq := match q.run with
                     | .suspendedWfi _ => true
                     | _ => q.wakereq })

/-- R99 (iii), R143: a change of an input of R19 sets the wake request of a suspended PE for which a
wakeup event of its kind is then pending; a change of the other inputs alone does not (the model's
reading, log entry 21). The Event Register, the run state, the pc and everything else of the PE but the
idle signal, which may be withdrawn (log entry 23), stay, and so do the other PEs and memory. -/
def Obligations.InputChangeRequestsWake : Prop :=
  ∀ (s : State) (p : Nat) (pe : Pe) (i : Inputs), s.pes[p]? = some pe →
    ∃ t pe', stepWith (.setInputs p i) s = .next t ∧ t.pes[p]? = some pe' ∧ SameButPe p s t
      ∧ t.mem = s.mem ∧ (pe'.idle = true → pe.idle = true)
      ∧ pe' = { pe with inputs := i, wakereq := pe'.wakereq, idle := pe'.idle }
      ∧ (i.physical = pe.inputs.physical → i.virtual = pe.inputs.virtual →
          i.edbgrq = pe.inputs.edbgrq → i.haltingAllowed = pe.inputs.haltingAllowed →
          i.invasiveDebug = pe.inputs.invasiveDebug → pe'.wakereq = pe.wakereq)
      ∧ (i.physical ≠ pe.inputs.physical ∨ i.virtual ≠ pe.inputs.virtual
            ∨ i.edbgrq ≠ pe.inputs.edbgrq ∨ i.haltingAllowed ≠ pe.inputs.haltingAllowed
            ∨ i.invasiveDebug ≠ pe.inputs.invasiveDebug →
          pe'.wakereq = (match pe.run with
            | .suspendedWfe _ => pe.wakereq || wfeWakeupPending s.params { pe with inputs := i }
            | .suspendedWfi _ => pe.wakereq || wfiWakeupPending { pe with inputs := i }
            | _ => pe.wakereq))

/-- R100, R143: the resume step of a PE suspended in `WFE`, and of one suspended in `WFI`, whatever its
wake request. Only after a `WFE` may the Event Register be cleared, as the implementation chooses
(R98). That the step withdraws the idle signal is the model's choice (log entry 23); no other state
changes. -/
def Obligations.ResumeFromSuspension : Prop :=
  (∀ (s : State) (p : Nat) (pe : Pe) (len : Nat), s.pes[p]? = some pe →
      pe.run = .suspendedWfe len →
      stepWith (.resume p) s = .next ({ s with draws := s.draws + 1 }.modifyPe p fun q =>
        { q with
          er := if Config.choose (s.draws + 1) p .restartClears then false else q.er
          run := .running, wakereq := false, idle := false
          ctx := { q.ctx with pc := advancePc q.ctx.pc len } }))
    ∧ ∀ (s : State) (p : Nat) (pe : Pe) (len : Nat), s.pes[p]? = some pe →
      pe.run = .suspendedWfi len →
      stepWith (.resume p) s = .next ({ s with draws := s.draws + 1 }.modifyPe p fun q =>
        { q with
          run := .running, wakereq := false, idle := false
          ctx := { q.ctx with pc := advancePc q.ctx.pc len } })

/-- R190, R191: a reset of a PE, in any run state: Running, no wake request, an unknown Event Register,
the host's reset entry (and, but after a powerdown, all its reset values); the deliveries in flight
to it stay, and nothing of another PE changes. The model's choices: after a powerdown the rest of the
context and the global monitor are unknown (log entry 10), otherwise the monitor is not held (log
entry 17); the inputs and the outstanding accesses stay (log entry 18). -/
def Obligations.ResetOfOnePe : Prop :=
  ∀ (s : State) (p : Nat) (pe : Pe), s.pes[p]? = some pe →
    ∃ t pe', stepWith (.reset p) s = .next t ∧ t.pes[p]? = some pe' ∧ SameButPe p s t
      ∧ t.mem = s.mem ∧ t.params = s.params
      ∧ pe'.run = .running ∧ pe'.wakereq = false
      ∧ pe'.er = Config.choose (s.draws + 1) p .resetEventRegister
      ∧ pe'.sevq = pe.sevq ∧ pe'.ctx.pc = pe.hostReset.pc
      ∧ pe'.inputs = pe.inputs ∧ pe'.accesses = pe.accesses
      ∧ (pe.run ≠ .poweredDown → pe'.ctx = pe.hostReset ∧ pe'.monitor = false)
      ∧ (pe.run = .poweredDown → pe'.monitor = Config.choose (s.draws + 1) p .lostMonitor
        ∧ pe'.ctx = { Config.lostContext (s.draws + 1) p with pc := pe.hostReset.pc })

/-- R152: a debug register is written and read back in every run state, the WFI state included, and
nothing else of the PE changes but the idle signal (log entry 23), nothing of another PE and no
memory. That both interfaces are one agent that reads back the whole word is log entry 22. -/
def Obligations.DebugAccessInEveryRunState : Prop :=
  ∀ (s : State) (p : Nat) (pe : Pe) (reg : DebugReg) (v : Word), s.pes[p]? = some pe →
    ∃ t pe', stepWith (.debugWrite p reg v) s = .next t ∧ t.pes[p]? = some pe'
      ∧ SameButPe p s t ∧ t.mem = s.mem
      ∧ pe'.debugRead reg = v ∧ (∀ other, other ≠ reg → pe'.debugRead other = pe.debugRead other)
      ∧ pe' = { pe with idle := pe'.idle, ctx := pe'.ctx }
      ∧ pe'.ctx = { pe.ctx with edscr := pe'.ctx.edscr, dbgosdlr := pe'.ctx.dbgosdlr }

/-! The whole machine. -/

/-- Every step, whatever its move, keeps the invariant. -/
def Obligations.StepKeepsInvariant : Prop :=
  ∀ (s t : State), SystemOk s → step s = .next t → SystemOk t

/-- The invariant holds after reset. -/
def Obligations.ResetMeetsInvariant : Prop := SystemOk State.reset

/-- R12, R17, R18, R190: what reset leaves of each PE, beside the values the model names: Running, no
wake request, and an Event Register of which nothing is known, drawn for that PE alone. That every PE
of the system is Running is log entry 15, and that no delivery is in flight, which R191 leaves open
for a reset of the whole system, log entry 25. -/
def Obligations.ResetState : Prop :=
  ∀ (p : Nat) (pe : Pe), State.reset.pes[p]? = some pe →
    pe.run = .running ∧ pe.wakereq = false ∧ pe.sevq = 0
      ∧ pe.er = Config.choose 0 p .resetEventRegister

/-- R14 (with the loss of state of R147 and the reset of R12): the Event Register of a PE goes from 1
to 0 in no other way than by a `WFE` of that PE, executed or restarting; by its powerdown; or by its
reset. -/
def Obligations.EventRegisterClearedOnlyByWfe : Prop :=
  ∀ (m : Move) (s t : State) (p : Nat) (pe pe' : Pe), stepWith m s = .next t →
    s.pes[p]? = some pe → t.pes[p]? = some pe' → pe.er = true → pe'.er = false →
    (m = .execute p ∧ ∃ i, fetch s pe = .instr i
        ∧ (instrOp i = .wfe ∨ (instrOp i = .wfi ∧ pe'.run = .poweredDown)))
      ∨ (m = .resume p ∧ ∃ len, pe.run = .suspendedWfe len)
      ∨ m = .reset p

/-- R13 (with R91, R147 and R12): the Event Register of a PE goes from 0 to 1 in no other way than by
a delivery, an `SEVL` of that PE, its exception return, a timer stream event, an IMPLEMENTATION
DEFINED event, a monitor clear under `gm_clear_sets_er`, its powerdown, or its reset. -/
def Obligations.EventRegisterSetOnlyBy : Prop :=
  ∀ (m : Move) (s t : State) (p : Nat) (pe pe' : Pe), stepWith m s = .next t →
    s.pes[p]? = some pe → t.pes[p]? = some pe' → pe.er = false → pe'.er = true →
    (m = .execute p ∧ ∃ i, fetch s pe = .instr i
        ∧ (instrOp i = .sevl ∨ (instrOp i = .wfi ∧ pe'.run = .poweredDown)))
      ∨ (m = .deliver p ∧ 0 < pe.sevq)
      ∨ (∃ ctx, m = .exceptionReturn p ctx)
      ∨ m = .timerStreamEvent p ∨ m = .implEvent p
      ∨ (m = .globalMonitorCleared p ∧ s.params.gmClearSetsEr = true)
      ∨ m = .reset p

/-- R17, R28, R74, R143, R147: a PE that is suspended or powered down takes no step of its own; it leaves
a suspension only by its resume step or its reset, and a powerdown only by its reset; until then the
context of a suspended PE is held, but for the debug registers a debugger writes (log entry 22). That
the unknown context of a PE powered down is not drawn afresh at each step is the model's choice (log
entry 10). -/
def Obligations.SuspensionHoldsUntilResumeOrReset : Prop :=
  (∀ (s : State) (p : Nat) (pe : Pe), s.pes[p]? = some pe → pe.run ≠ .running →
      stepWith (.execute p) s = .next { s with draws := s.draws + 1 })
    ∧ ∀ (m : Move) (s t : State) (p : Nat) (pe pe' : Pe), stepWith m s = .next t →
      s.pes[p]? = some pe → t.pes[p]? = some pe' → pe.run ≠ .running → m ≠ .reset p →
      (m = .resume p ∧ pe.run ≠ .poweredDown ∧ pe'.run = .running)
        ∨ (pe'.run = pe.run
          ∧ pe'.ctx = { pe.ctx with edscr := pe'.ctx.edscr, dbgosdlr := pe'.ctx.dbgosdlr }
          ∧ ((∀ reg v, m ≠ .debugWrite p reg v) → pe'.ctx = pe.ctx))

/-- R102, R178, R191: a move changes nothing of a PE it is not a move of, whichever agent makes it; only
an instruction of another PE may put a delivery to it in flight, one at most. -/
def Obligations.PesAreIsolated : Prop :=
  ∀ (m : Move) (s t : State) (q : Nat) (pe pe' : Pe), stepWith m s = .next t → m.target ≠ q →
    s.pes[q]? = some pe → t.pes[q]? = some pe' →
    pe' = { pe with sevq := pe'.sevq } ∧ pe.sevq ≤ pe'.sevq ∧ pe'.sevq ≤ pe.sevq + 1
      ∧ ((∀ p, m ≠ .execute p) → pe' = pe)

/-- No step changes the configuration, the set of PEs, or a PE's reset values. R4 has the set and the
`Have` parameters as configuration; that `gm_clear_sets_er` and `trap_when_wakeup_pending` are fixed too
is the model's choice (log entry 4), and so is that the reset values are (log entry 11). -/
def Obligations.ConfigurationIsFixed : Prop :=
  ∀ (m : Move) (s t : State), stepWith m s = .next t →
    t.params = s.params ∧ t.pes.length = s.pes.length
      ∧ t.pes.map Pe.hostReset = s.pes.map Pe.hostReset

/-- R154: where the invariant holds, the idle state of a PE that has `FEAT_DoubleLock` and
`DBGOSDLR.DLK` set is signalled only while the debug interface is idle, and only in the WFI state or
a powerdown. -/
def Obligations.IdleSignalNeedsIdleDebugInterface : Prop :=
  ∀ (s t : State) (pe : Pe), SystemOk s → step s = .next t → pe ∈ t.pes → pe.idle = true →
    (t.params.haveDoubleLock = true → pe.ctx.dbgosdlr.getLsbD 0 = true →
        pe.inputs.debugIdle = true)
      ∧ ((∃ len, pe.run = .suspendedWfi len) ∨ pe.run = .poweredDown)

/-- R101: in a fair run a PE suspended in `WFE` with a wake request runs again. -/
def Obligations.WakeRequestEndsWfeSuspension : Prop :=
  ∀ (schedule : Nat → Move) (run : Nat → State) (n p len : Nat) (pe : Pe),
    IsRun schedule run → Fair schedule run → (run n).pes[p]? = some pe →
    pe.run = .suspendedWfe len → pe.wakereq = true →
    ∃ m pe', n < m ∧ (run m).pes[p]? = some pe' ∧ pe'.run = .running

/-- R144: in a fair run a PE suspended in `WFI` with a wake request runs again, provided the debug
configuration of D26 never holds of it from then on. -/
def Obligations.WakeRequestEndsWfiSuspension : Prop :=
  ∀ (schedule : Nat → Move) (run : Nat → State) (n p len : Nat) (pe : Pe),
    IsRun schedule run → Fair schedule run → (run n).pes[p]? = some pe →
    pe.run = .suspendedWfi len → pe.wakereq = true →
    (∀ k pe', n ≤ k → (run k).pes[p]? = some pe' → intdisActive pe' = false) →
    ∃ m pe', n < m ∧ (run m).pes[p]? = some pe' ∧ pe'.run = .running

/-- R101 with R120: in a fair run a PE `p` suspended in `WFE` runs again, if a delivery to it is in flight,
or if any PE executes an `SEV` at that moment. (Of R201's freedom from lost wakeups this is the part
after `p` has suspended; a delivery performed before its `WFE` is remembered by the Event Register.) -/
def Obligations.SevWakesASuspendedPe : Prop :=
  (∀ (schedule : Nat → Move) (run : Nat → State) (n p len : Nat) (pe : Pe),
      IsRun schedule run → Fair schedule run → (run n).pes[p]? = some pe →
      pe.run = .suspendedWfe len → 0 < pe.sevq →
      ∃ m pe', n < m ∧ (run m).pes[p]? = some pe' ∧ pe'.run = .running)
    ∧ ∀ (schedule : Nat → Move) (run : Nat → State) (n p q len : Nat) (sender pe : Pe) (i : Instr),
      IsRun schedule run → Fair schedule run →
      schedule n = .execute q → (run n).pes[q]? = some sender → sender.run = .running →
      sender.inputs.otherException = false → fetch (run n) sender = .instr i → instrOp i = .sev →
      conditionPassed (instrForm i) sender.ctx = true →
      (run n).pes[p]? = some pe → pe.run = .suspendedWfe len →
      ∃ m pe', n < m ∧ (run m).pes[p]? = some pe' ∧ pe'.run = .running
end

