-- ==== Sys2Proof/Laws/Fetch.lean ====
section
/-! SUPPORT. What a fetch can do, said once: when it gives an instruction, and from which bytes. -/

namespace Sys2Proof.Machine

/-- The bytes of an instruction are fetched where they lie inside the address space, none was written
by a PE, and all have been placed in memory. -/
theorem fetchBytes_eq_inr {s : State} {a n : Nat} {bytes : List Byte} :
    fetchBytes s a n = .inr bytes ↔
      a + n ≤ addressTop ∧ writtenAny s.written a n = false ∧ readBytes s.mem a n = some bytes := by
  unfold fetchBytes
  by_cases h1 : addressTop < a + n
  · simp [h1]
  · rw [if_neg h1]
    cases h2 : writtenAny s.written a n with
    | true => simp
    | false =>
      cases readBytes s.mem a n with
      | none => simp
      | some bytes => simp; omega

/-- As many bytes are read as were asked for. -/
theorem readBytes_length {m : Memory} : ∀ {n a : Nat} {bytes : List Byte},
    readBytes m a n = some bytes → bytes.length = n := by
  intro n
  induction n with
  | zero => intro a bytes h; simp [readBytes] at h; simp [← h]
  | succ n ih =>
    intro a bytes h
    unfold readBytes at h
    cases h1 : readByte m a <;> cases h2 : readBytes m (a + 1) n <;> simp [h1, h2] at h
    rw [← h, List.length_cons, ih h2]

/-- A stop of the fetch of some bytes is a refusal or a fault, never an instruction. -/
theorem fetchBytes_inl {s : State} {a n : Nat} {x : Fetched} (h : fetchBytes s a n = .inl x) :
    ∀ i, x ≠ .instr i := by
  unfold fetchBytes at h
  split at h
  · cases h; simp
  split at h
  · cases h; simp
  split at h <;> cases h
  simp

theorem fetchDecoded_instr {iset : InstrSet} {bytes : List Byte} {i : Instr} :
    fetchDecoded iset bytes = .instr i ↔ ∃ rest, decode iset bytes = .instr i rest := by
  unfold fetchDecoded
  cases decode iset bytes <;> simp

/-- Bytes inside the address space of which a PE has written one are not fetched (R45). -/
theorem fetchBytes_written {s : State} {a n : Nat} (h : a + n ≤ addressTop)
    (hw : writtenAny s.written a n = true) :
    fetchBytes s a n = .inl (.refused .selfModifyingCode) := by
  unfold fetchBytes
  rw [if_neg (by omega), if_pos hw]

/-- Bytes not fetched as self-modifying code have one that a PE has written. -/
theorem fetchBytes_selfModifying {s : State} {a n : Nat}
    (h : fetchBytes s a n = .inl (.refused .selfModifyingCode)) :
    writtenAny s.written a n = true := by
  unfold fetchBytes at h
  split at h
  · cases h
  split at h
  · assumption
  split at h <;> cases h

/-- A byte written among the first of some bytes is written among them all. -/
theorem writtenAny_mono {written : List Nat} {a k n : Nat} (hk : k ≤ n)
    (h : writtenAny written a k = true) : writtenAny written a n = true := by
  unfold writtenAny at *
  simp only [List.any_eq_true, decide_eq_true_eq] at *
  obtain ⟨x, hx, h1, h2⟩ := h
  exact ⟨x, hx, h1, by omega⟩

theorem fetchDecoded_selfModifying (iset : InstrSet) (bytes : List Byte) :
    fetchDecoded iset bytes ≠ .refused .selfModifyingCode := by
  unfold fetchDecoded
  split <;> simp

/-- A fetch refused as self-modifying code finds a written byte in the four from the pc on (R45). -/
theorem fetch_selfModifying {s : State} {pe : Pe}
    (h : fetch s pe = .refused .selfModifyingCode) :
    writtenAny s.written pe.ctx.pc.toNat 4 = true := by
  unfold fetch at h
  split at h
  · simp at h
  split at h
  · split at h
    · rename_i e
      subst h
      exact fetchBytes_selfModifying e
    · exact absurd h (fetchDecoded_selfModifying _ _)
  · split at h
    · rename_i e
      subst h
      exact writtenAny_mono (by omega) (fetchBytes_selfModifying e)
    · split at h
      · split at h
        · rename_i e
          subst h
          exact fetchBytes_selfModifying e
        · exact absurd h (fetchDecoded_selfModifying _ _)
      · exact absurd h (fetchDecoded_selfModifying _ _)

/-- An instruction is fetched from an aligned pc, and is what the decoder reads from the two or four
bytes there; two only where they are a T32 halfword that begins no 32-bit instruction. -/
theorem fetch_eq_instr {s : State} {pe : Pe} {i : Instr} (h : fetch s pe = .instr i) :
    pe.ctx.pc.toNat % fetchAlign pe.ctx.pstate.iset = 0 ∧ ∃ n bytes rest,
      (n = 4 ∨ (n = 2 ∧ pe.ctx.pstate.iset = .t32 ∧ beginsWide bytes = false))
        ∧ fetchBytes s pe.ctx.pc.toNat n = .inr bytes
        ∧ decode pe.ctx.pstate.iset bytes = .instr i rest := by
  unfold fetch at h
  split at h
  · simp at h
  rename_i hal
  refine ⟨by simpa using hal, ?_⟩
  cases hi : pe.ctx.pstate.iset with
  | a32 =>
    simp only [hi] at h
    cases hb : fetchBytes s pe.ctx.pc.toNat 4 with
    | inl x => exact absurd (by simpa [hb] using h) (fetchBytes_inl hb i)
    | inr bytes =>
      simp only [hb, fetchDecoded_instr] at h
      obtain ⟨rest, h⟩ := h
      exact ⟨4, bytes, rest, .inl rfl, hb, h⟩
  | t32 =>
    simp only [hi] at h
    cases hb : fetchBytes s pe.ctx.pc.toNat 2 with
    | inl x => exact absurd (by simpa [hb] using h) (fetchBytes_inl hb i)
    | inr first =>
      simp only [hb] at h
      cases hw : beginsWide first with
      | false =>
        simp only [hw, Bool.false_eq_true, if_false, fetchDecoded_instr] at h
        obtain ⟨rest, h⟩ := h
        exact ⟨2, first, rest, .inr ⟨rfl, rfl, hw⟩, hb, h⟩
      | true =>
        simp only [hw, if_true] at h
        cases hb4 : fetchBytes s pe.ctx.pc.toNat 4 with
        | inl x => exact absurd (by simpa [hb4] using h) (fetchBytes_inl hb4 i)
        | inr bytes =>
          simp only [hb4, fetchDecoded_instr] at h
          obtain ⟨rest, h⟩ := h
          exact ⟨4, bytes, rest, .inl rfl, hb4, h⟩

end Sys2Proof.Machine
end

