-- ==== Sys2Proof/Laws/Execute.lean ====
section
/-! SUPPORT. What each shared operation can do, said once: the frame of the hints, the wait
instructions' outcomes, and the moves. -/

namespace Sys2Proof.Machine

/-- Everything the frame of the hints can do: no such PE; a PE that is not Running; a condition that
fails; the operation. -/
theorem executeHint_cases (f : Form) (op : State → Pe → State) (s : State) :
    (s.pes[s.cur]? = none ∧ executeHint f op s = .fault .noSuchPe)
    ∨ ∃ pe, s.pes[s.cur]? = some pe ∧
      ((pe.run ≠ .running ∧ executeHint f op s = .next s)
        ∨ (pe.run = .running ∧ conditionPassed f pe.ctx = false
            ∧ executeHint f op s = .next (s.modifyPe s.cur fun q => q.complete f.len))
        ∨ (pe.run = .running ∧ conditionPassed f pe.ctx = true
            ∧ executeHint f op s = .next (op s pe))) := by
  unfold executeHint
  cases h : s.pes[s.cur]? with
  | none => simp
  | some pe =>
    right
    refine ⟨pe, rfl, ?_⟩
    cases hr : pe.run with
    | running => cases hc : conditionPassed f pe.ctx <;> simp [hr, hc]
    | suspendedWfe len => simp [hr]
    | suspendedWfi len => simp [hr]
    | poweredDown => simp [hr]

/-- A Running PE whose condition passes runs the operation. -/
theorem executeHint_passed {f : Form} {op : State → Pe → State} {s : State} {pe : Pe}
    (hp : s.pes[s.cur]? = some pe) (hr : pe.run = .running)
    (hc : conditionPassed f pe.ctx = true) : executeHint f op s = .next (op s pe) := by
  simp [executeHint, hp, hr, hc]

/-- A trap is taken for a target, or no control applies. -/
theorem trappedOr_cases (o : Occasion) (pr : Params) (kind : WaitKind) (f : Form) (pe other : Pe) :
    (wfxTrap pr kind pe.ctx = none ∧ trappedOr o pr kind f pe other = other)
    ∨ ∃ r : TrapRecord, wfxTrap pr kind pe.ctx = some r.target ∧ r.kind = kind ∧ r.pc = pe.ctx.pc
        ∧ r.len = f.len ∧ r.iset = f.iset ∧ r.cond = formCond f pe.ctx
        ∧ trappedOr o pr kind f pe other = takeTrap o r pe := by
  unfold trappedOr
  cases wfxTrap pr kind pe.ctx with
  | none => exact .inl ⟨rfl, rfl⟩
  | some t => exact .inr ⟨_, rfl, rfl, rfl, rfl, rfl, rfl, rfl⟩

@[simp] theorem takeTrap_er (o : Occasion) (r : TrapRecord) (pe : Pe) :
    (takeTrap o r pe).er = pe.er := rfl
@[simp] theorem takeTrap_run (o : Occasion) (r : TrapRecord) (pe : Pe) :
    (takeTrap o r pe).run = pe.run := rfl
@[simp] theorem takeTrap_wakereq (o : Occasion) (r : TrapRecord) (pe : Pe) :
    (takeTrap o r pe).wakereq = pe.wakereq := rfl
@[simp] theorem takeTrap_sevq (o : Occasion) (r : TrapRecord) (pe : Pe) :
    (takeTrap o r pe).sevq = pe.sevq := rfl
@[simp] theorem takeTrap_inputs (o : Occasion) (r : TrapRecord) (pe : Pe) :
    (takeTrap o r pe).inputs = pe.inputs := rfl
@[simp] theorem takeTrap_accesses (o : Occasion) (r : TrapRecord) (pe : Pe) :
    (takeTrap o r pe).accesses = pe.accesses := rfl
@[simp] theorem takeTrap_monitor (o : Occasion) (r : TrapRecord) (pe : Pe) :
    (takeTrap o r pe).monitor = pe.monitor := rfl
@[simp] theorem takeTrap_hostReset (o : Occasion) (r : TrapRecord) (pe : Pe) :
    (takeTrap o r pe).hostReset = pe.hostReset := rfl
@[simp] theorem takeTrap_idle (o : Occasion) (r : TrapRecord) (pe : Pe) :
    (takeTrap o r pe).idle = pe.idle := rfl
@[simp] theorem takeTrap_trap (o : Occasion) (r : TrapRecord) (pe : Pe) :
    (takeTrap o r pe).trap = some r := rfl
@[simp] theorem takeTrap_mode (o : Occasion) (r : TrapRecord) (pe : Pe) :
    (takeTrap o r pe).ctx.pstate.mode = trapMode r.target pe.ctx := rfl
@[simp] theorem takeTrap_hsr (o : Occasion) (r : TrapRecord) (pe : Pe) :
    (takeTrap o r pe).ctx.hsr = trapSyndrome o r pe.ctx := rfl

/-- The outcomes of a wait with a wakeup event pending: it completes or is trapped. -/
theorem completePending_cases (o : Occasion) (pr : Params) (kind : WaitKind) (f : Form) (pe : Pe) :
    completePending o pr kind f pe = pe.complete f.len
    ∨ ∃ r : TrapRecord, pr.trapWhenWakeupPending = true ∧ wfxTrap pr kind pe.ctx = some r.target
        ∧ r.kind = kind ∧ r.pc = pe.ctx.pc ∧ completePending o pr kind f pe = takeTrap o r pe := by
  unfold completePending
  by_cases h : (pr.trapWhenWakeupPending && o.choose .trapPending) = true
  · rw [if_pos h]
    rcases trappedOr_cases o pr kind f pe (pe.complete f.len) with ⟨-, e⟩ | ⟨r, h1, h2, h3, -, -, -, e⟩
    · exact .inl e
    · exact .inr ⟨r, (Bool.and_eq_true_iff.mp h).1, h1, h2, h3, e⟩
  · rw [if_neg h]
    exact .inl rfl

/-- Everything a `WFE` can do to its PE (R71). -/
theorem waitForEvent_cases (o : Occasion) (pr : Params) (f : Form) (pe : Pe) :
    (pe.er = true ∧ waitForEvent o pr f pe = pe.clearEventRegister.complete f.len)
    ∨ (pe.er = false ∧ waitForEvent o pr f pe = pe.complete f.len)
    ∨ (pe.er = false ∧ ∃ r : TrapRecord, wfxTrap pr .wfe pe.ctx = some r.target ∧ r.kind = .wfe
        ∧ r.pc = pe.ctx.pc ∧ (wfeWakeupPending pr pe = false ∨ pr.trapWhenWakeupPending = true)
        ∧ waitForEvent o pr f pe = takeTrap o r pe)
    ∨ (pe.er = false ∧ wfeWakeupPending pr pe = false ∧ wfxTrap pr .wfe pe.ctx = none
        ∧ o.choose .suspend = true
        ∧ waitForEvent o pr f pe = { pe with run := .suspendedWfe f.len, wakereq := false }) := by
  unfold waitForEvent
  by_cases her : pe.er = true
  · exact .inl ⟨her, if_pos her⟩
  right
  have her' : pe.er = false := by simpa using her
  rw [if_neg her]
  by_cases hp : wfeWakeupPending pr pe = true
  · rw [if_pos hp]
    rcases completePending_cases o pr .wfe f pe with e | ⟨r, h1, h2, h3, h4, e⟩
    · exact .inl ⟨her', e⟩
    · exact .inr (.inl ⟨her', r, h2, h3, h4, .inr h1, e⟩)
  · have hp' : wfeWakeupPending pr pe = false := by simpa using hp
    rw [if_neg hp]
    by_cases hs : o.choose .suspend = true
    · rw [if_pos hs]
      rcases trappedOr_cases o pr .wfe f pe
          { pe with run := .suspendedWfe f.len, wakereq := false } with
        ⟨h, e⟩ | ⟨r, h1, h2, h3, -, -, -, e⟩
      · exact .inr (.inr ⟨her', hp', h, hs, e⟩)
      · exact .inr (.inl ⟨her', r, h1, h2, h3, .inl hp', e⟩)
    · rw [if_neg hs]
      exact .inl ⟨her', rfl⟩

/-- Everything a `WFI` can do to its PE (R131). -/
theorem waitForInterrupt_cases (o : Occasion) (pr : Params) (f : Form) (pe : Pe) :
    waitForInterrupt o pr f pe = pe.complete f.len
    ∨ (∃ r : TrapRecord, wfxTrap pr .wfi pe.ctx = some r.target ∧ r.kind = .wfi
        ∧ r.pc = pe.ctx.pc ∧ waitForInterrupt o pr f pe = takeTrap o r pe)
    ∨ (pe.inputs.powerdownConfigured = true ∧ wfxTrap pr .wfi pe.ctx = none
        ∧ o.choose .suspend = true ∧ waitForInterrupt o pr f pe = powerDown o pe)
    ∨ (pe.inputs.powerdownConfigured = false ∧ wfiWakeupPending pe = false
        ∧ wfxTrap pr .wfi pe.ctx = none ∧ o.choose .suspend = true
        ∧ waitForInterrupt o pr f pe = { pe with run := .suspendedWfi f.len, wakereq := false }) := by
  unfold waitForInterrupt
  split
  · rcases completePending_cases o pr .wfi f pe with e | ⟨r, -, h2, h3, h4, e⟩
    · exact .inl e
    · exact .inr (.inl ⟨r, h2, h3, h4, e⟩)
  · rename_i hpend
    split
    · rename_i hs
      rcases trappedOr_cases o pr .wfi f pe
          (if pe.inputs.powerdownConfigured then powerDown o pe
            else { pe with run := .suspendedWfi f.len, wakereq := false }) with
        ⟨h, e⟩ | ⟨r, h1, h2, h3, -, -, -, e⟩
      · cases hpd : pe.inputs.powerdownConfigured with
        | true => exact .inr (.inr (.inl ⟨rfl, h, hs, by simpa [hpd] using e⟩))
        | false =>
          have hw : wfiWakeupPending pe = false := by simpa [hpd] using hpend
          exact .inr (.inr (.inr ⟨rfl, hw, h, hs, by simpa [hpd] using e⟩))
      · exact .inr (.inl ⟨r, h1, h2, h3, e⟩)
    · exact .inl rfl

/-- The operation of an instruction. -/
def instrEffect (i : Instr) : State → Pe → State :=
  match instrOp i with
  | .wfe => wfe (instrForm i)
  | .wfi => wfi (instrForm i)
  | .sev => sev (instrForm i)
  | .sevl => sevl (instrForm i)
  | .dsb => dsb (instrForm i)

/-- `exec` of a well-formed instruction is its operation in the frame all of them share. -/
theorem exec_eq {i : Instr} (h : i.wellFormed = true) (s : State) :
    exec i s = executeHint (instrForm i) (instrEffect i) s := by
  cases i <;> first
    | rfl
    | (rename_i option
       have ho : option = optionSy := by simpa [Instr.wellFormed] using h
       simp [exec, execDsbA1, execDsbT1, executeDsb, instrEffect, instrOp, instrForm, ho])

/-- An instruction that is not well-formed is a `DSB` of another option, and is refused as that. -/
theorem exec_refused {i : Instr} (h : i.wellFormed = false) (s : State) :
    ∃ option, option ≠ optionSy ∧ (i = .dsbA1 option ∨ i = .dsbT1 option)
      ∧ exec i s = .refused (.dsbOption option) := by
  cases i <;> first
    | (simp only [Instr.wellFormed, Bool.true_eq_false] at h; done)
    | (rename_i option
       have ho : option ≠ optionSy := by simpa [Instr.wellFormed] using h
       exact ⟨option, ho, by simp, by simp [exec, execDsbA1, execDsbT1, executeDsb, ho]⟩)

/-- Everything a PE's own step can do (R28 (1)). -/
theorem executeOn_cases (p : Nat) (s : State) :
    executeOn p s = .next s
    ∨ ∃ pe, s.pes[p]? = some pe ∧ pe.run = .running ∧
      ((pe.inputs.otherException = true ∧ executeOn p s
          = .next (s.modifyPe p (takeOtherException { draw := s.draws, pe := p })))
        ∨ (pe.inputs.otherException = false ∧ ((∃ x, executeOn p s = .fault x)
            ∨ (∃ x, executeOn p s = .refused x)
            ∨ ∃ i, fetch s pe = .instr i ∧ executeOn p s = exec i { s with cur := p }))) := by
  unfold executeOn
  cases h : s.pes[p]? with
  | none => exact .inl rfl
  | some pe =>
    by_cases hr : pe.run = .running
    · right
      refine ⟨pe, rfl, hr, ?_⟩
      cases ho : pe.inputs.otherException with
      | true => left; simp [hr, ho]
      | false =>
        right
        refine ⟨rfl, ?_⟩
        cases hf : fetch s pe with
        | instr i => exact .inr (.inr ⟨i, rfl, by simp [hr, ho, hf]⟩)
        | fault x => exact .inl ⟨x, by simp [hr, ho, hf]⟩
        | refused x => exact .inr (.inl ⟨x, by simp [hr, ho, hf]⟩)
    · exact .inl (by simp [hr])

/-- A move other than `execute` always answers a next state. -/
theorem stepWith_environment {m : Move} (h : ∀ p, m ≠ .execute p) (s : State) :
    stepWith m s = .next (environment m s.tick) := by
  cases m <;> first | rfl | exact absurd rfl (h _)

end Sys2Proof.Machine
end

