-- ==== Sys2Proof/Laws/Memory.lean ====
section
/-! SUPPORT. Memory: a read after a write, and that every memory operation keeps the canonical form. -/

namespace Sys2Proof.Machine

/-- A read at the address written gives the byte written; elsewhere what was there (for every list,
canonical or not). -/
theorem readByte_writeByte (m : Memory) (a b : Nat) (v : Byte) :
    readByte (writeByte m a v) b = if b = a then some v else readByte m b := by
  induction m with
  | nil => simp [writeByte, readByte]
  | cons c m ih =>
    obtain ⟨k, u⟩ := c
    simp only [writeByte]
    by_cases h1 : a < k
    · simp [h1, readByte]
    · by_cases h2 : a = k
      · subst h2
        by_cases hb : b = a <;> simp [readByte, hb]
      · simp only [h1, if_false, h2, readByte, ih]
        by_cases hk : b = k
        · simp [hk, Ne.symm h2]
        · simp [hk]

/-- Writing inside the address space at or above the bound keeps the list rising. -/
theorem risingFrom_writeByte (m : Memory) (low a : Nat) (v : Byte) (ha : a < addressTop)
    (hl : low ≤ a) (h : risingFrom low m = true) : risingFrom low (writeByte m a v) = true := by
  induction m generalizing low with
  | nil => simp [writeByte, risingFrom, ha, hl]
  | cons c m ih =>
    obtain ⟨k, u⟩ := c
    simp only [risingFrom, Bool.and_eq_true, decide_eq_true_eq] at h
    obtain ⟨⟨h1, h2⟩, h3⟩ := h
    simp only [writeByte]
    by_cases c1 : a < k
    · simp only [c1, if_true, risingFrom, Bool.and_eq_true, decide_eq_true_eq]
      exact ⟨⟨hl, ha⟩, ⟨by omega, h2⟩, h3⟩
    · by_cases c2 : a = k
      · simp only [c2, lt_irrefl, if_false, if_true, risingFrom, Bool.and_eq_true,
          decide_eq_true_eq]
        exact ⟨⟨h1, h2⟩, h3⟩
      · simp only [c1, c2, if_false, risingFrom, Bool.and_eq_true, decide_eq_true_eq]
        exact ⟨⟨h1, h2⟩, ih (k + 1) (by omega) h3⟩

/-- A write inside the address space keeps memory canonical. -/
theorem writeByte_wf (m : Memory) (a : Nat) (v : Byte) (ha : a < addressTop)
    (h : m.wf = true) : (writeByte m a v).wf = true :=
  risingFrom_writeByte m 0 a v ha (Nat.zero_le a) h

/-- Writing several bytes inside the address space keeps memory canonical. -/
theorem writeBytes_wf (vs : List Byte) : ∀ (m : Memory) (a : Nat), a + vs.length ≤ addressTop →
    m.wf = true → (writeBytes m a vs).wf = true := by
  induction vs with
  | nil => intro m a _ h; exact h
  | cons v vs ih =>
    intro m a ha h
    simp only [List.length_cons] at ha
    exact ih _ _ (by omega) (writeByte_wf m a v (by omega) h)

/-- An access reaching memory keeps it canonical: a store's address is a 32-bit word. -/
theorem performAccess_wf (m : Memory) (a : Access) (h : m.wf = true) :
    (performAccess m a).wf = true := by
  cases a with
  | load a => exact h
  | store a v => exact writeByte_wf m a.toNat v a.isLt h

/-- Memory after reset is canonical. -/
theorem reset_mem_wf : State.reset.mem.wf = true := rfl

end Sys2Proof.Machine
end

