-- ==== Sys2Proof/Laws/Moves.lean ====
section
/-! SUPPORT. What one move does to one PE, said once, and what it does to the rest of the system. -/

namespace Sys2Proof.Machine

/-- What a move of the environment does to PE `p`, by its number and what it holds. -/
def moveOnPe (m : Move) (s : State) (p : Nat) (pe : Pe) : Pe :=
  match m with
  | .execute _ => pe
  | .deliver q => if p = q then pe.performDelivery else pe
  | .timerStreamEvent q => if p = q then pe.receiveEvent else pe
  | .implEvent q => if p = q then pe.receiveEvent else pe
  | .globalMonitorCleared q => if p = q then pe.clearMonitor s.params else pe
  | .implWfiEvent q => if p = q then pe.noteWfiEvent else pe
  | .setInputs q i => if p = q then pe.changeInputs s.params i else pe
  | .resume q => if p = q then pe.resume { draw := s.draws, pe := q } else pe
  | .reset q => if p = q then pe.reset { draw := s.draws, pe := q } else pe
  | .hostStep q ctx => if p = q then pe.hostInstruction s fun x => { x with ctx := ctx } else pe
  | .exceptionReturn q ctx => if p = q then pe.hostInstruction s (exceptionReturn ctx) else pe
  | .enterException q ctx => if p = q then pe.ifRunning fun x => { x with ctx := ctx } else pe
  | .issueAccess q a => if p = q then pe.hostInstruction s (Pe.issueAccess a) else pe
  | .completeAccess q k => if p = q then { pe with accesses := pe.accesses.eraseIdx k } else pe
  | .holdMonitor q => if p = q then pe.hostInstruction s fun x => { x with monitor := true } else pe
  | .debugWrite q reg v => if p = q then pe.debugWrite s.params reg v else pe
  | .signalIdle q => if p = q then pe.signalIdle s.params else pe

/-- A PE looked up after a change of PE `q`. -/
theorem modifyPe_get (s : State) (q p : Nat) (f : Pe → Pe) :
    (s.modifyPe q f).pes[p]? = (s.pes[p]?).map fun pe => if p = q then f pe else pe := by
  by_cases h : p = q
  · subst h; simp
  · simp [h, modifyPe_other s q p f h]

/-- What a move of the environment does to a PE. -/
theorem environment_get (m : Move) {s : State} {p : Nat} {pe : Pe} (hp : s.pes[p]? = some pe) :
    (environment m s).pes[p]? = some (moveOnPe m s p pe) := by
  cases m with
  | execute q => exact hp
  | issueAccess q a =>
    by_cases h : p = q
    · subst h
      cases hr : runsHostInstruction s pe <;>
        simp [environment, moveOnPe, issueAccess, hp, hr, Pe.hostInstruction]
    · simp only [environment, moveOnPe, issueAccess, h, if_false]
      split
      · simpa [modifyPe_get, h] using hp
      · exact hp
  | completeAccess q k =>
    by_cases h : p = q
    · subst h
      cases hk : pe.accesses[k]? with
      | none =>
        have : pe.accesses.eraseIdx k = pe.accesses :=
          List.eraseIdx_of_length_le (List.getElem?_eq_none_iff.mp hk)
        simp [environment, moveOnPe, completeAccess, hp, hk, this]
      | some a => simp [environment, moveOnPe, completeAccess, hp, hk]
    · simp only [environment, moveOnPe, completeAccess, h, if_false]
      split
      · exact hp
      · simpa [modifyPe_get, h] using hp
  | _ => simp [environment, moveOnPe, modifyPe_get, hp]

/-- A move of the environment keeps how many PEs there are. -/
theorem environment_length (m : Move) (s : State) :
    (environment m s).pes.length = s.pes.length := by
  cases m <;> simp [environment, issueAccess, completeAccess]
  · split <;> simp
  · split <;> simp

/-- A move of the environment leaves the configuration and the executing PE's number. -/
theorem environment_params (m : Move) (s : State) :
    (environment m s).params = s.params ∧ (environment m s).cur = s.cur := by
  cases m <;> simp [environment, issueAccess, completeAccess]
  · split <;> simp
  · split <;> simp

/-- What a move of the environment does to memory: nothing, or a completed access. -/
theorem environment_mem (m : Move) (s : State) :
    (environment m s).mem = s.mem
    ∨ ∃ p k pe a, m = .completeAccess p k ∧ s.pes[p]? = some pe ∧ pe.accesses[k]? = some a
        ∧ (environment m s).mem = performAccess s.mem a := by
  cases m with
  | completeAccess p k =>
    simp only [environment, completeAccess]
    cases hp : s.pes[p]? with
    | none => simp
    | some pe =>
      cases hk : pe.accesses[k]? with
      | none => simp [hk]
      | some a => exact .inr ⟨p, k, pe, a, rfl, hp, hk, by simp [hk]⟩
  | issueAccess p a =>
    left
    simp only [environment, issueAccess]
    split <;> rfl
  | _ => exact .inl rfl

/-- What a move of the environment does to the written addresses: nothing, or a store is issued. -/
theorem environment_written (m : Move) (s : State) :
    (environment m s).written = s.written
    ∨ ∃ p a, m = .issueAccess p a ∧ (environment m s).written = noteWritten s.written a := by
  cases m with
  | issueAccess p a =>
    simp only [environment, issueAccess]
    split
    · exact .inr ⟨p, a, rfl, rfl⟩
    · exact .inl rfl
  | completeAccess p k =>
    left
    simp only [environment, completeAccess]
    split <;> rfl
  | _ => exact .inl rfl

/-- What an instruction does to PE `p`, the executing PE being `s.cur` and holding `pe`. -/
theorem exec_get {i : Instr} {s t : State} (h : exec i s = .next t) :
    ∃ me, s.pes[s.cur]? = some me ∧
      (t = s ∨
        (me.run = .running ∧ i.wellFormed = true ∧
          ((conditionPassed (instrForm i) me.ctx = false
              ∧ t = s.modifyPe s.cur fun q => q.complete (instrForm i).len)
            ∨ (conditionPassed (instrForm i) me.ctx = true ∧ t = instrEffect i s me)))) := by
  cases hw : i.wellFormed with
  | false =>
    obtain ⟨o, -, -, e⟩ := exec_refused hw s
    simp [e] at h
  | true =>
    rw [exec_eq hw] at h
    rcases executeHint_cases (instrForm i) (instrEffect i) s with
      ⟨-, e⟩ | ⟨me, hm, ⟨-, e⟩ | ⟨hr, hc, e⟩ | ⟨hr, hc, e⟩⟩
    · simp [e] at h
    · rw [e] at h
      exact ⟨me, hm, .inl (by injection h with h; exact h.symm)⟩
    · rw [e] at h
      exact ⟨me, hm, .inr ⟨hr, rfl, .inl ⟨hc, by injection h with h; exact h.symm⟩⟩⟩
    · rw [e] at h
      exact ⟨me, hm, .inr ⟨hr, rfl, .inr ⟨hc, by injection h with h; exact h.symm⟩⟩⟩

/-- The outside of an instruction: it changes PEs only. -/
theorem instrEffect_system (i : Instr) (s : State) (me : Pe) :
    (instrEffect i s me).params = s.params ∧ (instrEffect i s me).cur = s.cur
      ∧ (instrEffect i s me).mem = s.mem ∧ (instrEffect i s me).written = s.written
      ∧ (instrEffect i s me).agenda = s.agenda ∧ (instrEffect i s me).draws = s.draws
      ∧ (instrEffect i s me).pes.length = s.pes.length := by
  unfold instrEffect
  cases instrOp i <;> simp [wfe, wfi, sev, sevl, dsb]
  split <;> simp

/-- A next state of `exec` differs in its PEs only. -/
theorem exec_system {i : Instr} {s t : State} (h : exec i s = .next t) :
    t.params = s.params ∧ t.cur = s.cur ∧ t.mem = s.mem ∧ t.written = s.written
      ∧ t.agenda = s.agenda ∧ t.draws = s.draws ∧ t.pes.length = s.pes.length := by
  obtain ⟨me, -, rfl | ⟨-, -, ⟨-, rfl⟩ | ⟨-, rfl⟩⟩⟩ := exec_get h
  · simp
  · simp
  · exact instrEffect_system i s me

/-- What an instruction whose condition passes does to PE `p`, which holds `pe`. -/
def instrOnPe (i : Instr) (s : State) (p : Nat) (pe : Pe) : Pe :=
  match instrOp i with
  | .wfe => if p = s.cur then waitForEvent s.occasion s.params (instrForm i) pe else pe
  | .wfi => if p = s.cur then waitForInterrupt s.occasion s.params (instrForm i) pe else pe
  | .sev => if p = s.cur then pe.enqueueDelivery.complete (instrForm i).len else pe.enqueueDelivery
  | .sevl =>
    if p = s.cur then pe.setEventRegister.complete (instrForm i).len
    else if s.occasion.choose (.sevlSignals p) then pe.enqueueDelivery
    else pe
  | .dsb => if p = s.cur ∧ pe.accesses = [] then pe.complete (instrForm i).len else pe

/-- What an instruction does to a PE other than the executing one: nothing, or a delivery to it is put
in flight (R102, R111, R114). -/
theorem instrOnPe_other (i : Instr) (s : State) (p : Nat) (pe : Pe) (h : p ≠ s.cur) :
    instrOnPe i s p pe = pe
    ∨ ((instrOp i = .sev ∨ instrOp i = .sevl) ∧ instrOnPe i s p pe = pe.enqueueDelivery) := by
  unfold instrOnPe
  cases instrOp i with
  | wfe => simp [h]
  | wfi => simp [h]
  | sev => simp [h]
  | sevl =>
    by_cases hc : s.occasion.choose (.sevlSignals p) = true
    · exact .inr ⟨.inr rfl, by simp only [if_neg h, if_pos hc]⟩
    · exact .inl (by simp only [if_neg h, if_neg hc])
  | dsb => simp [h]

/-- What an instruction does to the executing PE, by what it is an encoding of. -/
theorem instrOnPe_cur (i : Instr) (s : State) (pe : Pe) :
    instrOnPe i s s.cur pe =
      match instrOp i with
      | .wfe => waitForEvent s.occasion s.params (instrForm i) pe
      | .wfi => waitForInterrupt s.occasion s.params (instrForm i) pe
      | .sev => pe.enqueueDelivery.complete (instrForm i).len
      | .sevl => pe.setEventRegister.complete (instrForm i).len
      | .dsb => if pe.accesses = [] then pe.complete (instrForm i).len else pe := by
  unfold instrOnPe
  cases instrOp i <;> simp

/-- The operation of an instruction, PE by PE. -/
theorem instrEffect_get (i : Instr) {s : State} {me : Pe} (hm : s.pes[s.cur]? = some me) {p : Nat}
    {pe : Pe} (hp : s.pes[p]? = some pe) :
    (instrEffect i s me).pes[p]? = some (instrOnPe i s p pe) := by
  unfold instrEffect instrOnPe
  cases instrOp i with
  | wfe => simp [wfe, modifyPe_get, hp]
  | wfi => simp [wfi, modifyPe_get, hp]
  | sev =>
    by_cases h : p = s.cur
    · subst h; simp [sev, hp]
    · simp [sev, modifyPe_get, hp, h]
  | sevl => simp [sevl, hp]
  | dsb =>
    by_cases h : p = s.cur
    · subst h
      obtain rfl : me = pe := by simpa [hm] using hp
      cases ha : me.accesses with
      | nil => simp [dsb, hm, ha]
      | cons a as => simp [dsb, hm, ha]
    · simp only [dsb, h, false_and, if_false]
      split
      · simpa [modifyPe_get, h] using hp
      · exact hp

/-- The fetch reads memory and the written addresses only. -/
theorem fetch_tick (s : State) (pe : Pe) : fetch s.tick pe = fetch s pe := rfl

/-- Everything a step with a given move can do to a PE: a move of the environment; no change; or PE
`q` takes another exception, or runs the instruction it fetches. -/
theorem stepWith_get {m : Move} {s t : State} {p : Nat} {pe : Pe} (h : stepWith m s = .next t)
    (hp : s.pes[p]? = some pe) :
    ((∀ q, m ≠ .execute q) ∧ t = environment m s.tick
        ∧ t.pes[p]? = some (moveOnPe m s.tick p pe))
    ∨ ∃ q, m = .execute q ∧ (t.pes[p]? = some pe
        ∨ ∃ me, s.pes[q]? = some me ∧ me.run = .running ∧
          ((me.inputs.otherException = true ∧ t.pes[p]? = some
              (if p = q then takeOtherException { draw := s.draws + 1, pe := q } pe else pe))
            ∨ (me.inputs.otherException = false ∧ ∃ i, fetch s me = .instr i ∧ i.wellFormed = true ∧
              ((conditionPassed (instrForm i) me.ctx = false
                  ∧ t.pes[p]? = some (if p = q then pe.complete (instrForm i).len else pe))
                ∨ (conditionPassed (instrForm i) me.ctx = true
                  ∧ t.pes[p]? = some (instrOnPe i { s.tick with cur := q } p pe)))))) := by
  by_cases hm : ∀ q, m ≠ .execute q
  · left
    rw [stepWith_environment hm] at h
    injection h with h
    subst h
    exact ⟨hm, rfl, environment_get m hp⟩
  · right
    push Not at hm
    obtain ⟨q, rfl⟩ := hm
    refine ⟨q, rfl, ?_⟩
    change executeOn q s.tick = .next t at h
    rcases executeOn_cases q s.tick with e | ⟨me, hme, hr, ⟨ho, e⟩ | ⟨ho, ⟨x, e⟩ | ⟨x, e⟩ | ⟨i, hf, e⟩⟩⟩
    · rw [e] at h
      injection h with h
      subst h
      exact .inl hp
    · rw [e] at h
      injection h with h
      subst h
      refine .inr ⟨me, hme, hr, .inl ⟨ho, ?_⟩⟩
      simp [modifyPe_get, hp]
    · simp [e] at h
    · simp [e] at h
    · rw [e] at h
      obtain ⟨me', hme', hcase⟩ := exec_get h
      obtain rfl : me = me' := Option.some.inj (hme.symm.trans hme')
      rcases hcase with rfl | ⟨-, hw, ⟨hc, rfl⟩ | ⟨hc, rfl⟩⟩
      · exact .inl hp
      · refine .inr ⟨me, hme, hr, .inr ⟨ho, i, hf, hw, .inl ⟨hc, ?_⟩⟩⟩
        simp [modifyPe_get, hp]
      · exact .inr ⟨me, hme, hr, .inr ⟨ho, i, hf, hw, .inr ⟨hc, instrEffect_get i hme' hp⟩⟩⟩

/-- Everything a step with a given move does outside the PEs. -/
theorem stepWith_system {m : Move} {s t : State} (h : stepWith m s = .next t) :
    t.params = s.params ∧ t.pes.length = s.pes.length
      ∧ ((∀ q, m ≠ .execute q) ∧ t = environment m s.tick
        ∨ (∃ q, m = .execute q ∧ (t.cur = s.cur ∨ (t.cur = q ∧ q < s.pes.length)))
          ∧ t.mem = s.mem ∧ t.written = s.written) := by
  by_cases hm : ∀ q, m ≠ .execute q
  · rw [stepWith_environment hm] at h
    injection h with h
    subst h
    exact ⟨(environment_params m s.tick).1, environment_length m s.tick, .inl ⟨hm, rfl⟩⟩
  · push Not at hm
    obtain ⟨q, rfl⟩ := hm
    change executeOn q s.tick = .next t at h
    rcases executeOn_cases q s.tick with e | ⟨me, hme, hr, ⟨ho, e⟩ | ⟨ho, ⟨x, e⟩ | ⟨x, e⟩ | ⟨i, hf, e⟩⟩⟩
    · rw [e] at h
      injection h with h
      subst h
      exact ⟨rfl, rfl, .inr ⟨⟨q, rfl, .inl rfl⟩, rfl, rfl⟩⟩
    · rw [e] at h
      injection h with h
      subst h
      exact ⟨rfl, by simp, .inr ⟨⟨q, rfl, .inl rfl⟩, rfl, rfl⟩⟩
    · simp [e] at h
    · simp [e] at h
    · rw [e] at h
      obtain ⟨h1, h2, h3, h4, -, -, h5⟩ := exec_system h
      have hq : q < s.pes.length := by
        obtain ⟨hlt, -⟩ := List.getElem?_eq_some_iff.mp hme
        exact hlt
      exact ⟨h1, h5, .inr ⟨⟨q, rfl, .inr ⟨h2, hq⟩⟩, h3, h4⟩⟩

end Sys2Proof.Machine
end

