-- ==== Sys2Proof/Laws/Agents.lean ====
section
/-! SUPPORT. What a move of the environment can do to each field of a PE, said once. -/

namespace Sys2Proof.Machine

/-- An instruction outside this spec runs in a Running PE only. -/
theorem runsHostInstruction_running {s : State} {pe : Pe} (h : runsHostInstruction s pe = true) :
    pe.run = .running := by
  unfold runsHostInstruction at h
  cases hr : pe.run <;> simp_all

/-- Where an instruction of this spec is fetched, no other instruction runs. -/
theorem runsHostInstruction_fetch {s : State} {pe : Pe} {i : Instr} (h : fetch s pe = .instr i) :
    runsHostInstruction s pe = false := by
  unfold runsHostInstruction
  cases pe.run <;> simp [h, Fetched.canBeHost]

/-- No instruction outside this spec runs where a fetch is refused for bytes a PE has written (R45). -/
theorem runsHostInstruction_selfModifying {s : State} {pe : Pe}
    (h : fetch s pe = .refused .selfModifyingCode) : runsHostInstruction s pe = false := by
  unfold runsHostInstruction
  cases pe.run <;> simp [h, Fetched.canBeHost, fetch_selfModifying h]

theorem hostInstruction_cases (s : State) (f : Pe → Pe) (pe : Pe) :
    pe.hostInstruction s f = pe
    ∨ (runsHostInstruction s pe = true ∧ pe.run = .running ∧ pe.hostInstruction s f = f pe) := by
  unfold Pe.hostInstruction
  cases h : runsHostInstruction s pe with
  | false => exact .inl rfl
  | true => exact .inr ⟨rfl, runsHostInstruction_running h, rfl⟩

theorem ifRunning_cases (f : Pe → Pe) (pe : Pe) :
    (pe.run ≠ .running ∧ pe.ifRunning f = pe) ∨ (pe.run = .running ∧ pe.ifRunning f = f pe) := by
  unfold Pe.ifRunning
  cases pe.run <;> simp

/-- Noting a WFE wakeup event changes the latch only, and sets it. -/
theorem noteWfeEvent_eq (pe : Pe) :
    pe.noteWfeEvent = { pe with wakereq := match pe.run with
      | .suspendedWfe _ => true
      | _ => pe.wakereq } := by
  obtain ⟨er, run, wakereq, sevq, inputs, ctx, monitor, accesses, trap, idle, hostReset⟩ := pe
  cases run <;> rfl

/-- Noting a WFI wakeup event changes the latch only, and sets it. -/
theorem noteWfiEvent_eq (pe : Pe) :
    pe.noteWfiEvent = { pe with wakereq := match pe.run with
      | .suspendedWfi _ => true
      | _ => pe.wakereq } := by
  obtain ⟨er, run, wakereq, sevq, inputs, ctx, monitor, accesses, trap, idle, hostReset⟩ := pe
  cases run <;> rfl

/-- Noting the levels changes the latch only. -/
theorem noteLevels_eq (pr : Params) (pe : Pe) :
    Pe.noteLevels pr pe = { pe with wakereq := match pe.run with
      | .suspendedWfe _ => pe.wakereq || wfeWakeupPending pr pe
      | .suspendedWfi _ => pe.wakereq || wfiWakeupPending pe
      | _ => pe.wakereq } := by
  obtain ⟨er, run, wakereq, sevq, inputs, ctx, monitor, accesses, trap, idle, hostReset⟩ := pe
  cases run with
  | running => rfl
  | poweredDown => rfl
  | suspendedWfe len =>
    simp only [Pe.noteLevels]
    split <;> rename_i h
    · simp [h]
    · simp [Bool.eq_false_iff.mpr h]
  | suspendedWfi len =>
    simp only [Pe.noteLevels]
    split <;> rename_i h
    · simp [h]
    · simp [Bool.eq_false_iff.mpr h]

/-- Changing the inputs changes the inputs, the latch and the idle signal only. -/
theorem changeInputs_eq (pr : Params) (i : Inputs) (pe : Pe) :
    Pe.changeInputs pr i pe = { pe with
      inputs := i
      wakereq := pe.wakereq || wakeInputsDiffer i pe.inputs && (match pe.run with
        | .suspendedWfe _ => wfeWakeupPending pr { pe with inputs := i }
        | .suspendedWfi _ => wfiWakeupPending { pe with inputs := i }
        | _ => false)
      idle := pe.idle && idleAllowed pr { pe with inputs := i } } := by
  unfold Pe.changeInputs
  cases wakeInputsDiffer i pe.inputs with
  | false => simp [Pe.settleIdle]
  | true =>
    cases h : pe.run <;> simp [noteLevels_eq, Pe.settleIdle, idleAllowed]

/-- Performing a delivery. -/
theorem performDelivery_eq (pe : Pe) (h : 0 < pe.sevq) :
    pe.performDelivery = { pe with
      sevq := pe.sevq - 1
      er := true
      wakereq := match pe.run with
        | .suspendedWfe _ => true
        | _ => pe.wakereq } := by
  have : pe.sevq ≠ 0 := by omega
  simp [Pe.performDelivery, this, Pe.receiveEvent, noteWfeEvent_eq, Pe.setEventRegister]

/-- A resume step that finds the PE suspended in `WFE`. -/
theorem resume_wfe (o : Occasion) (pe : Pe) (len : Nat) (h : pe.run = .suspendedWfe len) :
    Pe.resume o pe = { pe with
      er := if o.choose .restartClears then false else pe.er
      run := .running
      wakereq := false
      idle := false
      ctx := { pe.ctx with pc := advancePc pe.ctx.pc len } } := by
  simp only [Pe.resume, h]
  split <;> rfl

/-- A resume step that finds the PE suspended in `WFI`. -/
theorem resume_wfi (o : Occasion) (pe : Pe) (len : Nat) (h : pe.run = .suspendedWfi len) :
    Pe.resume o pe = { pe with
      run := .running
      wakereq := false
      idle := false
      ctx := { pe.ctx with pc := advancePc pe.ctx.pc len } } := by
  simp only [Pe.resume, h]
  rfl

/-- A resume step that finds the PE not suspended. -/
theorem resume_other (o : Occasion) (pe : Pe)
    (h : pe.run = .running ∨ pe.run = .poweredDown) : Pe.resume o pe = pe := by
  rcases h with h | h <;> simp [Pe.resume, h]

/-- A move reaches the PE it names only. -/
theorem moveOnPe_other (m : Move) (s : State) (p : Nat) (pe : Pe) (h : m.target ≠ p) :
    moveOnPe m s p pe = pe := by
  cases m <;> first | rfl | exact if_neg fun e => h e.symm

/-- A PE that is not Running is changed by a delivery, an event, its inputs, a resume step, a reset, an
access that completes, its debug registers and the idle signal only; each is listed with what it does
to the run state, the Event Register, the latch and the deliveries in flight. -/
theorem moveOnPe_suspended (m : Move) (s : State) (p : Nat) (pe : Pe) (h : pe.run ≠ .running)
    (hres : m ≠ .resume p) (hrst : m ≠ .reset p) :
    (moveOnPe m s p pe).run = pe.run
      ∧ (pe.er = true → (moveOnPe m s p pe).er = true)
      ∧ (pe.wakereq = true → (moveOnPe m s p pe).wakereq = true)
      ∧ (m ≠ .deliver p → (moveOnPe m s p pe).sevq = pe.sevq)
      ∧ ((∀ reg v, m ≠ .debugWrite p reg v) → (moveOnPe m s p pe).ctx = pe.ctx) := by
  by_cases ht : m.target = p
  · subst ht
    have hi : ∀ f, pe.ifRunning f = pe := fun f =>
      (ifRunning_cases f pe).elim (·.2) fun e => absurd e.1 h
    have hh : ∀ f, pe.hostInstruction s f = pe := fun f =>
      (hostInstruction_cases s f pe).elim id fun e => absurd e.2.1 h
    cases m with
    | execute q => exact ⟨rfl, id, id, fun _ => rfl, fun _ => rfl⟩
    | deliver q =>
      simp only [moveOnPe, Move.target, if_true]
      by_cases hq : pe.sevq = 0
      · simp [Pe.performDelivery, hq]
      · rw [performDelivery_eq pe (by omega)]
        refine ⟨rfl, fun _ => rfl, ?_, fun e => absurd rfl e, fun _ => rfl⟩
        intro hw
        show (match pe.run with | .suspendedWfe _ => true | _ => pe.wakereq) = true
        split <;> simp_all
    | timerStreamEvent q =>
      simp only [moveOnPe, Move.target, if_true, Pe.receiveEvent, noteWfeEvent_eq]
      refine ⟨rfl, fun _ => rfl, ?_, fun _ => rfl, fun _ => rfl⟩
      intro hw
      split <;> simp_all
    | implEvent q =>
      simp only [moveOnPe, Move.target, if_true, Pe.receiveEvent, noteWfeEvent_eq]
      refine ⟨rfl, fun _ => rfl, ?_, fun _ => rfl, fun _ => rfl⟩
      intro hw
      split <;> simp_all
    | globalMonitorCleared q =>
      simp only [moveOnPe, Move.target, if_true, Pe.clearMonitor, noteWfeEvent_eq]
      refine ⟨trivial, by intro he; simp [he], ?_, fun _ => trivial, fun _ => trivial⟩
      intro hw
      split <;> simp_all
    | implWfiEvent q =>
      simp only [moveOnPe, Move.target, if_true, noteWfiEvent_eq]
      refine ⟨trivial, id, ?_, fun _ => trivial, fun _ => trivial⟩
      intro hw
      split <;> simp_all
    | setInputs q i =>
      simp only [moveOnPe, Move.target, if_true]
      rw [changeInputs_eq]
      exact ⟨rfl, id, fun hw => by simp [hw], fun _ => rfl, fun _ => rfl⟩
    | resume q => exact absurd rfl hres
    | reset q => exact absurd rfl hrst
    | hostStep q c => simp [moveOnPe, Move.target, hh]
    | exceptionReturn q c => simp [moveOnPe, Move.target, hh]
    | enterException q c => simp [moveOnPe, Move.target, hi]
    | issueAccess q a => simp [moveOnPe, Move.target, hh]
    | completeAccess q k => simp [moveOnPe, Move.target]
    | holdMonitor q => simp [moveOnPe, Move.target, hh]
    | debugWrite q reg v => cases reg <;> simp [moveOnPe, Move.target, Pe.debugWrite, Pe.settleIdle]
    | signalIdle q =>
      simp only [moveOnPe, Move.target, if_true]
      cases hr : pe.run <;> simp [Pe.signalIdle, hr]
  · rw [moveOnPe_other m s p pe ht]
    exact ⟨rfl, id, id, fun _ => rfl, fun _ => rfl⟩

/-- A Running PE whose next instruction is of this spec is changed by the environment in its Event
Register, deliveries, inputs, accesses that complete, monitor and debug registers only, but for an
exception entered and a reset. -/
theorem moveOnPe_atInstr (m : Move) (s : State) (p : Nat) (pe : Pe) (i : Instr)
    (h : pe.run = .running) (hf : fetch s pe = .instr i) (hrst : m ≠ .reset p)
    (hexc : ∀ ctx, m ≠ .enterException p ctx) :
    (moveOnPe m s p pe).run = .running ∧ (moveOnPe m s p pe).ctx.pc = pe.ctx.pc
      ∧ (pe.er = true → (moveOnPe m s p pe).er = true)
      ∧ ((moveOnPe m s p pe).accesses = pe.accesses
        ∨ ∃ k, m = .completeAccess p k
          ∧ (moveOnPe m s p pe).accesses = pe.accesses.eraseIdx k) := by
  by_cases ht : m.target = p
  · subst ht
    have hh : ∀ f, pe.hostInstruction s f = pe := fun f => by
      simp [Pe.hostInstruction, runsHostInstruction_fetch hf]
    cases m with
    | deliver q =>
      simp only [moveOnPe, Move.target, if_true]
      by_cases hq : pe.sevq = 0
      · simp [Pe.performDelivery, hq, h]
      · rw [performDelivery_eq pe (by omega)]
        exact ⟨h, rfl, fun _ => rfl, .inl rfl⟩
    | timerStreamEvent q =>
      simp [moveOnPe, Move.target, Pe.receiveEvent, noteWfeEvent_eq, h]
    | implEvent q => simp [moveOnPe, Move.target, Pe.receiveEvent, noteWfeEvent_eq, h]
    | globalMonitorCleared q =>
      simp +contextual [moveOnPe, Move.target, Pe.clearMonitor, noteWfeEvent_eq, h]
    | implWfiEvent q => simp [moveOnPe, Move.target, noteWfiEvent_eq, h]
    | setInputs q x =>
      simp only [moveOnPe, Move.target, if_true]
      rw [changeInputs_eq]
      exact ⟨h, rfl, id, .inl rfl⟩
    | resume q =>
      simp only [moveOnPe, Move.target, if_true]
      rw [resume_other _ _ (.inl h)]
      exact ⟨h, rfl, id, .inl rfl⟩
    | reset q => exact absurd rfl hrst
    | enterException q c => exact absurd rfl (hexc c)
    | completeAccess q k => simp [moveOnPe, Move.target, h]
    | debugWrite q reg v =>
      cases reg <;> simp [moveOnPe, Move.target, Pe.debugWrite, Pe.settleIdle, h]
    | signalIdle q => simp [moveOnPe, Move.target, Pe.signalIdle, h]
    | execute q => exact ⟨h, rfl, id, .inl rfl⟩
    | hostStep q c => simp [moveOnPe, Move.target, hh, h]
    | exceptionReturn q c => simp [moveOnPe, Move.target, hh, h]
    | issueAccess q a => simp [moveOnPe, Move.target, hh, h]
    | holdMonitor q => simp [moveOnPe, Move.target, hh, h]
  · rw [moveOnPe_other m s p pe ht]
    exact ⟨h, rfl, id, .inl rfl⟩

/-- A Running PE stays Running under every move of the environment (R28, R74, R132: only its own step
suspends it). -/
theorem moveOnPe_running (m : Move) (s : State) (p : Nat) (pe : Pe) (h : pe.run = .running) :
    (moveOnPe m s p pe).run = .running := by
  by_cases ht : m.target = p
  · subst ht
    have hh : ∀ f : Pe → Pe, (f pe).run = .running → (pe.hostInstruction s f).run = .running := by
      intro f hf
      rcases hostInstruction_cases s f pe with e | ⟨-, -, e⟩ <;> simp [e, hf, h]
    have hi : ∀ f : Pe → Pe, (f pe).run = .running → (pe.ifRunning f).run = .running := by
      intro f hf
      rcases ifRunning_cases f pe with ⟨-, e⟩ | ⟨-, e⟩ <;> simp [e, hf, h]
    cases m with
    | deliver q =>
      simp only [moveOnPe, Move.target, if_true]
      by_cases hq : pe.sevq = 0
      · simp [Pe.performDelivery, hq, h]
      · rw [performDelivery_eq pe (by omega)]
        exact h
    | timerStreamEvent q => simp [moveOnPe, Move.target, Pe.receiveEvent, noteWfeEvent_eq, h]
    | implEvent q => simp [moveOnPe, Move.target, Pe.receiveEvent, noteWfeEvent_eq, h]
    | globalMonitorCleared q => simp [moveOnPe, Move.target, Pe.clearMonitor, noteWfeEvent_eq, h]
    | implWfiEvent q => simp [moveOnPe, Move.target, noteWfiEvent_eq, h]
    | setInputs q x =>
      simp only [moveOnPe, Move.target, if_true]
      rw [changeInputs_eq]
      exact h
    | resume q =>
      simp only [moveOnPe, Move.target, if_true]
      rw [resume_other _ _ (.inl h)]
      exact h
    | reset q => simp [moveOnPe, Move.target, Pe.reset]
    | completeAccess q k => simp [moveOnPe, Move.target, h]
    | debugWrite q reg v =>
      cases reg <;> simp [moveOnPe, Move.target, Pe.debugWrite, Pe.settleIdle, h]
    | signalIdle q => simp [moveOnPe, Move.target, Pe.signalIdle, h]
    | execute q => exact h
    | hostStep q c => simpa only [moveOnPe, Move.target, if_true] using hh _ h
    | exceptionReturn q c => simpa only [moveOnPe, Move.target, if_true] using hh _ h
    | enterException q c => simpa only [moveOnPe, Move.target, if_true] using hi _ h
    | issueAccess q a => simpa only [moveOnPe, Move.target, if_true] using hh _ h
    | holdMonitor q => simpa only [moveOnPe, Move.target, if_true] using hh _ h
  · rw [moveOnPe_other m s p pe ht]
    exact h

end Sys2Proof.Machine
end

