-- ==== Sys2Proof/Laws/Encoding.lean ====
section
/-! SUPPORT. Words and their bytes: cutting a word into bytes and putting it together are inverse (R40). -/

namespace Sys2Proof

theorem wordOf_wordBytes (w : Word) :
    wordOf (w.extractLsb' 0 8) (w.extractLsb' 8 8) (w.extractLsb' 16 8) (w.extractLsb' 24 8) = w := by
  apply BitVec.eq_of_getLsbD_eq
  intro i hi
  simp only [wordOf, BitVec.getLsbD_append, BitVec.getLsbD_extractLsb']
  rcases Nat.lt_or_ge i 8 with h | h
  · simp [h]
  rcases Nat.lt_or_ge i 16 with h2 | h2
  · simp [show ¬ i < 8 by omega, show i - 8 < 8 by omega, show 8 + (i - 8) = i by omega]
  rcases Nat.lt_or_ge i 24 with h3 | h3
  · simp [show ¬ i < 8 by omega, show ¬ i - 8 < 8 by omega, show i - 8 - 8 < 8 by omega,
      show 16 + (i - 8 - 8) = i by omega]
  · simp [show ¬ i < 8 by omega, show ¬ i - 8 < 8 by omega, show ¬ i - 8 - 8 < 8 by omega,
      show i - 8 - 8 - 8 < 8 by omega, show 24 + (i - 8 - 8 - 8) = i by omega]

theorem halfOf_halfBytes (h : Half) : halfOf (h.extractLsb' 0 8) (h.extractLsb' 8 8) = h := by
  apply BitVec.eq_of_getLsbD_eq
  intro i hi
  simp only [halfOf, BitVec.getLsbD_append, BitVec.getLsbD_extractLsb']
  rcases Nat.lt_or_ge i 8 with h1 | h1
  · simp [h1]
  · simp [show ¬ i < 8 by omega, show i - 8 < 8 by omega, show 8 + (i - 8) = i by omega]

theorem wordBytes_wordOf (b0 b1 b2 b3 : Byte) : wordBytes (wordOf b0 b1 b2 b3) = [b0, b1, b2, b3] := by
  simp only [wordBytes, List.cons.injEq, and_true]
  refine ⟨?_, ?_, ?_, ?_⟩ <;>
  · apply BitVec.eq_of_getLsbD_eq
    intro i hi
    simp only [wordOf, BitVec.getLsbD_extractLsb', BitVec.getLsbD_append, hi, decide_true,
      Bool.true_and]
    first
    | (rw [if_pos (by omega)]; congr 1; omega)
    | (rw [if_neg (by omega), if_pos (by omega)]; congr 1; omega)
    | (rw [if_neg (by omega), if_neg (by omega), if_pos (by omega)]; congr 1; omega)
    | (rw [if_neg (by omega), if_neg (by omega), if_neg (by omega)]; congr 1; omega)

theorem halfBytes_halfOf (b0 b1 : Byte) : halfBytes (halfOf b0 b1) = [b0, b1] := by
  simp only [halfBytes, List.cons.injEq, and_true]
  refine ⟨?_, ?_⟩ <;>
  · apply BitVec.eq_of_getLsbD_eq
    intro i hi
    simp only [halfOf, BitVec.getLsbD_extractLsb', BitVec.getLsbD_append, hi, decide_true,
      Bool.true_and]
    first
    | (rw [if_pos (by omega)]; congr 1; omega)
    | (rw [if_neg (by omega)]; congr 1; omega)

/-- The A32 decoder on the bytes of a word. -/
theorem decode_wordBytes (w : Word) (rest : List Byte) :
    decode .a32 (wordBytes w ++ rest) = (decodeA32 w).before rest := by
  change (decodeA32 (wordOf _ _ _ _)).before rest = _
  rw [wordOf_wordBytes]

/-- The T32 decoder on the bytes of a halfword that begins no 32-bit instruction. -/
theorem decode_halfBytes (h : Half) (rest : List Byte) (hw : t32Wide h = false) :
    decode .t32 (halfBytes h ++ rest) = (decodeT16 h).before rest := by
  change (if t32Wide (halfOf _ _) then _ else (decodeT16 (halfOf _ _)).before rest) = _
  rw [halfOf_halfBytes, hw]
  rfl

/-- The T32 decoder on the bytes of two halfwords, the first of which calls for the second (R54). -/
theorem decode_wideBytes (h1 h2 : Half) (rest : List Byte) (hw : t32Wide h1 = true) :
    decode .t32 (halfBytes h1 ++ halfBytes h2 ++ rest) = (decodeT32 h1 h2).before rest := by
  change (if t32Wide (halfOf _ _) then (decodeT32 (halfOf _ _) (halfOf _ _)).before rest
    else _) = _
  rw [halfOf_halfBytes, halfOf_halfBytes, hw]
  rfl

end Sys2Proof
end

