-- ==== Sys2Proof/Laws/Fields.lean ====
section
/-! SUPPORT. The small lemmas of the fields the rules read: the mode predicates as statements about the
mode, the masks one interrupt kind at a time, and the trap function control by control. -/

namespace Sys2Proof.Machine

theorem atEl0_iff (c : Context) : atEl0 c = true ↔ ∃ ns, c.pstate.mode = .low .user ns := by
  unfold atEl0
  cases c.pstate.mode with
  | low mode ns => cases mode <;> simp
  | hyp => simp
  | monitor => simp

theorem inMonitorMode_iff (c : Context) : inMonitorMode c = true ↔ c.pstate.mode = .monitor := by
  unfold inMonitorMode
  cases c.pstate.mode <;> simp

/-- Non-secure state outside Hyp mode is a mode both states have, in Non-secure state. -/
theorem virtualWakeups_iff (c : Context) :
    virtualWakeups c = true ↔ ∃ mode, c.pstate.mode = .low mode true := by
  unfold virtualWakeups nonSecure inHypMode
  cases c.pstate.mode <;> simp

theorem intdisMasks_irq (pe : Pe) (x : PerExc) :
    (intdisMasks pe x).irq = (x.irq && intdisActive pe) := by
  unfold intdisMasks
  cases intdisActive pe <;> simp [perExcAll]
theorem intdisMasks_fiq (pe : Pe) (x : PerExc) :
    (intdisMasks pe x).fiq = (x.fiq && intdisActive pe) := by
  unfold intdisMasks
  cases intdisActive pe <;> simp [perExcAll]
theorem intdisMasks_serror (pe : Pe) (x : PerExc) :
    (intdisMasks pe x).serror = (x.serror && intdisActive pe) := by
  unfold intdisMasks
  cases intdisActive pe <;> simp [perExcAll]

theorem physMaskEffective_irq (pr : Params) (pe : Pe) : (physMaskEffective pr pe).irq
    = (pe.inputs.maskEffective.irq || !(pr.haveEL2 || pr.haveEL3)) := by
  unfold physMaskEffective
  cases pr.haveEL2 || pr.haveEL3 <;> simp [perExcAll]
theorem physMaskEffective_fiq (pr : Params) (pe : Pe) : (physMaskEffective pr pe).fiq
    = (pe.inputs.maskEffective.fiq || !(pr.haveEL2 || pr.haveEL3)) := by
  unfold physMaskEffective
  cases pr.haveEL2 || pr.haveEL3 <;> simp [perExcAll]
theorem physMaskEffective_serror (pr : Params) (pe : Pe) : (physMaskEffective pr pe).serror
    = (pe.inputs.maskEffective.serror || !(pr.haveEL2 || pr.haveEL3)) := by
  unfold physMaskEffective
  cases pr.haveEL2 || pr.haveEL3 <;> simp [perExcAll]

/-- The condition of each control of the trap function (R165). -/
def trapControl (pr : Params) (kind : WaitKind) (c : Context) : TrapTarget → Bool
  | .el1Undefined => atEl0 c && !sctlrNoTrap kind c
  | .el2HypTrap => pr.haveEL2 && nonSecure c && !inHypMode c && hcrTrap kind c
  | .el3MonitorTrap => pr.haveEL3 && !inMonitorMode c && scrTrap kind c

/-- The trap function is the first control that applies (R165, R166). -/
theorem wfxTrap_cases (pr : Params) (kind : WaitKind) (c : Context) :
    (wfxTrap pr kind c = some .el1Undefined ∧ trapControl pr kind c .el1Undefined = true)
    ∨ (wfxTrap pr kind c = some .el2HypTrap ∧ trapControl pr kind c .el1Undefined = false
        ∧ trapControl pr kind c .el2HypTrap = true)
    ∨ (wfxTrap pr kind c = some .el3MonitorTrap ∧ trapControl pr kind c .el1Undefined = false
        ∧ trapControl pr kind c .el2HypTrap = false
        ∧ trapControl pr kind c .el3MonitorTrap = true)
    ∨ (wfxTrap pr kind c = none ∧ trapControl pr kind c .el1Undefined = false
        ∧ trapControl pr kind c .el2HypTrap = false
        ∧ trapControl pr kind c .el3MonitorTrap = false) := by
  unfold wfxTrap trapControl
  generalize (atEl0 c && !sctlrNoTrap kind c) = a
  generalize (pr.haveEL2 && nonSecure c && !inHypMode c && hcrTrap kind c) = b
  generalize (pr.haveEL3 && !inMonitorMode c && scrTrap kind c) = d
  cases a <;> cases b <;> cases d <;> simp

end Sys2Proof.Machine
end

