-- ==== Sys2Proof/Laws/PerInstr.lean ====
section
/-! SUPPORT. Statements made of every instruction, one lemma per constructor. -/

namespace Sys2Proof.Laws.EncodedLength

/-- The encoding of an instruction has as many bytes as its meaning moves the pc by (R25, R50). -/
def Statement (i : Sys2Proof.Instr) : Prop :=
  (Sys2Proof.encode i).length = (Sys2Proof.Machine.instrForm i).len

theorem wfeA1 (cond : Sys2Proof.Cond) : Statement (.wfeA1 cond) := rfl
theorem wfiA1 (cond : Sys2Proof.Cond) : Statement (.wfiA1 cond) := rfl
theorem sevA1 (cond : Sys2Proof.Cond) : Statement (.sevA1 cond) := rfl
theorem sevlA1 (cond : Sys2Proof.Cond) : Statement (.sevlA1 cond) := rfl
theorem wfeT1 : Statement .wfeT1 := rfl
theorem wfiT1 : Statement .wfiT1 := rfl
theorem sevT1 : Statement .sevT1 := rfl
theorem sevlT1 : Statement .sevlT1 := rfl
theorem wfeT2 : Statement .wfeT2 := rfl
theorem wfiT2 : Statement .wfiT2 := rfl
theorem sevT2 : Statement .sevT2 := rfl
theorem sevlT2 : Statement .sevlT2 := rfl
theorem dsbA1 (option : BitVec 4) : Statement (.dsbA1 option) := rfl
theorem dsbT1 (option : BitVec 4) : Statement (.dsbT1 option) := rfl

end Sys2Proof.Laws.EncodedLength
end

