-- ==== Sys2Proof/Tests/Slice0.lean ====
section
/-! SUPPORT. Tests on small concrete cases, their results taken from 95_test_vectors.md (the vector is
named in each comment) or worked out by hand from the rules. -/

namespace Sys2Proof.Tests

open Sys2Proof.Machine

/-! Well-formedness: the ill-formed terms of each check. -/

/-- R56: only `DSB SY` is admitted (E13). -/
theorem test_illFormed_dsbA1 : (Instr.dsbA1 0b1110#4).wellFormed = false := by decide
theorem test_illFormed_dsbT1 : (Instr.dsbT1 0b0000#4).wellFormed = false := by decide
theorem test_wellFormed_dsbSy : (Instr.dsbA1 0b1111#4).wellFormed = true := by decide
/-- R59: an A32 hint with condition field 1111 is no term of the syntax (E7). -/
theorem test_cond_1111 : condOfBits 0b1111#4 = none := by decide

/-! Decoding: every constructor by a word written out from 30_encoding.md. -/

/-- R51: cond 1110, 00110 0 10 0000, 1111, 0000, hint 00000010 (E1). -/
theorem test_decode_wfeA1 : decodeTableWord 32 0b11100011001000001111000000000010
    = some (.wfeA1 .al) := by decide
/-- R51, R55: cond 0001, hint 2: `WFENE` (E5). -/
theorem test_decode_wfeneA1 : decodeTableWord 32 0x1320F002 = some (.wfeA1 .ne) := by decide
/-- E2. -/
theorem test_decode_wfiA1 : decodeTableWord 32 0b11100011001000001111000000000011
    = some (.wfiA1 .al) := by decide
/-- E6: `SEVEQ`. -/
theorem test_decode_sevA1 : decodeTableWord 32 0b00000011001000001111000000000100
    = some (.sevA1 .eq) := by decide
/-- E4. -/
theorem test_decode_sevlA1 : decodeTableWord 32 0b11100011001000001111000000000101
    = some (.sevlA1 .al) := by decide
/-- R52: 10111111, hint 0010, 0000 (E15). -/
theorem test_decode_wfeT1 : decodeTableWord 16 0b1011111100100000 = some .wfeT1 := by decide
/-- E16. -/
theorem test_decode_wfiT1 : decodeTableWord 16 0b1011111100110000 = some .wfiT1 := by decide
/-- E17. -/
theorem test_decode_sevT1 : decodeTableWord 16 0b1011111101000000 = some .sevT1 := by decide
/-- E18. -/
theorem test_decode_sevlT1 : decodeTableWord 16 0b1011111101010000 = some .sevlT1 := by decide
/-- R53: 111100111010 1111, then 10 0 0 0 000 00000010 (E21). -/
theorem test_decode_wfeT2 : decodeTableWord 32 0b11110011101011111000000000000010
    = some .wfeT2 := by decide
/-- E22. -/
theorem test_decode_wfiT2 : decodeTableWord 32 0b11110011101011111000000000000011
    = some .wfiT2 := by decide
/-- E23. -/
theorem test_decode_sevT2 : decodeTableWord 32 0b11110011101011111000000000000100
    = some .sevT2 := by decide
/-- E24. -/
theorem test_decode_sevlT2 : decodeTableWord 32 0b11110011101011111000000000000101
    = some .sevlT2 := by decide
/-- R56: 111101010111 1111 1111 0000 0100 1111 (E12). -/
theorem test_decode_dsbA1 : decodeTableWord 32 0b11110101011111111111000001001111
    = some (.dsbA1 optionSy) := by decide
/-- R56: 111100111011 1111, then 10 0 0 1111 0100 1111 (E27). -/
theorem test_decode_dsbT1 : decodeTableWord 32 0b11110011101111111000111101001111
    = some (.dsbT1 optionSy) := by decide

/-- E7, E8, E9, E10, E11, E14: A32 words that are no instruction of this spec, each under its name. -/
theorem test_reject_a32 :
    decodeA32 0xF320F002#32 = .reject .unconditionalHint
      ∧ decodeA32 0xE320F000#32 = .reject (.otherHint 0)
      ∧ decodeA32 0xE320F001#32 = .reject (.otherHint 1)
      ∧ decodeA32 0xE320F006#32 = .reject (.otherHint 6)
      ∧ decodeA32 0xE320F102#32 = .reject .shouldBe
      ∧ decodeA32 0xE320E002#32 = .reject .shouldBe
      ∧ decodeA32 0xF57FF05F#32 = .reject .foreign
      ∧ decodeA32 0xF57FF06F#32 = .reject .foreign := by decide

/-- E19, E20, E25, E26: T32 halfwords that are no instruction of this spec. -/
theorem test_reject_t32 :
    decodeT16 0xBF00#16 = .reject (.otherHint 0)
      ∧ decodeT16 0xBF10#16 = .reject (.otherHint 1)
      ∧ decodeT16 0xBF21#16 = .reject .foreign
      ∧ decodeT32 0xF3AE#16 0x8002#16 = .reject .shouldBe
      ∧ decodeT32 0xF3AF#16 0xA002#16 = .reject .shouldBe := by decide

/-- E28: `0xBF20` then `0xF3AF` is a 16-bit `WFE`, then the first half of a 32-bit instruction. -/
theorem test_decode_lengths :
    decode .t32 [0x20#8, 0xBF#8, 0xAF#8, 0xF3#8] = .instr .wfeT1 [0xAF#8, 0xF3#8]
      ∧ decode .t32 [0xAF#8, 0xF3#8] = .reject .truncated := by decide

/-! Small states. -/

/-- No EL2, no EL3, and every open parameter false. -/
def plain : Params where
  haveEL2 := false
  haveEL3 := false
  haveDoubleLock := false
  separatePowerDomains := false
  gmClearSetsEr := false
  trapWhenWakeupPending := false

/-- A Running PE at 0x8000 with the Event Register clear and nothing pending. -/
def quiet : Pe where
  er := false
  run := .running
  wakereq := false
  sevq := 0
  inputs := inputsAtReset
  ctx := { contextAtReset with pc := 0x8000#32 }
  monitor := false
  accesses := []
  trap := none
  idle := false
  hostReset := contextAtReset

/-- The PE in a given run state. -/
def inRun (r : RunState) : Pe := { quiet with run := r }

/-- The PE with a physical IRQ pending. -/
def irqPending : Pe :=
  { quiet with inputs := { inputsAtReset with physical := { perExcAll false with irq := true } } }

/-- A system of the given PEs, PE 0 executing. -/
def system (pes : List Pe) : State where
  params := plain
  pes := pes
  cur := 0
  mem := []
  written := []
  agenda := []
  draws := 1

/-- A system with the given bytes at 0x8000. -/
def systemAt (bytes : List Byte) (pes : List Pe) : State :=
  { system pes with mem := writeBytes [] 0x8000 bytes }

/-- The next state's PEs, where the outcome is one. -/
def pesOf : Host.Outcome State Fault Refusal → Option (List Pe)
  | .next t => some t.pes
  | .fault _ => none
  | .refused _ => none

/-- Whether the outcome is a next state. -/
def goesOn : Host.Outcome State Fault Refusal → Bool
  | .next _ => true
  | .fault _ => false
  | .refused _ => false

/-! Instructions, one step each. -/

/-- W1: the register set: cleared, and the pc moves by 4. -/
theorem test_wfeA1_set : pesOf (exec (.wfeA1 .al) (system [{ quiet with er := true }]))
    = some [{ quiet with ctx := { quiet.ctx with pc := 0x8004#32 } }] := by decide
/-- W9: condition failed (`WFENE` with Z 1): the Event Register keeps its value. -/
theorem test_wfeA1_failed :
    pesOf (exec (.wfeA1 .ne) (system [{ quiet with
        er := true, ctx := { quiet.ctx with pstate := { quiet.ctx.pstate with z := true } } }]))
      = some [{ quiet with
        er := true
        ctx := { quiet.ctx with
          pc := 0x8004#32, pstate := { quiet.ctx.pstate with z := true } } }] := by decide
/-- W10: the T32 16-bit encoding moves the pc by 2. -/
theorem test_wfeT1_set : pesOf (exec .wfeT1 (system [{ quiet with er := true }]))
    = some [{ quiet with ctx := { quiet.ctx with pc := 0x8002#32 } }] := by decide
/-- W5, W6: nothing pending: by the implementation's choice the PE is suspended, the pc at the `WFE`,
or the `WFE` completes. -/
theorem test_wfeT2_clear : pesOf (exec .wfeT2 (system [quiet]))
    = some [if Config.choose 1 0 .suspend then
        { quiet with run := .suspendedWfe 4, wakereq := false }
      else { quiet with ctx := { quiet.ctx with pc := 0x8004#32 } }] := rfl

/-- I1: a masked IRQ is pending: completes, and the IRQ stays pending. -/
theorem test_wfiA1_pending : pesOf (exec (.wfiA1 .al) (system [irqPending]))
    = some [{ irqPending with ctx := { irqPending.ctx with pc := 0x8004#32 } }] := by decide
/-- I2, I3, I5: nothing pending and the Event Register set: it does not matter. -/
theorem test_wfiA1_quiet : pesOf (exec (.wfiA1 .al) (system [{ quiet with er := true }]))
    = some [if Config.choose 1 0 .suspend then
        { quiet with er := true, run := .suspendedWfi 4, wakereq := false }
      else { quiet with er := true, ctx := { quiet.ctx with pc := 0x8004#32 } }] := rfl
/-- R50: the 16-bit encoding moves the pc by 2. -/
theorem test_wfiT1_pending : pesOf (exec .wfiT1 (system [irqPending]))
    = some [{ irqPending with ctx := { irqPending.ctx with pc := 0x8002#32 } }] := by decide
/-- I12: in a powerdown configuration the suspension is the powerdown. -/
theorem test_wfiT2_powerdown :
    (pesOf (exec .wfiT2 (system [{ quiet with
        inputs := { inputsAtReset with powerdownConfigured := true } }]))).map (List.map Pe.run)
      = some [if Config.choose 1 0 .suspend then .poweredDown else .running] := by
  cases h : Config.choose 1 0 .suspend <;>
    simp [exec, execWfiT2, executeHint, system, quiet, wfi, waitForInterrupt, pesOf, inputsAtReset,
      wfiWakeupPending, perExcAll, perExcAny, perExcMap3, virtualWakeups, debugWakeup, nonSecure,
      contextAtReset, conditionPassed, formT32, formCond, itCond, condHolds, State.occasion,
      Occasion.choose, h, trappedOr, wfxTrap, atEl0, plain, powerDown, State.modifyPe, Pe.complete]

/-- S1: `SEV` on the only PE: its own Event Register is set only by the delivery. -/
theorem test_sevA1_alone : pesOf (exec (.sevA1 .al) (system [quiet]))
    = some [{ quiet with sevq := 1, ctx := { quiet.ctx with pc := 0x8004#32 } }] := by decide
/-- S2, before the deliveries: every PE, whatever its run state and Event Register, is sent one. -/
theorem test_sevT1_three :
    pesOf (exec .sevT1 (system [quiet, { quiet with er := true }, inRun (.suspendedWfe 4)]))
      = some [{ quiet with sevq := 1, ctx := { quiet.ctx with pc := 0x8002#32 } },
        { quiet with er := true, sevq := 1 }, { inRun (.suspendedWfe 4) with sevq := 1 }] := by
  decide
/-- R53: the 32-bit encoding moves the pc by 4. -/
theorem test_sevT2_alone : pesOf (exec .sevT2 (system [quiet]))
    = some [{ quiet with sevq := 1, ctx := { quiet.ctx with pc := 0x8004#32 } }] := by decide

/-- S4, first step: `SEVL` sets the local register at once. -/
theorem test_sevlT1_alone : pesOf (exec .sevlT1 (system [quiet]))
    = some [{ quiet with er := true, ctx := { quiet.ctx with pc := 0x8002#32 } }] := by decide
/-- S5, S6: another PE is signalled by the implementation's choice. -/
theorem test_sevlA1_two : pesOf (exec (.sevlA1 .al) (system [quiet, inRun (.suspendedWfe 4)]))
    = some [{ quiet with er := true, ctx := { quiet.ctx with pc := 0x8004#32 } },
      if Config.choose 1 0 (.sevlSignals 1) then { inRun (.suspendedWfe 4) with sevq := 1 }
      else inRun (.suspendedWfe 4)] := rfl
theorem test_sevlT2_alone : pesOf (exec .sevlT2 (system [quiet]))
    = some [{ quiet with er := true, ctx := { quiet.ctx with pc := 0x8004#32 } }] := by decide

/-- B3: `DSB` alone moves the pc by 4 and changes nothing else. -/
theorem test_dsbA1_alone : pesOf (exec (.dsbA1 optionSy) (system [quiet]))
    = some [{ quiet with ctx := { quiet.ctx with pc := 0x8004#32 } }] := by decide
/-- R36: an earlier store is outstanding: the `DSB` waits. -/
theorem test_dsbA1_waits :
    pesOf (exec (.dsbA1 optionSy) (system [{ quiet with accesses := [.store 0#32 1#8] }]))
      = some [{ quiet with accesses := [.store 0#32 1#8] }] := by decide
/-- E13: `DSB ST` is refused, in T32 as in A32. -/
theorem test_dsbT1_st : exec (.dsbT1 0b1110#4) (system [quiet]) = .refused (.dsbOption 0b1110#4) := rfl

/-- Every row of the opcode table, stored where the first step after reset fetches, runs there: the
A1 hints with condition `AL`, the `DSB` rows with option `SY`. -/
theorem test_rows_run_after_reset :
    goesOn (step (State.reset.withFetchWord 32 0xE320F002)) = true
      ∧ goesOn (step (State.reset.withFetchWord 32 0xE320F003)) = true
      ∧ goesOn (step (State.reset.withFetchWord 32 0xE320F004)) = true
      ∧ goesOn (step (State.reset.withFetchWord 32 0xE320F005)) = true
      ∧ goesOn (step (State.reset.withFetchWord 16 0xBF20)) = true
      ∧ goesOn (step (State.reset.withFetchWord 16 0xBF30)) = true
      ∧ goesOn (step (State.reset.withFetchWord 16 0xBF40)) = true
      ∧ goesOn (step (State.reset.withFetchWord 16 0xBF50)) = true
      ∧ goesOn (step (State.reset.withFetchWord 32 0xF3AF8002)) = true
      ∧ goesOn (step (State.reset.withFetchWord 32 0xF3AF8003)) = true
      ∧ goesOn (step (State.reset.withFetchWord 32 0xF3AF8004)) = true
      ∧ goesOn (step (State.reset.withFetchWord 32 0xF3AF8005)) = true
      ∧ goesOn (step (State.reset.withFetchWord 32 0xF57FF04F)) = true
      ∧ goesOn (step (State.reset.withFetchWord 32 0xF3BF8F4F)) = true := by decide

/-! The wakeup conditions. -/

/-- The PE with some inputs. -/
def withInputs (f : Inputs → Inputs) : Pe := { quiet with inputs := f inputsAtReset }

/-- The PE with the mask bits I, F, A. -/
def masked (i f a : Bool) (pe : Pe) : Pe :=
  { pe with ctx := { pe.ctx with
    pstate := { pe.ctx.pstate with maskI := i, maskF := f, maskA := a } } }

/-- The PE with a mode and an `HCR`. -/
def inMode (m : Mode) (hcr : Word) (pe : Pe) : Pe :=
  { pe with ctx := { pe.ctx with hcr := hcr, pstate := { pe.ctx.pstate with mode := m } } }

/-- The configuration with EL2 and EL3. -/
def full : Params := { plain with haveEL2 := true, haveEL3 := true }

/-- A record with one of IRQ, FIQ and SError. -/
def onlyIrq : PerExc := { irq := true, fiq := false, serror := false }
def onlyFiq : PerExc := { irq := false, fiq := true, serror := false }
def onlySerror : PerExc := { irq := false, fiq := false, serror := true }

/-- W15, W16, W17. -/
theorem test_wfeWakeup_irq :
    wfeWakeupPending full (masked false true true irqPending) = true
      ∧ wfeWakeupPending full (masked true false false irqPending) = false
      ∧ wfeWakeupPending full (masked true true true (withInputs fun i =>
          { i with physical := onlyIrq, maskEffective := perExcAll false })) = true := by decide

/-- W18, and R92: without `EDSCR.HDE` (bit 14) the same interrupt is not masked. W19. -/
theorem test_wfeWakeup_fiq_serror :
    let fiq := masked true false true (withInputs fun i =>
      { i with physical := onlyFiq, intdisPhysical := onlyFiq, invasiveDebug := true })
    wfeWakeupPending full { fiq with ctx := { fiq.ctx with edscr := 0x4000#32 } } = false
      ∧ wfeWakeupPending full fiq = true
      ∧ wfeWakeupPending full (masked false false true
          (withInputs fun i => { i with physical := onlySerror })) = false := by decide

/-- W20 to W24: `HCR.IMO` is bit 4. -/
theorem test_wfeWakeup_virtual :
    let virq := withInputs fun i => { i with virtual := onlyIrq, maskEffective := perExcAll false }
    let guest : Mode := .low .supervisor true
    wfeWakeupPending full (masked false true true (inMode guest 0x10#32 virq)) = true
      ∧ wfeWakeupPending full (masked false true true (inMode guest 0x0#32 virq)) = false
      ∧ wfeWakeupPending full (masked false true true (inMode .hyp 0x10#32 virq)) = false
      ∧ wfeWakeupPending full
          (masked false true true (inMode (.low .supervisor false) 0x10#32 virq)) = false
      ∧ wfeWakeupPending full (masked true true true (inMode guest 0x10#32 virq)) = false := by
  decide

/-- W25, W26, W27. -/
theorem test_wfeWakeup_debug :
    wfeWakeupPending full (withInputs fun i => { i with edbgrq := true, haltingAllowed := true })
        = true
      ∧ wfeWakeupPending full (withInputs fun i => { i with edbgrq := true }) = false
      ∧ wfeWakeupPending full { quiet with er := true } = false := by decide

/-- I6, I7: `HCR.FMO` is bit 3. I8, I13. -/
theorem test_wfiWakeup :
    let vfiq := withInputs fun i => { i with virtual := onlyFiq }
    let guest : Mode := .low .supervisor true
    wfiWakeupPending (masked true true true (inMode guest 0x8#32 vfiq)) = true
      ∧ wfiWakeupPending (masked true true true (inMode guest 0x0#32 vfiq)) = false
      ∧ wfiWakeupPending (withInputs fun i => { i with edbgrq := true, haltingAllowed := true })
        = true
      ∧ wfiWakeupPending (masked true true true irqPending) = true := by decide

/-! The trap function and the trap. -/

/-- A context in a mode, with the three control registers. -/
def controls (m : Mode) (sctlr hcr scr : Word) : Context :=
  { contextAtReset with
    sctlr := sctlr
    hcr := hcr
    scr := scr
    pstate := { contextAtReset.pstate with mode := m } }

/-- T1 to T4: `SCTLR.nTWE` is bit 18, `HCR.TWE` bit 14, `SCR.TWE` bit 13. -/
theorem test_trap_wfe :
    wfxTrap full .wfe (controls (.low .user true) 0#32 0#32 0#32) = some .el1Undefined
      ∧ wfxTrap full .wfe (controls (.low .user true) 0x40000#32 0x4000#32 0#32)
        = some .el2HypTrap
      ∧ wfxTrap full .wfe (controls (.low .user true) 0#32 0x4000#32 0x2000#32)
        = some .el1Undefined
      ∧ wfxTrap full .wfe (controls (.low .supervisor true) 0#32 0#32 0#32) = none := by decide

/-- T5 to T8, T12: `HCR.TWI` is bit 13, `SCR.TWI` bit 12. -/
theorem test_trap_wfi :
    wfxTrap full .wfi (controls (.low .supervisor true) 0#32 0x2000#32 0#32) = some .el2HypTrap
      ∧ wfxTrap full .wfi (controls (.low .supervisor false) 0#32 0x2000#32 0#32) = none
      ∧ wfxTrap full .wfi (controls (.low .supervisor false) 0#32 0#32 0x1000#32)
        = some .el3MonitorTrap
      ∧ wfxTrap full .wfi (controls .monitor 0#32 0#32 0x1000#32) = none
      ∧ wfxTrap plain .wfi (controls (.low .supervisor true) 0#32 0x2000#32 0#32) = none := by
  decide

/-- T9, T10, T11. -/
theorem test_trap_hyp :
    wfxTrap full .wfe (controls .hyp 0#32 0x4000#32 0#32) = none
      ∧ wfxTrap full .wfe (controls .hyp 0#32 0x4000#32 0x2000#32) = some .el3MonitorTrap
      ∧ wfxTrap full .wfe (controls (.low .supervisor true) 0#32 0x2000#32 0#32) = none := by
  decide

/-- The record of a trap taken from 0x8000. -/
def record (t : TrapTarget) (kind : WaitKind) : TrapRecord where
  target := t
  kind := kind
  pc := 0x8000#32
  len := 4
  iset := .a32
  cond := .al

/-- Section 6 and P5: `HSR` is 0x07E00000 for an A32 `WFI`, 0x07E00001 for an A32 `WFE`; the trap to
Undefined mode writes no `HSR`. -/
theorem test_trap_syndrome :
    (takeTrap ⟨1, 0⟩ (record .el2HypTrap .wfi) quiet).ctx.hsr = 0x07E00000#32
      ∧ (takeTrap ⟨1, 0⟩ (record .el2HypTrap .wfe) quiet).ctx.hsr = 0x07E00001#32
      ∧ (takeTrap ⟨1, 0⟩ (record .el1Undefined .wfe) quiet).ctx.hsr = 0#32 := by decide

/-! The agents. -/

/-- The PEs after one move. -/
def after (m : Move) (s : State) : Option (List Pe) := pesOf (stepWith m s)

/-- W28, W29, W30, W31: what each event does to a PE suspended in `WFE`. -/
theorem test_events_wfe :
    after (.deliver 0) (system [{ inRun (.suspendedWfe 4) with sevq := 1 }])
        = some [{ inRun (.suspendedWfe 4) with er := true, wakereq := true }]
      ∧ after (.timerStreamEvent 0) (system [inRun (.suspendedWfe 4)])
        = some [{ inRun (.suspendedWfe 4) with er := true, wakereq := true }]
      ∧ after (.implEvent 0) (system [inRun (.suspendedWfe 4)])
        = some [{ inRun (.suspendedWfe 4) with er := true, wakereq := true }]
      ∧ after (.globalMonitorCleared 0) (system [inRun (.suspendedWfe 4)])
        = some [{ inRun (.suspendedWfe 4) with wakereq := true }] := by decide

/-- W32: under `gm_clear_sets_er` the register is set. W35: a Running PE is not changed. -/
theorem test_monitor_cleared :
    after (.globalMonitorCleared 0)
        { system [inRun (.suspendedWfe 4)] with params := { plain with gmClearSetsEr := true } }
        = some [{ inRun (.suspendedWfe 4) with er := true, wakereq := true }]
      ∧ after (.globalMonitorCleared 0) (system [quiet]) = some [quiet] := by decide

/-- W33, W34, I9: an IRQ rises, unmasked or masked, for a PE suspended in `WFE`; and masked, in `WFI`. -/
theorem test_irq_rises :
    let raise (pe : Pe) := after (.setInputs 0 irqPending.inputs) { system [pe] with params := full }
    (raise (masked false true true (inRun (.suspendedWfe 4)))).map (List.map Pe.wakereq)
        = some [true]
      ∧ (raise (masked true true true (inRun (.suspendedWfe 4)))).map (List.map Pe.wakereq)
        = some [false]
      ∧ (raise (masked true true true (inRun (.suspendedWfi 4)))).map (List.map Pe.wakereq)
        = some [true] := by decide

/-- S3, I10: a PE suspended in `WFI` gets its register set and is not woken. -/
theorem test_events_wfi :
    after (.deliver 0) (system [{ inRun (.suspendedWfi 4) with sevq := 1 }])
        = some [{ inRun (.suspendedWfi 4) with er := true }]
      ∧ after (.timerStreamEvent 0) (system [inRun (.suspendedWfi 4)])
        = some [{ inRun (.suspendedWfi 4) with er := true }] := by decide

/-- W11, W14: the restart leaves a clear register clear. I11: the early wake of a `WFI`. -/
theorem test_resume :
    (after (.resume 0) (system [inRun (.suspendedWfe 4)])).map (List.map fun q => (q.run, q.ctx.pc))
        = some [(.running, 0x8004#32)]
      ∧ after (.resume 0) (system [inRun (.suspendedWfi 4)])
        = some [{ quiet with ctx := { quiet.ctx with pc := 0x8004#32 } }] := by
  refine ⟨?_, by decide⟩
  cases h : Config.choose 2 0 .restartClears <;>
    simp [after, stepWith, environment, system, inRun, quiet, Pe.resume, State.tick,
      State.modifyPe, Occasion.choose, h, pesOf, Pe.wake, Pe.complete, Pe.clearEventRegister,
      advancePc, addressTop]

/-- X1, X3: a reset ends the suspension at the host's reset entry; another PE keeps its register and
the delivery in flight to it. -/
theorem test_reset :
    (after (.reset 0) (system [inRun (.suspendedWfe 4), { quiet with er := true, sevq := 1 }])).map
        (List.map fun q => (q.run, q.wakereq, q.sevq, q.ctx.pc))
      = some [(.running, false, 0, 0#32), (.running, false, 1, 0x8000#32)] := by decide

/-- R152: a debug register is written in the WFI state. R154: with `FEAT_DoubleLock` and
`DBGOSDLR.DLK` set, no idle signal while the debug interface is busy. -/
theorem test_debug_in_wfi :
    let pe := { inRun (.suspendedWfi 4) with inputs := { inputsAtReset with busIdle := true } }
    let s := { system [pe] with params := { plain with haveDoubleLock := true } }
    (after (.debugWrite 0 .dbgosdlr 1#32) s).map (List.map fun q => q.debugRead .dbgosdlr)
        = some [1#32]
      ∧ (after (.signalIdle 0) s).map (List.map Pe.idle) = some [true]
      ∧ (after (.signalIdle 0) { s with pes := [{ pe with
          ctx := { pe.ctx with dbgosdlr := 1#32 } }] }).map (List.map Pe.idle)
        = some [false] := by decide

/-- R19, R99 (iii): an IRQ is pending and masked by `IntdisMasks`; when only that mask goes, the latch of
a PE suspended in `WFE` stays (log entry 21); when another input of R19 changes too, it is set. -/
theorem test_mask_is_no_occurrence :
    let irq := { inputsAtReset with physical := onlyIrq, invasiveDebug := true }
    let pe := masked false true true { inRun (.suspendedWfe 4) with
      inputs := { irq with intdisPhysical := onlyIrq } }
    let s := system [{ pe with ctx := { pe.ctx with edscr := 0x4000#32 } }]
    (after (.setInputs 0 irq) s).map (List.map Pe.wakereq) = some [false]
      ∧ (after (.setInputs 0 { irq with edbgrq := true }) s).map (List.map Pe.wakereq)
        = some [true] := by decide

/-- R45: no instruction of the host runs from bytes a PE has written; from other bytes one may. -/
theorem test_host_at_written :
    let s := systemAt [0x00#8, 0x00#8, 0xA0#8, 0xE1#8] [quiet]
    runsHostInstruction s quiet = true
      ∧ runsHostInstruction { s with written := [0x8002] } quiet = false
      ∧ runsHostInstruction { system [quiet] with written := [0x8002] } quiet = false := by decide

/-! Witnesses: for every obligation with hypotheses, a state and operands that meet all of them. -/

theorem test_witness_EncodeOfDecode :
    decode .a32 [0x02#8, 0xF0#8, 0x20#8, 0xE3#8, 0x00#8] = .instr (.wfeA1 .al) [0x00#8]
      ∧ decode .t32 [0x20#8, 0xBF#8] = .instr .wfeT1 []
      ∧ decode .t32 [0xBF#8, 0xF3#8, 0x4E#8, 0x8F#8] = .instr (.dsbT1 0b1110#4) [] := by decide

/-- One word for each of the five clauses. -/
theorem test_witness_ReservedWordsRefused :
    ((0xF320F002#32).extractLsb' 28 4 = 0b1111#4 ∧ (0xF320F002#32).extractLsb' 16 12 = 0x320#12)
      ∧ ((0xE320F102#32).extractLsb' 28 4 ≠ 0b1111#4 ∧ (0xE320F102#32).extractLsb' 16 12 = 0x320#12
        ∧ (0xE320F102#32).extractLsb' 8 8 ≠ 0xF0#8)
      ∧ ((0xF57FE04F#32).extractLsb' 20 12 = 0xF57#12 ∧ (0xF57FE04F#32).extractLsb' 4 4 = 0b0100#4
        ∧ (0xF57FE04F#32).extractLsb' 8 12 ≠ 0xFF0#12)
      ∧ ((0xF3AE#16).extractLsb' 4 12 = 0xF3A#12 ∧ (0x8002#16).extractLsb' 14 2 = 0b10#2
        ∧ (0x8002#16).extractLsb' 12 1 = 0#1 ∧ (0x8002#16).extractLsb' 8 3 = 0#3
        ∧ (0xF3AE#16).extractLsb' 0 4 ≠ 0xF#4)
      ∧ ((0xF3BF#16).extractLsb' 4 12 = 0xF3B#12 ∧ (0x8E4F#16).extractLsb' 14 2 = 0b10#2
        ∧ (0x8E4F#16).extractLsb' 12 1 = 0#1 ∧ (0x8E4F#16).extractLsb' 4 4 = 0b0100#4
        ∧ (0x8E4F#16).extractLsb' 8 4 ≠ 0xF#4) := by decide

/-- The PE at the last place an A32 instruction fits. -/
def atTop : Pe := { quiet with ctx := { quiet.ctx with pc := 0xFFFFFFFC#32 } }

/-- An A32 `SEV` at 0x8000, and at the top of the address space. -/
theorem test_witness_FetchReadsTheEncoding :
    let bytes := encode (.sevA1 .al)
    let s := systemAt bytes [quiet]
    let top := { system [atTop] with mem := writeBytes [] 0xFFFFFFFC bytes }
    (quiet.ctx.pc.toNat % fetchAlign .a32 = 0
        ∧ readBytes s.mem quiet.ctx.pc.toNat bytes.length = some bytes
        ∧ quiet.ctx.pc.toNat + bytes.length ≤ addressTop
        ∧ writtenAny s.written quiet.ctx.pc.toNat bytes.length = false)
      ∧ readBytes top.mem atTop.ctx.pc.toNat bytes.length = some bytes
      ∧ atTop.ctx.pc.toNat + bytes.length = addressTop := by decide

/-- The PE executing T32 instructions. -/
def thumb : Pe :=
  { quiet with ctx := { quiet.ctx with pstate := { quiet.ctx.pstate with iset := .t32 } } }

/-- An A32 word, a T32 halfword and the second halfword of a 32-bit T32 instruction, a byte of it
written; the PE that fetches the first; and a fetch that gives an instruction. -/
theorem test_witness_SelfModifiedCodeRefused :
    let a32 := { systemAt (encode (.sevA1 .al)) [quiet] with written := [0x8003] }
    let t16 := { systemAt (encode .sevT1) [thumb] with written := [0x8001] }
    let t32 := { systemAt (encode .sevT2) [thumb] with written := [0x8003] }
    writtenAny a32.written 0x8000 4 = true ∧ fetch a32 quiet = .refused .selfModifyingCode
      ∧ a32.pes[0]? = some quiet ∧ quiet.run = .running ∧ quiet.inputs.otherException = false
      ∧ writtenAny t16.written 0x8000 2 = true
      ∧ readBytes t32.mem 0x8000 2 = some [0xAF#8, 0xF3#8] ∧ t32Wide (halfOf 0xAF#8 0xF3#8) = true
      ∧ writtenAny t32.written 0x8000 2 = false ∧ writtenAny t32.written 0x8000 4 = true
      ∧ fetch (systemAt (encode (.sevA1 .al)) [quiet]) quiet = .instr (.sevA1 .al) := by decide

theorem test_witness_StepRunsTheFetchedInstruction :
    let s := { systemAt (encode (.sevA1 .al)) [quiet] with agenda := [.execute 0, .deliver 0] }
    s.agenda = .execute 0 :: [.deliver 0] ∧ s.pes[0]? = some quiet ∧ quiet.run = .running
      ∧ quiet.inputs.otherException = false ∧ fetch s quiet = .instr (.sevA1 .al) := by decide

theorem test_witness_OtherExceptionComesFirst :
    let pe := withInputs fun i => { i with otherException := true }
    (system [pe]).pes[0]? = some pe ∧ pe.run = .running ∧ pe.inputs.otherException = true := by decide

theorem test_witness_FailedConditionOnlyMovesPc :
    (Instr.sevA1 .eq).wellFormed = true ∧ (system [quiet]).pes[(system [quiet]).cur]? = some quiet
      ∧ quiet.run = .running ∧ conditionPassed (instrForm (.sevA1 .eq)) quiet.ctx = false := by
  decide

/-- The premise `Ready`, for an instruction of each encoding. -/
theorem ready_quiet (pe : Pe) (hr : pe.run = .running)
    (hc : conditionPassed formA1Always pe.ctx = true) : Ready (.dsbA1 optionSy) (system [pe]) pe :=
  ⟨rfl, hr, hc⟩

theorem test_witness_WfeWithRegisterSetCompletes :
    instrOp (.wfeA1 .al) = .wfe
      ∧ Ready (.wfeA1 .al) (system [{ quiet with er := true }]) { quiet with er := true } :=
  ⟨rfl, rfl, rfl, rfl⟩

/-- A PE in User mode with `SCTLR.nTWE` and `nTWI` 0 and an unmasked IRQ pending: both cases of the
conclusion, by the parameter. -/
def userPending : Pe :=
  { irqPending with ctx := { irqPending.ctx with
    sctlr := 0#32
    pstate := { irqPending.ctx.pstate with mode := .low .user false, maskI := false } } }

theorem test_witness_WfeWithWakeupPendingCompletes :
    Ready (.wfeA1 .al) (system [userPending]) userPending ∧ userPending.er = false
      ∧ wfeWakeupPending plain userPending = true ∧ plain.trapWhenWakeupPending = false
      ∧ wfeWakeupPending { plain with trapWhenWakeupPending := true } userPending = true
      ∧ wfxTrap { plain with trapWhenWakeupPending := true } .wfe userPending.ctx
        = some .el1Undefined :=
  ⟨⟨rfl, rfl, rfl⟩, by decide⟩

theorem test_witness_WfeSuspendsOrCompletes :
    Ready .wfeT1 (system [quiet]) quiet ∧ quiet.er = false
      ∧ wfeWakeupPending plain quiet = false ∧ wfxTrap plain .wfe quiet.ctx = none :=
  ⟨⟨rfl, rfl, rfl⟩, by decide⟩

/-- A PE in User mode with `SCTLR.nTWE` and `nTWI` 0, nothing pending. -/
def userQuiet : Pe := { userPending with inputs := inputsAtReset }

theorem test_witness_WfeIsTrappedOrCompletes :
    Ready .wfeT2 (system [userQuiet]) userQuiet ∧ userQuiet.er = false
      ∧ wfeWakeupPending plain userQuiet = false
      ∧ wfxTrap plain .wfe userQuiet.ctx = some .el1Undefined :=
  ⟨⟨rfl, rfl, rfl⟩, by decide⟩

/-- A step answers a next state in which PE `p` holds something. -/
def Steps (m : Move) (s : State) (p : Nat) (pe pe' : Pe) : Prop :=
  ∃ t, stepWith m s = .next t ∧ s.pes[p]? = some pe ∧ t.pes[p]? = some pe'

/-- Each of the cases of the hypothesis but the last, in which a free value decides. -/
theorem test_witness_WfeSuspendsOnlyIf :
    Steps (.deliver 0) (system [quiet]) 0 quiet quiet
      ∧ (∃ pe', Steps (.execute 0)
          (system [withInputs fun i => { i with otherException := true }]) 0
          (withInputs fun i => { i with otherException := true }) pe')
      ∧ (∃ pe', Steps (.execute 0)
          (systemAt (encode (.wfeA1 .al)) [{ quiet with er := true }]) 0
          { quiet with er := true } pe')
      ∧ ((∃ pe', Steps (.execute 0) (systemAt (encode (.wfeA1 .al)) [userPending]) 0
          userPending pe') ∧ wfeWakeupPending plain userPending = true)
      ∧ (∃ pe', Steps (.execute 0) (systemAt (encode (.wfeA1 .al)) [userQuiet]) 0 userQuiet pe')
      ∧ wfxTrap plain .wfe userQuiet.ctx = some .el1Undefined :=
  ⟨⟨_, rfl, rfl, rfl⟩, ⟨_, _, rfl, rfl, rfl⟩, ⟨_, _, rfl, rfl, rfl⟩, ⟨⟨_, _, rfl, rfl, rfl⟩, rfl⟩,
    ⟨_, _, rfl, rfl, rfl⟩, rfl⟩

/-- Suspended or complete, and trapped or complete. -/
theorem test_witness_WfeFrame :
    (∃ t pe', exec (.wfeA1 .al) (system [quiet]) = .next t ∧ t.pes[0]? = some pe')
      ∧ ∃ t pe', exec .wfeT1 (system [userQuiet]) = .next t ∧ t.pes[0]? = some pe' :=
  ⟨⟨_, _, rfl, rfl⟩, _, _, rfl, rfl⟩

/-- The second clause on a debug request with every interrupt pending and masked; the third on a virtual
IRQ, `HCR.IMO` (bit 4) being 1. -/
theorem test_witness_WfiWakeupCannotBeMasked :
    let req := masked true true true (withInputs fun i =>
      { i with physical := perExcAll true, edbgrq := true, haltingAllowed := true })
    let virq := inMode (.low .supervisor true) 0x10#32 (withInputs fun i =>
      { i with virtual := onlyIrq })
    physMaskEffective full req = perExcAll true ∧ wfeWakeupPending full req = true
      ∧ wfiWakeupPending virq = true ∧ virq.inputs.physical = perExcAll false
      ∧ ¬ (virq.inputs.edbgrq = true ∧ virq.inputs.haltingAllowed = true) := by decide

theorem test_witness_WfiWithWakeupPendingCompletes :
    Ready (.wfiA1 .al) (system [userPending]) userPending ∧ wfiWakeupPending userPending = true
      ∧ userPending.inputs.powerdownConfigured = false ∧ plain.trapWhenWakeupPending = false
      ∧ wfxTrap { plain with trapWhenWakeupPending := true } .wfi userPending.ctx
        = some .el1Undefined :=
  ⟨⟨rfl, rfl, rfl⟩, by decide⟩

/-- Outside a powerdown configuration, and in one. -/
theorem test_witness_WfiSuspendsOrCompletes :
    let pe := withInputs fun i => { i with powerdownConfigured := true }
    (Ready .wfiT1 (system [quiet]) quiet ∧ wfiWakeupPending quiet = false
        ∧ wfxTrap plain .wfi quiet.ctx = none)
      ∧ Ready .wfiT1 (system [pe]) pe ∧ wfiWakeupPending pe = false
      ∧ wfxTrap plain .wfi pe.ctx = none :=
  ⟨⟨⟨rfl, rfl, rfl⟩, by decide⟩, ⟨rfl, rfl, rfl⟩, by decide⟩

theorem test_witness_WfiIsTrappedOrCompletes :
    Ready .wfiT2 (system [userQuiet]) userQuiet ∧ wfiWakeupPending userQuiet = false
      ∧ wfxTrap plain .wfi userQuiet.ctx = some .el1Undefined :=
  ⟨⟨rfl, rfl, rfl⟩, by decide⟩

/-- An IRQ pending in a powerdown configuration. -/
def powerdownPending : Pe :=
  { irqPending with inputs := { irqPending.inputs with powerdownConfigured := true } }

/-- An IRQ pending in a powerdown configuration, in User mode with `SCTLR.nTWI` 0. -/
def powerdownUser : Pe :=
  { userPending with inputs := { userPending.inputs with powerdownConfigured := true } }

/-- Where no trap control applies, and where one does. -/
theorem test_witness_PowerdownMayIgnorePending :
    (Ready (.wfiA1 .al) (system [powerdownPending]) powerdownPending
        ∧ wfiWakeupPending powerdownPending = true
        ∧ powerdownPending.inputs.powerdownConfigured = true
        ∧ wfxTrap plain .wfi powerdownPending.ctx = none)
      ∧ Ready (.wfiA1 .al) (system [powerdownUser]) powerdownUser
      ∧ wfiWakeupPending powerdownUser = true ∧ powerdownUser.inputs.powerdownConfigured = true
      ∧ wfxTrap plain .wfi powerdownUser.ctx = some .el1Undefined :=
  ⟨⟨⟨rfl, rfl, rfl⟩, by decide⟩, ⟨rfl, rfl, rfl⟩, by decide⟩

/-- Each of the cases of the hypothesis but the last, in which a free value decides. -/
theorem test_witness_WfiSuspendsOnlyIf :
    Steps (.timerStreamEvent 1) (system [quiet]) 0 quiet quiet
      ∧ (∃ pe', Steps (.execute 0)
          (system [withInputs fun i => { i with otherException := true }]) 0
          (withInputs fun i => { i with otherException := true }) pe')
      ∧ ((∃ pe', Steps (.execute 0) (systemAt (encode (.wfiA1 .al)) [irqPending]) 0 irqPending pe')
        ∧ wfiWakeupPending irqPending = true)
      ∧ (∃ pe', Steps (.execute 0) (systemAt (encode (.wfiA1 .al)) [userQuiet]) 0 userQuiet pe')
      ∧ wfxTrap plain .wfi userQuiet.ctx = some .el1Undefined :=
  ⟨⟨_, rfl, rfl, rfl⟩, ⟨_, _, rfl, rfl, rfl⟩, ⟨⟨_, _, rfl, rfl, rfl⟩, rfl⟩, ⟨_, _, rfl, rfl, rfl⟩, rfl⟩

/-- The first clause on a `WFI` that completes; the second and the fourth on a PE suspended in `WFI`. -/
theorem test_witness_WfiIgnoresTheEventRegister :
    (∃ t pe', exec (.wfiA1 .al) (system [irqPending]) = .next t
        ∧ (system [irqPending]).pes[0]? = some irqPending ∧ t.pes[0]? = some pe'
        ∧ pe'.run ≠ .poweredDown)
      ∧ (system [inRun (.suspendedWfi 2)]).pes[0]? = some (inRun (.suspendedWfi 2))
      ∧ 0 < ({ inRun (.suspendedWfi 2) with sevq := 1 } : Pe).sevq :=
  ⟨⟨_, _, rfl, rfl, rfl, by decide⟩, rfl, by decide⟩

/-- Suspended or complete; trapped or complete; and in a powerdown configuration. -/
theorem test_witness_WfiFrame :
    (∃ t pe', exec (.wfiA1 .al) (system [quiet]) = .next t ∧ t.pes[0]? = some pe')
      ∧ (∃ t pe', exec .wfiT1 (system [userQuiet]) = .next t ∧ t.pes[0]? = some pe')
      ∧ ∃ t pe', exec .wfiT2 (system [powerdownPending]) = .next t ∧ t.pes[0]? = some pe' :=
  ⟨⟨_, _, rfl, rfl⟩, ⟨_, _, rfl, rfl⟩, _, _, rfl, rfl⟩

theorem test_witness_SevSignalsEveryPe :
    instrOp .sevT1 = .sev ∧ Ready .sevT1 (system [quiet, quiet]) quiet := ⟨rfl, rfl, rfl, rfl⟩

theorem test_witness_SevlSetsTheLocalRegister :
    instrOp .sevlT1 = .sevl ∧ Ready .sevlT1 (system [quiet, quiet]) quiet := ⟨rfl, rfl, rfl, rfl⟩

theorem test_witness_SendEventFrame :
    (∃ t pe', exec (.sevA1 .al) (system [quiet, quiet]) = .next t ∧ t.pes[1]? = some pe')
      ∧ ∃ t pe', exec .sevlT2 (system [quiet, quiet]) = .next t ∧ t.pes[0]? = some pe' :=
  ⟨⟨_, _, rfl, rfl⟩, _, _, rfl, rfl⟩

/-- In User mode, with the trap controls of `WFE` and `WFI` set. -/
theorem test_witness_SendEventAtAllPrivilegeLevels :
    Ready (.sevA1 .al) (system [userQuiet, quiet]) userQuiet
      ∧ Ready .sevlT1 (system [userQuiet]) userQuiet := ⟨⟨rfl, rfl, rfl⟩, rfl, rfl, rfl⟩

theorem test_witness_AtomicSendEventIsASchedule :
    Ready .sevT2 (system [quiet, quiet]) quiet
      ∧ (∃ t, exec .sevT2 (system [quiet, quiet]) = .next t)
      ∧ [1, 0].Perm (List.range (system [quiet, quiet]).pes.length) :=
  ⟨⟨rfl, rfl, rfl⟩, ⟨_, rfl⟩, by decide⟩

theorem test_witness_SevlThenWfeCompletes :
    instrOp .sevlT1 = .sevl ∧ instrOp .wfeT1 = .wfe ∧ Ready .sevlT1 (system [quiet]) quiet
      ∧ conditionPassed (instrForm .wfeT1)
        { quiet.ctx with pc := advancePc quiet.ctx.pc 2 } = true :=
  ⟨rfl, rfl, ⟨rfl, rfl, rfl⟩, by decide⟩

/-- A PE with an outstanding load and an outstanding store. -/
def busy : Pe := { quiet with accesses := [.load 0x100#32, .store 0x200#32 7#8] }

/-- With nothing outstanding, and with something. -/
theorem test_witness_DsbWaitsForAccesses :
    (Instr.dsbT1 optionSy).wellFormed = true
      ∧ Ready (.dsbT1 optionSy) (system [quiet]) quiet
      ∧ Ready (.dsbA1 optionSy) (system [busy]) busy :=
  ⟨rfl, ⟨rfl, rfl, rfl⟩, ready_quiet busy rfl rfl⟩

/-- At the last pc at which a 16-bit instruction ends inside the address space; a `WFE` that is trapped or
completes; a `DSB` that waits; a `WFI` that powers down or completes. -/
theorem test_witness_PcMovesByTheLength :
    (∃ t pe', exec .sevT1 (system [atTop]) = .next t ∧ t.pes[0]? = some pe'
        ∧ atTop.ctx.pc.toNat + (encode .sevT1).length < addressTop)
      ∧ (∃ t pe', exec .wfeT2 (system [userQuiet]) = .next t ∧ t.pes[0]? = some pe')
      ∧ (∃ t pe', exec (.dsbA1 optionSy) (system [busy]) = .next t ∧ t.pes[0]? = some pe')
      ∧ ∃ t pe', exec .wfiT2 (system [powerdownPending]) = .next t ∧ t.pes[0]? = some pe' :=
  ⟨⟨_, _, rfl, rfl, by decide⟩, ⟨_, _, rfl, rfl⟩, ⟨_, _, rfl, rfl⟩, _, _, rfl, rfl⟩

/-- A PE at a `DSB` with accesses outstanding: an access completes; the PE takes a step. -/
theorem test_witness_DsbHoldsLaterInstructions :
    let s := systemAt (encode (.dsbA1 optionSy)) [busy]
    (∃ pe', Steps (.completeAccess 0 1) s 0 busy pe') ∧ (∃ pe', Steps (.execute 0) s 0 busy pe')
      ∧ fetch s busy = .instr (.dsbA1 optionSy)
      ∧ conditionPassed (instrForm (.dsbA1 optionSy)) busy.ctx = true ∧ busy.accesses ≠ [] :=
  ⟨⟨_, _, rfl, rfl, rfl⟩, ⟨_, _, rfl, rfl, rfl⟩, rfl, rfl, by decide⟩

theorem test_witness_DsbFrame :
    ∃ t pe', exec (.dsbA1 optionSy) (system [quiet]) = .next t ∧ t.pes[0]? = some pe' :=
  ⟨_, _, rfl, rfl⟩

theorem test_witness_OtherBarrierOptionsRefused : (0b1110#4) ≠ optionSy := by decide

/-- A store completes before the load issued before it; an access is issued. -/
theorem test_witness_AccessesLeaveOnlyByCompleting :
    (∃ pe', Steps (.completeAccess 0 1) (system [busy]) 0 busy pe')
      ∧ ∃ pe', Steps (.issueAccess 0 (.load 0#32)) (system [quiet]) 0 quiet pe' :=
  ⟨⟨_, _, rfl, rfl, rfl⟩, _, _, rfl, rfl, rfl⟩

theorem test_witness_MemoryChangesOnlyByStores :
    ∃ t, stepWith (.completeAccess 0 1) (system [busy]) = .next t
      ∧ readByte t.mem 0x200 ≠ readByte (system [busy]).mem 0x200 :=
  ⟨_, rfl, by decide⟩

theorem test_witness_TrapEntry :
    (record .el1Undefined .wfe).target = .el1Undefined
      ∧ (record .el3MonitorTrap .wfi).target = .el3MonitorTrap
      ∧ (record .el2HypTrap .wfi).target = .el2HypTrap
      ∧ (record .el2HypTrap .wfi).iset = .a32 := by decide

theorem test_witness_ExceptionReturnSetsTheRegister :
    (system [quiet]).pes[0]? = some quiet ∧ runsHostInstruction (system [quiet]) quiet = true := by
  decide

theorem test_witness_DeliveryIsPerformed :
    (system [{ quiet with sevq := 1 }]).pes[0]? = some { quiet with sevq := 1 }
      ∧ 0 < ({ quiet with sevq := 1 } : Pe).sevq := by decide

theorem test_witness_InstantaneousEvents :
    (system [inRun (.suspendedWfe 4)]).pes[0]? = some (inRun (.suspendedWfe 4))
      ∧ (system [inRun (.suspendedWfi 4)]).pes[0]? = some (inRun (.suspendedWfi 4)) := by decide

/-- An input of R19 changes; only the mask of `IntdisMasks` does. -/
theorem test_witness_InputChangeRequestsWake :
    (system [inRun (.suspendedWfi 4)]).pes[0]? = some (inRun (.suspendedWfi 4))
      ∧ irqPending.inputs.physical ≠ (inRun (.suspendedWfi 4)).inputs.physical
      ∧ wakeInputsDiffer { inputsAtReset with intdisPhysical := onlyIrq } inputsAtReset = false := by
  decide

/-- In `WFE`, and in `WFI`. -/
theorem test_witness_ResumeFromSuspension :
    (system [inRun (.suspendedWfe 2)]).pes[0]? = some (inRun (.suspendedWfe 2))
      ∧ (inRun (.suspendedWfe 2)).run = .suspendedWfe 2
      ∧ (system [inRun (.suspendedWfi 4)]).pes[0]? = some (inRun (.suspendedWfi 4))
      ∧ (inRun (.suspendedWfi 4)).run = .suspendedWfi 4 := by decide

/-- In a suspension, and after a powerdown. -/
theorem test_witness_ResetOfOnePe :
    (system [inRun (.suspendedWfe 2)]).pes[0]? = some (inRun (.suspendedWfe 2))
      ∧ (inRun (.suspendedWfe 2)).run ≠ .poweredDown
      ∧ (system [inRun .poweredDown]).pes[0]? = some (inRun .poweredDown) := by decide

theorem test_witness_DebugAccessInEveryRunState :
    (system [inRun (.suspendedWfi 2)]).pes[0]? = some (inRun (.suspendedWfi 2))
      ∧ DebugReg.dbgosdlr ≠ .edscr := by decide

/-- A system that meets the invariant, with stores outstanding. -/
theorem test_witness_SystemOk :
    SystemOk { system [busy, inRun (.suspendedWfe 2)] with written := [0x200] } := by
  refine ⟨by decide, by decide, ?_⟩
  simp [system, busy, quiet, inRun, peOk, lengthOk, accessRecorded]

theorem test_witness_ResetState : State.reset.pes[0]? = some (peAtReset 0) := rfl

theorem test_witness_StepKeepsInvariant :
    ∃ t, step { system [busy, inRun (.suspendedWfe 2)] with
      written := [0x200], agenda := [.completeAccess 0 1] } = .next t := ⟨_, rfl⟩

theorem test_witness_EventRegisterClearedOnlyByWfe :
    ∃ pe', Steps (.execute 0) (systemAt (encode (.wfeA1 .al)) [{ quiet with er := true }]) 0
      { quiet with er := true } pe' ∧ pe'.er = false := ⟨_, ⟨_, rfl, rfl, rfl⟩, rfl⟩

theorem test_witness_EventRegisterSetOnlyBy :
    ∃ pe', Steps (.deliver 0) (system [{ quiet with sevq := 1 }]) 0 { quiet with sevq := 1 } pe'
      ∧ pe'.er = true := ⟨_, ⟨_, rfl, rfl, rfl⟩, rfl⟩

/-- A step of a PE powered down; a resume step; a delivery to a PE powered down; a debug register written in a suspension. -/
theorem test_witness_SuspensionHoldsUntilResumeOrReset :
    ((system [inRun .poweredDown]).pes[0]? = some (inRun .poweredDown)
        ∧ (inRun .poweredDown).run ≠ .running)
      ∧ (∃ pe', Steps (.resume 0) (system [inRun (.suspendedWfi 4)]) 0 (inRun (.suspendedWfi 4)) pe')
      ∧ (∃ pe', Steps (.deliver 0) (system [{ inRun .poweredDown with sevq := 1 }]) 0
        { inRun .poweredDown with sevq := 1 } pe')
      ∧ ∃ pe', Steps (.debugWrite 0 .edscr 1#32) (system [inRun (.suspendedWfi 4)]) 0
        (inRun (.suspendedWfi 4)) pe' :=
  ⟨⟨rfl, by decide⟩, ⟨_, _, rfl, rfl, rfl⟩, ⟨_, _, rfl, rfl, rfl⟩, _, _, rfl, rfl, rfl⟩

/-- An instruction of PE 0, and a move of the environment on PE 0, seen from PE 1. -/
theorem test_witness_PesAreIsolated :
    (∃ pe', Steps (.execute 0) (systemAt (encode (.sevA1 .al)) [quiet, quiet]) 1 quiet pe')
      ∧ (Move.execute 0).target ≠ 1
      ∧ ∃ pe', Steps (.setInputs 0 irqPending.inputs) (system [quiet, quiet]) 1 quiet pe' :=
  ⟨⟨_, _, rfl, rfl, rfl⟩, by decide, _, _, rfl, rfl, rfl⟩

theorem test_witness_ConfigurationIsFixed :
    ∃ t, stepWith (.reset 1) (system [quiet, quiet]) = .next t := ⟨_, rfl⟩

/-- A PE in its WFI state with the bus and the debug interface idle and `DBGOSDLR.DLK` 1. -/
def mayIdle : Pe :=
  { inRun (.suspendedWfi 4) with
    inputs := { inputsAtReset with busIdle := true, debugIdle := true }
    ctx := { quiet.ctx with dbgosdlr := 1#32 } }

theorem test_witness_IdleSignalNeedsIdleDebugInterface :
    let s := { system [mayIdle] with
      params := { plain with haveDoubleLock := true }, agenda := [.signalIdle 0] }
    SystemOk s ∧ ∃ t pe, step s = .next t ∧ pe ∈ t.pes ∧ pe.idle = true
      ∧ t.params.haveDoubleLock = true ∧ pe.ctx.dbgosdlr.getLsbD 0 = true := by
  refine ⟨⟨by decide, by decide, ?_⟩, _, { mayIdle with idle := true }, rfl, ?_⟩
  · simp [system, mayIdle, inRun, quiet, peOk, lengthOk]
  · decide

/-! Witnesses of the statements about runs: runs that after a few moves do nothing any more. -/

/-- A move of no PE. -/
def nobody : Move := .execute 1000

/-- The state with the step counter moved on. -/
def later (s : State) (k : Nat) : State := { s with draws := s.draws + k }

/-- A step of nobody moves the step counter on. -/
theorem stepWith_nobody (s : State) (k : Nat) (h : s.pes.length ≤ 1000) :
    stepWith nobody (later s k) = .next (later s (k + 1)) := by
  have : (later s k).tick.pes[1000]? = none := List.getElem?_eq_none h
  simp only [stepWith, nobody, executeOn, this]
  rfl

/-- One move, then nothing. -/
def oneMove (m : Move) : Nat → Move
  | 0 => m
  | _ + 1 => nobody

/-- The run of it, from its first two states. -/
def oneMoveRun (s t : State) : Nat → State
  | 0 => s
  | k + 1 => later t k

theorem oneMoveRun_isRun {m : Move} {s t : State} (h : stepWith m s = .next t)
    (hl : t.pes.length ≤ 1000) : IsRun (oneMove m) (oneMoveRun s t) := by
  intro n
  cases n with
  | zero => exact h
  | succ k => exact stepWith_nobody t k hl

/-- A store completes at 0x200, while the text at 0x100 is a given byte. -/
theorem test_witness_UnwrittenBytesNeverChange :
    let s := { system [busy] with
      mem := [(0x100, 5#8)], written := [0x200], agenda := [.completeAccess 0 1] }
    SystemOk s ∧ (∀ a, a ∉ s.written → readByte s.mem a = readByte [(0x100, 5#8)] a)
      ∧ ∃ t, step s = .next t ∧ 0x100 ∉ t.written := by
  refine ⟨⟨by decide, by decide, ?_⟩, fun _ _ => rfl, _, rfl, by decide⟩
  simp [system, busy, quiet, peOk, accessRecorded]

/-- A PE suspended with a wake request. -/
def woken (r : RunState) : Pe := { inRun r with wakereq := true }

/-- The state after PE 0 has resumed. -/
def resumed (pe : Pe) : State :=
  { system [Pe.resume { draw := 2, pe := 0 } pe] with draws := 2 }

theorem resumed_isRun (pe : Pe) :
    IsRun (oneMove (.resume 0)) (oneMoveRun (system [pe]) (resumed pe)) :=
  oneMoveRun_isRun rfl (by simp [resumed, system])

theorem resumed_fair (pe : Pe) (hq : (Pe.resume { draw := 2, pe := 0 } pe).sevq = 0)
    (hq' : pe.sevq = 0)
    (hr : (Pe.resume { draw := 2, pe := 0 } pe).run = .running) :
    Fair (oneMove (.resume 0)) (oneMoveRun (system [pe]) (resumed pe)) := by
  have get (n p : Nat) (q : Pe) (h : (oneMoveRun (system [pe]) (resumed pe) n).pes[p]? = some q) :
      p = 0 ∧ (q = pe ∧ n = 0 ∨ q = Pe.resume { draw := 2, pe := 0 } pe) := by
    cases n <;> cases p <;> simp_all [oneMoveRun, system, resumed, later]
  constructor
  · rintro n p ⟨q, hp, hm⟩
    obtain ⟨rfl, ⟨rfl, rfl⟩ | rfl⟩ := get n p q hp
    · exact ⟨0, le_refl _, .inl rfl⟩
    · simp [mustResume, hr] at hm
  · intro n p q hp h
    obtain ⟨rfl, ⟨rfl, rfl⟩ | rfl⟩ := get n p q hp <;> omega

theorem test_witness_WakeRequestEndsWfeSuspension :
    let pe := woken (.suspendedWfe 4)
    let run := oneMoveRun (system [pe]) (resumed pe)
    IsRun (oneMove (.resume 0)) run ∧ Fair (oneMove (.resume 0)) run ∧ (run 0).pes[0]? = some pe
      ∧ pe.run = .suspendedWfe 4 ∧ pe.wakereq = true := by
  refine ⟨resumed_isRun _, resumed_fair _ ?_ rfl ?_, rfl, rfl, rfl⟩
  all_goals
    simp only [Pe.resume, woken, inRun]
    split <;> rfl

theorem test_witness_WakeRequestEndsWfiSuspension :
    let pe := woken (.suspendedWfi 4)
    let run := oneMoveRun (system [pe]) (resumed pe)
    IsRun (oneMove (.resume 0)) run ∧ Fair (oneMove (.resume 0)) run ∧ (run 0).pes[0]? = some pe
      ∧ pe.run = .suspendedWfi 4 ∧ pe.wakereq = true
      ∧ ∀ k pe', 0 ≤ k → (run k).pes[0]? = some pe' → intdisActive pe' = false := by
  refine ⟨resumed_isRun _, resumed_fair _ rfl rfl rfl, rfl, rfl, rfl, ?_⟩
  intro k pe' _ h
  cases k <;> simp only [oneMoveRun, later, system, resumed, List.getElem?_cons_zero] at h <;>
    obtain rfl := Option.some.inj h <;> rfl

/-- Four moves, then nothing: PE 0 executes, the deliveries are performed, PE 1 resumes. -/
def fourMoves : Nat → Move
  | 0 => .execute 0
  | 1 => .deliver 0
  | 2 => .deliver 1
  | 3 => .resume 1
  | _ + 4 => nobody

/-- PE 0 at a `SEV`, PE 1 suspended in `WFE`. -/
def sendState : State := systemAt (encode (.sevA1 .al)) [quiet, inRun (.suspendedWfe 4)]

/-- PE 0 after its `SEV`, with `k` deliveries in flight to it and its Event Register `e`. -/
def sent (e : Bool) (k : Nat) : Pe :=
  { quiet with er := e, sevq := k, ctx := { quiet.ctx with pc := 0x8004#32 } }

/-- PE 1 after the delivery to it. -/
def told : Pe := { woken (.suspendedWfe 4) with er := true }

/-- The state with other PEs at another draw. -/
def sendStateWith (pes : List Pe) (d : Nat) : State := { sendState with pes := pes, draws := d }

/-- The run of `fourMoves`. -/
def fourMovesRun : Nat → State
  | 0 => sendState
  | 1 => sendStateWith [sent false 1, { inRun (.suspendedWfe 4) with sevq := 1 }] 2
  | 2 => sendStateWith [sent true 0, { inRun (.suspendedWfe 4) with sevq := 1 }] 3
  | 3 => sendStateWith [sent true 0, told] 4
  | k + 4 => later (sendStateWith [sent true 0, Pe.resume { draw := 5, pe := 1 } told] 5) k

theorem fourMovesRun_isRun : IsRun fourMoves fourMovesRun := by
  intro n
  match n with
  | 0 => rfl
  | 1 => rfl
  | 2 => rfl
  | 3 => rfl
  | k + 4 => exact stepWith_nobody _ k (by simp [sendStateWith])

theorem told_resumed : (Pe.resume { draw := 5, pe := 1 } told).run = .running
    ∧ (Pe.resume { draw := 5, pe := 1 } told).sevq = 0 := by
  simp only [Pe.resume, told, woken, inRun]
  split <;> exact ⟨rfl, rfl⟩

theorem fourMovesRun_fair : Fair fourMoves fourMovesRun := by
  obtain ⟨hr, hq⟩ := told_resumed
  have noPe (s : State) (p : Nat) (q : Pe) (h : s.pes[p + 2]? = some q)
      (hl : s.pes.length = 2) : False := by
    rw [List.getElem?_eq_none (by omega)] at h
    cases h
  constructor
  · rintro n p ⟨q, hp, hm⟩
    match n, p with
    | 0, 0 => obtain rfl := Option.some.inj hp; cases hm
    | 0, 1 => obtain rfl := Option.some.inj hp; cases hm
    | 1, 0 => obtain rfl := Option.some.inj hp; cases hm
    | 1, 1 => obtain rfl := Option.some.inj hp; cases hm
    | 2, 0 => obtain rfl := Option.some.inj hp; cases hm
    | 2, 1 => obtain rfl := Option.some.inj hp; cases hm
    | 3, 0 => obtain rfl := Option.some.inj hp; cases hm
    | 3, 1 => exact ⟨3, le_refl _, .inl rfl⟩
    | k + 4, 0 => obtain rfl := Option.some.inj hp; cases hm
    | k + 4, 1 =>
      obtain rfl := Option.some.inj hp
      simp [mustResume, hr] at hm
    | 0, p + 2 => exact (noPe _ p q hp rfl).elim
    | 1, p + 2 => exact (noPe _ p q hp rfl).elim
    | 2, p + 2 => exact (noPe _ p q hp rfl).elim
    | 3, p + 2 => exact (noPe _ p q hp rfl).elim
    | k + 4, p + 2 => exact (noPe _ p q hp rfl).elim
  · intro n p q hp h
    match n, p with
    | 0, 0 => obtain rfl := Option.some.inj hp; cases h
    | 0, 1 => obtain rfl := Option.some.inj hp; cases h
    | 1, 0 => exact ⟨1, le_refl _, rfl⟩
    | 1, 1 => exact ⟨2, by omega, rfl⟩
    | 2, 0 => obtain rfl := Option.some.inj hp; cases h
    | 2, 1 => exact ⟨2, le_refl _, rfl⟩
    | 3, 0 => obtain rfl := Option.some.inj hp; cases h
    | 3, 1 => obtain rfl := Option.some.inj hp; cases h
    | k + 4, 0 => obtain rfl := Option.some.inj hp; cases h
    | k + 4, 1 =>
      obtain rfl := Option.some.inj hp
      omega
    | 0, p + 2 => exact (noPe _ p q hp rfl).elim
    | 1, p + 2 => exact (noPe _ p q hp rfl).elim
    | 2, p + 2 => exact (noPe _ p q hp rfl).elim
    | 3, p + 2 => exact (noPe _ p q hp rfl).elim
    | k + 4, p + 2 => exact (noPe _ p q hp rfl).elim

/-- The second clause from state 0, where PE 0 executes the `SEV`; the first from state 1, where the
delivery to PE 1 is in flight. -/
theorem test_witness_SevWakesASuspendedPe :
    IsRun fourMoves fourMovesRun ∧ Fair fourMoves fourMovesRun ∧ fourMoves 0 = .execute 0
      ∧ (fourMovesRun 0).pes[0]? = some quiet ∧ quiet.run = .running
      ∧ quiet.inputs.otherException = false
      ∧ fetch (fourMovesRun 0) quiet = .instr (.sevA1 .al) ∧ instrOp (.sevA1 .al) = .sev
      ∧ conditionPassed (instrForm (.sevA1 .al)) quiet.ctx = true
      ∧ (fourMovesRun 0).pes[1]? = some (inRun (.suspendedWfe 4))
      ∧ (inRun (.suspendedWfe 4)).run = .suspendedWfe 4
      ∧ (fourMovesRun 1).pes[1]? = some { inRun (.suspendedWfe 4) with sevq := 1 } :=
  ⟨fourMovesRun_isRun, fourMovesRun_fair, rfl, rfl, rfl, rfl, rfl, rfl, rfl, rfl, rfl, rfl⟩

end Sys2Proof.Tests
end

section
/-! PROOFS. The configuration (R4; log entries 4 and 11): no operation on a PE writes its reset values,
so no step does, and the parameters and the number of PEs are `stepWith_system`. -/

namespace Sys2Proof.Machine

/-! The reset values under each operation on a PE. -/

@[simp] theorem noteWfeEvent_hostReset (pe : Pe) : pe.noteWfeEvent.hostReset = pe.hostReset := by
  rw [noteWfeEvent_eq]

@[simp] theorem noteWfiEvent_hostReset (pe : Pe) : pe.noteWfiEvent.hostReset = pe.hostReset := by
  rw [noteWfiEvent_eq]

@[simp] theorem receiveEvent_hostReset (pe : Pe) : pe.receiveEvent.hostReset = pe.hostReset := by
  simp [Pe.receiveEvent]

@[simp] theorem performDelivery_hostReset (pe : Pe) :
    pe.performDelivery.hostReset = pe.hostReset := by
  unfold Pe.performDelivery
  split
  · rfl
  · exact receiveEvent_hostReset pe

@[simp] theorem clearMonitor_hostReset (pr : Params) (pe : Pe) :
    (pe.clearMonitor pr).hostReset = pe.hostReset := noteWfeEvent_hostReset pe

@[simp] theorem changeInputs_hostReset (pr : Params) (i : Inputs) (pe : Pe) :
    (pe.changeInputs pr i).hostReset = pe.hostReset := by
  rw [changeInputs_eq]

@[simp] theorem resume_hostReset (o : Occasion) (pe : Pe) :
    (pe.resume o).hostReset = pe.hostReset := by
  cases hr : pe.run with
  | running => rw [resume_other o pe (.inl hr)]
  | poweredDown => rw [resume_other o pe (.inr hr)]
  | suspendedWfe len => rw [resume_wfe o pe len hr]
  | suspendedWfi len => rw [resume_wfi o pe len hr]

@[simp] theorem reset_hostReset (o : Occasion) (pe : Pe) :
    (pe.reset o).hostReset = pe.hostReset := rfl

@[simp] theorem debugWrite_hostReset (pr : Params) (reg : DebugReg) (v : Word) (pe : Pe) :
    (pe.debugWrite pr reg v).hostReset = pe.hostReset := by
  cases reg <;> rfl

@[simp] theorem signalIdle_hostReset (pr : Params) (pe : Pe) :
    (pe.signalIdle pr).hostReset = pe.hostReset := by
  unfold Pe.signalIdle
  cases pe.run <;> rfl

theorem hostInstruction_hostReset (s : State) {f : Pe → Pe} {pe : Pe}
    (hf : (f pe).hostReset = pe.hostReset) :
    (pe.hostInstruction s f).hostReset = pe.hostReset := by
  rcases hostInstruction_cases s f pe with e | ⟨-, -, e⟩
  · rw [e]
  · rw [e, hf]

theorem ifRunning_hostReset {f : Pe → Pe} {pe : Pe} (hf : (f pe).hostReset = pe.hostReset) :
    (pe.ifRunning f).hostReset = pe.hostReset := by
  rcases ifRunning_cases f pe with ⟨-, e⟩ | ⟨-, e⟩
  · rw [e]
  · rw [e, hf]

@[simp] theorem waitForEvent_hostReset (o : Occasion) (pr : Params) (f : Form) (pe : Pe) :
    (waitForEvent o pr f pe).hostReset = pe.hostReset := by
  rcases waitForEvent_cases o pr f pe with
    ⟨-, e⟩ | ⟨-, e⟩ | ⟨-, r, -, -, -, -, e⟩ | ⟨-, -, -, -, e⟩ <;> simp [e]

@[simp] theorem waitForInterrupt_hostReset (o : Occasion) (pr : Params) (f : Form) (pe : Pe) :
    (waitForInterrupt o pr f pe).hostReset = pe.hostReset := by
  rcases waitForInterrupt_cases o pr f pe with
    e | ⟨r, -, -, -, e⟩ | ⟨-, -, -, e⟩ | ⟨-, -, -, -, e⟩ <;> simp [e]

@[simp] theorem takeOtherException_hostReset (o : Occasion) (pe : Pe) :
    (takeOtherException o pe).hostReset = pe.hostReset := rfl

/-! The reset values under a move, an instruction and a step. -/

/-- No move of the environment writes the reset values of a PE: not even a reset, which reads them. -/
theorem moveOnPe_hostReset (m : Move) (s : State) (p : Nat) (pe : Pe) :
    (moveOnPe m s p pe).hostReset = pe.hostReset := by
  by_cases ht : m.target = p
  · subst ht
    cases m with
    | hostStep q c => simpa [moveOnPe, Move.target] using hostInstruction_hostReset s rfl
    | exceptionReturn q c => simpa [moveOnPe, Move.target] using hostInstruction_hostReset s rfl
    | issueAccess q a => simpa [moveOnPe, Move.target] using hostInstruction_hostReset s rfl
    | holdMonitor q => simpa [moveOnPe, Move.target] using hostInstruction_hostReset s rfl
    | enterException q c => simpa [moveOnPe, Move.target] using ifRunning_hostReset rfl
    | _ => simp [moveOnPe, Move.target]
  · rw [moveOnPe_other m s p pe ht]

/-- No instruction writes the reset values of a PE, the executing one included. -/
theorem instrOnPe_hostReset (i : Instr) (s : State) (p : Nat) (pe : Pe) :
    (instrOnPe i s p pe).hostReset = pe.hostReset := by
  by_cases h : p = s.cur
  · subst h
    rw [instrOnPe_cur]
    cases instrOp i with
    | dsb => dsimp only; split <;> simp
    | _ => simp
  · rcases instrOnPe_other i s p pe h with e | ⟨-, e⟩ <;> simp [e]

/-- A PE keeps its reset values in every step. -/
theorem stepWith_hostReset {m : Move} {s t : State} {p : Nat} {pe : Pe}
    (h : stepWith m s = .next t) (hp : s.pes[p]? = some pe) :
    ∃ pe', t.pes[p]? = some pe' ∧ pe'.hostReset = pe.hostReset := by
  rcases stepWith_get h hp with
    ⟨-, -, e⟩ | ⟨q, -, e | ⟨me, -, -, ⟨-, e⟩ | ⟨-, i, -, -, ⟨-, e⟩ | ⟨-, e⟩⟩⟩⟩
  · exact ⟨_, e, moveOnPe_hostReset m s.tick p pe⟩
  · exact ⟨_, e, rfl⟩
  · exact ⟨_, e, by split <;> simp⟩
  · exact ⟨_, e, by split <;> simp⟩
  · exact ⟨_, e, instrOnPe_hostReset i _ p pe⟩

/-- The reset values of all PEs, in order, are the same after every step. -/
theorem stepWith_map_hostReset {m : Move} {s t : State} (h : stepWith m s = .next t) :
    t.pes.map Pe.hostReset = s.pes.map Pe.hostReset := by
  obtain ⟨-, hlen, -⟩ := stepWith_system h
  refine List.ext_getElem? fun p => ?_
  rw [List.getElem?_map, List.getElem?_map]
  cases hp : s.pes[p]? with
  | none =>
    have ht : t.pes[p]? = none := by
      rw [List.getElem?_eq_none_iff] at hp ⊢
      omega
    rw [ht]
  | some pe =>
    obtain ⟨pe', ht, hr⟩ := stepWith_hostReset h hp
    rw [ht, Option.map_some, Option.map_some, hr]

/-- Settles O56: parameters and number of PEs by `stepWith_system`, reset values PE by PE. -/
theorem configurationIsFixed : Obligations.ConfigurationIsFixed := by
  intro m s t h
  obtain ⟨hparams, hlen, -⟩ := stepWith_system h
  exact ⟨hparams, hlen, stepWith_map_hostReset h⟩

end Sys2Proof.Machine
end

section
/-! PROOFS. The invariant (R17, R18, R28, R45, R154): each part of `SystemOk` is kept by every move, the
outstanding accesses and the fields of a PE by every operation on it. -/

namespace Sys2Proof.Machine

/-! The outstanding accesses of a PE under each operation, and what has been recorded as written. -/

@[simp] theorem performDelivery_accesses (pe : Pe) :
    pe.performDelivery.accesses = pe.accesses := by
  unfold Pe.performDelivery
  split
  · rfl
  · simp [Pe.receiveEvent, noteWfeEvent_eq]

@[simp] theorem resume_accesses (o : Occasion) (pe : Pe) :
    (pe.resume o).accesses = pe.accesses := by
  cases hr : pe.run with
  | running => rw [resume_other o pe (.inl hr)]
  | poweredDown => rw [resume_other o pe (.inr hr)]
  | suspendedWfe len => rw [resume_wfe o pe len hr]
  | suspendedWfi len => rw [resume_wfi o pe len hr]

@[simp] theorem debugWrite_accesses (pr : Params) (reg : DebugReg) (v : Word) (pe : Pe) :
    (pe.debugWrite pr reg v).accesses = pe.accesses := by
  cases reg <;> rfl

@[simp] theorem signalIdle_accesses (pr : Params) (pe : Pe) :
    (pe.signalIdle pr).accesses = pe.accesses := by
  unfold Pe.signalIdle
  cases pe.run <;> rfl

theorem hostInstruction_accesses (s : State) {f : Pe → Pe} {pe : Pe}
    (hf : (f pe).accesses = pe.accesses) :
    (pe.hostInstruction s f).accesses = pe.accesses := by
  rcases hostInstruction_cases s f pe with e | ⟨-, -, e⟩
  · rw [e]
  · rw [e, hf]

/-- The outstanding accesses of a PE under a move of the environment: an instruction of the host adds
one at the end, the memory system takes one away, nothing else changes them. -/
theorem moveOnPe_accesses (m : Move) (s : State) (p : Nat) (pe : Pe) :
    (moveOnPe m s p pe).accesses = pe.accesses
    ∨ (∃ a, m = .issueAccess p a ∧ runsHostInstruction s pe = true
        ∧ (moveOnPe m s p pe).accesses = pe.accesses ++ [a])
    ∨ ∃ k, m = .completeAccess p k
        ∧ (moveOnPe m s p pe).accesses = pe.accesses.eraseIdx k := by
  by_cases ht : m.target = p
  · subst ht
    cases m with
    | issueAccess q a =>
      simp only [moveOnPe, Move.target, if_true]
      rcases hostInstruction_cases s (Pe.issueAccess a) pe with e | ⟨hr, -, e⟩
      · exact .inl (by rw [e])
      · exact .inr (.inl ⟨a, rfl, hr, by rw [e]; rfl⟩)
    | completeAccess q k => exact .inr (.inr ⟨k, rfl, by simp [moveOnPe, Move.target]⟩)
    | hostStep q c => exact .inl (by simpa [moveOnPe, Move.target] using hostInstruction_accesses s rfl)
    | exceptionReturn q c =>
      exact .inl (by simpa [moveOnPe, Move.target] using hostInstruction_accesses s rfl)
    | holdMonitor q => exact .inl (by simpa [moveOnPe, Move.target] using hostInstruction_accesses s rfl)
    | enterException q c =>
      left
      simp only [moveOnPe, Move.target, if_true]
      rcases ifRunning_cases (fun x => { x with ctx := c }) pe with ⟨-, e⟩ | ⟨-, e⟩ <;> rw [e]
    | _ =>
      simp [moveOnPe, Move.target, Pe.receiveEvent, Pe.clearMonitor, Pe.reset, noteWfeEvent_eq,
        noteWfiEvent_eq, changeInputs_eq]
  · exact .inl (by rw [moveOnPe_other m s p pe ht])

@[simp] theorem waitForEvent_accesses (o : Occasion) (pr : Params) (f : Form) (pe : Pe) :
    (waitForEvent o pr f pe).accesses = pe.accesses := by
  rcases waitForEvent_cases o pr f pe with
    ⟨-, e⟩ | ⟨-, e⟩ | ⟨-, r, -, -, -, -, e⟩ | ⟨-, -, -, -, e⟩ <;> simp [e]

@[simp] theorem waitForInterrupt_accesses (o : Occasion) (pr : Params) (f : Form) (pe : Pe) :
    (waitForInterrupt o pr f pe).accesses = pe.accesses := by
  rcases waitForInterrupt_cases o pr f pe with
    e | ⟨r, -, -, -, e⟩ | ⟨-, -, -, e⟩ | ⟨-, -, -, -, e⟩ <;> simp [e]

/-- No instruction of this spec issues or completes a memory access. -/
theorem instrOnPe_accesses (i : Instr) (s : State) (p : Nat) (pe : Pe) :
    (instrOnPe i s p pe).accesses = pe.accesses := by
  by_cases h : p = s.cur
  · subst h
    rw [instrOnPe_cur]
    cases instrOp i with
    | dsb => dsimp only; split <;> simp
    | _ => simp
  · rcases instrOnPe_other i s p pe h with e | ⟨-, e⟩ <;> simp [e]

/-- What is recorded as written stays recorded when an access is issued. -/
theorem accessRecorded_noteWritten {written : List Nat} {a : Access} (b : Access)
    (h : accessRecorded written a) : accessRecorded (noteWritten written b) a := by
  cases a with
  | load x => trivial
  | store x v =>
    cases b with
    | load y => exact h
    | store y w =>
      change x.toNat ∈ written at h
      change x.toNat ∈ (if y.toNat ∈ written then written else y.toNat :: written)
      split
      · exact h
      · exact List.mem_cons_of_mem _ h

/-- An access that is issued is recorded (R45). -/
theorem noteWritten_records (written : List Nat) (a : Access) :
    accessRecorded (noteWritten written a) a := by
  cases a with
  | load x => trivial
  | store x v =>
    change x.toNat ∈ (if x.toNat ∈ written then written else x.toNat :: written)
    split
    · assumption
    · exact List.mem_cons_self

/-- What is recorded as written stays recorded under every move of the environment. -/
theorem accessRecorded_environment (m : Move) {s : State} {a : Access}
    (h : accessRecorded s.written a) : accessRecorded (environment m s).written a := by
  rcases environment_written m s with e | ⟨-, b, -, e⟩
  · rwa [e]
  · rw [e]
    exact accessRecorded_noteWritten b h

/-- Every outstanding access of a PE is recorded as written after a move of the environment, the one
just issued included. -/
theorem environment_accessRecorded (m : Move) {s : State} {p : Nat} {pe : Pe}
    (hp : s.pes[p]? = some pe) (h : ∀ a ∈ pe.accesses, accessRecorded s.written a) :
    ∀ a ∈ (moveOnPe m s p pe).accesses, accessRecorded (environment m s).written a := by
  intro a ha
  rcases moveOnPe_accesses m s p pe with e | ⟨b, rfl, hr, e⟩ | ⟨k, -, e⟩ <;> rw [e] at ha
  · exact accessRecorded_environment m (h a ha)
  · rcases List.mem_append.mp ha with ha | ha
    · exact accessRecorded_environment _ (h a ha)
    · obtain rfl := List.mem_singleton.mp ha
      have hw : (environment (.issueAccess p a) s).written = noteWritten s.written a := by
        simp [environment, issueAccess, hp, hr]
      rw [hw]
      exact noteWritten_records s.written a
  · exact accessRecorded_environment m (h a (List.mem_of_mem_eraseIdx ha))

/-- A PE's own step leaves memory and what is recorded as written. -/
theorem stepWith_execute_memory {q : Nat} {s t : State} (h : stepWith (.execute q) s = .next t) :
    t.mem = s.mem ∧ t.written = s.written := by
  obtain ⟨-, -, ⟨hm, -⟩ | ⟨-, hmem⟩⟩ := stepWith_system h
  · exact absurd rfl (hm q)
  · exact hmem

/-- No PE's own step issues or completes a memory access. -/
theorem stepWith_execute_accesses {q : Nat} {s t : State} {p : Nat} {pe pe' : Pe}
    (h : stepWith (.execute q) s = .next t) (hp : s.pes[p]? = some pe)
    (hp' : t.pes[p]? = some pe') : pe'.accesses = pe.accesses := by
  rcases stepWith_get h hp with
    ⟨hm, -⟩ | ⟨q', -, e | ⟨me, -, -, ⟨-, e⟩ | ⟨-, i, -, -, ⟨-, e⟩ | ⟨-, e⟩⟩⟩⟩
  · exact absurd rfl (hm q)
  all_goals obtain rfl := Option.some.inj (hp'.symm.trans e)
  · rfl
  · split <;> rfl
  · split <;> rfl
  · exact instrOnPe_accesses i _ p pe

/-- Every outstanding access of a PE is recorded as written after every step. -/
theorem stepWith_accessRecorded {m : Move} {s t : State} {p : Nat} {pe pe' : Pe}
    (h : stepWith m s = .next t) (hp : s.pes[p]? = some pe) (hp' : t.pes[p]? = some pe')
    (hrec : ∀ a ∈ pe.accesses, accessRecorded s.written a) :
    ∀ a ∈ pe'.accesses, accessRecorded t.written a := by
  rcases stepWith_get h hp with ⟨-, rfl, e⟩ | ⟨q, rfl, -⟩
  · obtain rfl := Option.some.inj (hp'.symm.trans e)
    exact environment_accessRecorded m (s := s.tick) hp hrec
  · obtain ⟨-, hw⟩ := stepWith_execute_memory h
    rwa [hw, stepWith_execute_accesses h hp hp']

/-! The fields of a PE fit together (`peOk`) under each operation. -/

/-- Two Running PEs with the same wake request and idle signal fit together alike: nothing else of a
Running PE is read. -/
theorem peOk_of_running {pr : Params} {pe pe' : Pe} (h : peOk pr pe = true) (hr : pe.run = .running)
    (hr' : pe'.run = .running) (hw : pe'.wakereq = pe.wakereq) (hi : pe'.idle = pe.idle) :
    peOk pr pe' = true := by
  simpa only [peOk, hr, hr', hw, hi] using h

theorem noteWfeEvent_peOk {pr : Params} {pe : Pe} (h : peOk pr pe = true) :
    peOk pr pe.noteWfeEvent = true := by
  unfold Pe.noteWfeEvent
  cases hr : pe.run with
  | suspendedWfe len => simpa [peOk, hr] using h
  | _ => exact h

theorem noteWfiEvent_peOk {pr : Params} {pe : Pe} (h : peOk pr pe = true) :
    peOk pr pe.noteWfiEvent = true := by
  unfold Pe.noteWfiEvent
  cases hr : pe.run with
  | suspendedWfi len => simpa [peOk, hr, idleAllowed] using h
  | _ => exact h

theorem performDelivery_peOk {pr : Params} {pe : Pe} (h : peOk pr pe = true) :
    peOk pr pe.performDelivery = true := by
  unfold Pe.performDelivery
  split
  · exact h
  · exact noteWfeEvent_peOk (pe := pe.setEventRegister) h

@[simp] theorem settleIdle_idleAllowed (pr : Params) (pe : Pe) :
    idleAllowed pr (pe.settleIdle pr) = idleAllowed pr pe := rfl

/-- Whatever has become of the context, the inputs and a suspended PE's wake request, the fields fit
together once the idle signal is withdrawn where R154 no longer allows it. -/
theorem settleIdle_peOk {pr : Params} {pe pe' : Pe} (h : peOk pr pe = true)
    (hr : pe'.run = pe.run) (hi : pe'.idle = pe.idle)
    (hw : pe.run = .running ∨ pe.run = .poweredDown → pe'.wakereq = pe.wakereq) :
    peOk pr (pe'.settleIdle pr) = true := by
  have hr' : (pe'.settleIdle pr).run = pe.run := hr
  have hi' : (pe'.settleIdle pr).idle = (pe.idle && idleAllowed pr pe') := by rw [← hi]; rfl
  have hw' : pe.run = .running ∨ pe.run = .poweredDown →
      (pe'.settleIdle pr).wakereq = pe.wakereq := hw
  cases hrun : pe.run <;> cases ha : idleAllowed pr pe' <;> simp_all [peOk]

theorem changeInputs_peOk {pr : Params} (i : Inputs) {pe : Pe} (h : peOk pr pe = true) :
    peOk pr (pe.changeInputs pr i) = true := by
  unfold Pe.changeInputs
  split
  · rw [noteLevels_eq]
    refine settleIdle_peOk h rfl rfl ?_
    rintro (hr | hr) <;> simp [hr]
  · exact settleIdle_peOk h rfl rfl fun _ => rfl

theorem debugWrite_peOk {pr : Params} (reg : DebugReg) (v : Word) {pe : Pe}
    (h : peOk pr pe = true) : peOk pr (pe.debugWrite pr reg v) = true := by
  cases reg <;> exact settleIdle_peOk h rfl rfl fun _ => rfl

theorem signalIdle_peOk {pr : Params} {pe : Pe} (h : peOk pr pe = true) :
    peOk pr (pe.signalIdle pr) = true := by
  have ha : (!idleAllowed pr pe || idleAllowed pr { pe with idle := idleAllowed pr pe }) = true :=
    Bool.not_or_self _
  unfold Pe.signalIdle
  cases hr : pe.run <;> simp_all only [peOk, Bool.and_eq_true, and_true]

theorem resume_peOk {pr : Params} (o : Occasion) {pe : Pe} (h : peOk pr pe = true) :
    peOk pr (pe.resume o) = true := by
  cases hr : pe.run with
  | running => rwa [resume_other o pe (.inl hr)]
  | poweredDown => rwa [resume_other o pe (.inr hr)]
  | suspendedWfe len => rw [resume_wfe o pe len hr]; rfl
  | suspendedWfi len => rw [resume_wfi o pe len hr]; rfl

theorem hostInstruction_peOk {pr : Params} (s : State) {f : Pe → Pe} {pe : Pe}
    (h : peOk pr pe = true) (hf : pe.run = .running → peOk pr (f pe) = true) :
    peOk pr (pe.hostInstruction s f) = true := by
  rcases hostInstruction_cases s f pe with e | ⟨-, hr, e⟩
  · rwa [e]
  · rw [e]
    exact hf hr

theorem ifRunning_peOk {pr : Params} {f : Pe → Pe} {pe : Pe}
    (h : peOk pr pe = true) (hf : pe.run = .running → peOk pr (f pe) = true) :
    peOk pr (pe.ifRunning f) = true := by
  rcases ifRunning_cases f pe with ⟨-, e⟩ | ⟨hr, e⟩
  · rwa [e]
  · rw [e]
    exact hf hr

/-- Every move of the environment leaves the fields of a PE fitting together. -/
theorem moveOnPe_peOk (m : Move) (s : State) (p : Nat) {pe : Pe} (h : peOk s.params pe = true) :
    peOk s.params (moveOnPe m s p pe) = true := by
  by_cases ht : m.target = p
  · subst ht
    have hhost : ∀ f : Pe → Pe, (pe.run = .running → peOk s.params (f pe) = true) →
        peOk s.params (pe.hostInstruction s f) = true := fun f => hostInstruction_peOk s h
    cases m <;> simp only [moveOnPe, Move.target, if_true]
    case execute => exact h
    case deliver => exact performDelivery_peOk h
    case timerStreamEvent => exact noteWfeEvent_peOk (pe := pe.setEventRegister) h
    case implEvent => exact noteWfeEvent_peOk (pe := pe.setEventRegister) h
    case globalMonitorCleared => exact noteWfeEvent_peOk h
    case implWfiEvent => exact noteWfiEvent_peOk h
    case setInputs i => exact changeInputs_peOk i h
    case resume => exact resume_peOk _ h
    case reset => rfl
    case hostStep => exact hhost _ fun hr => peOk_of_running h hr hr rfl rfl
    case exceptionReturn => exact hhost _ fun hr => peOk_of_running h hr hr rfl rfl
    case enterException => exact ifRunning_peOk h fun hr => peOk_of_running h hr hr rfl rfl
    case issueAccess => exact hhost _ fun _ => h
    case completeAccess => exact h
    case holdMonitor => exact hhost _ fun _ => h
    case debugWrite reg v => exact debugWrite_peOk reg v h
    case signalIdle => exact signalIdle_peOk h
  · rwa [moveOnPe_other m s p pe ht]

/-- An instruction is two or four bytes long (R50). -/
theorem instrForm_lengthOk (i : Instr) : lengthOk (instrForm i).len = true := by
  cases i <;> rfl

/-- A Running PE with no wake request and no idle signal still fits together after a `WFE`: a
suspension keeps the instruction's length. -/
theorem waitForEvent_peOk {pr : Params} (o : Occasion) {f : Form} {pe : Pe} (h : peOk pr pe = true)
    (hr : pe.run = .running) (hf : lengthOk f.len = true) :
    peOk pr (waitForEvent o pr f pe) = true := by
  rcases waitForEvent_cases o pr f pe with
    ⟨-, e⟩ | ⟨-, e⟩ | ⟨-, r, -, -, -, -, e⟩ | ⟨-, -, -, -, e⟩ <;> rw [e]
  · exact peOk_of_running h hr hr rfl rfl
  · exact peOk_of_running h hr hr rfl rfl
  · exact peOk_of_running h hr hr rfl rfl
  · simp_all [peOk]

/-- The same of a `WFI`, which may also power the PE down. -/
theorem waitForInterrupt_peOk {pr : Params} (o : Occasion) {f : Form} {pe : Pe}
    (h : peOk pr pe = true) (hr : pe.run = .running) (hf : lengthOk f.len = true) :
    peOk pr (waitForInterrupt o pr f pe) = true := by
  rcases waitForInterrupt_cases o pr f pe with
    e | ⟨r, -, -, -, e⟩ | ⟨-, -, -, e⟩ | ⟨-, -, -, -, e⟩ <;> rw [e]
  · exact peOk_of_running h hr hr rfl rfl
  · exact peOk_of_running h hr hr rfl rfl
  · simp_all [peOk]
  · simp_all [peOk]

/-- An instruction executed by a Running PE leaves the fields of every PE fitting together. -/
theorem instrOnPe_peOk (i : Instr) (s : State) (p : Nat) {pe : Pe} (h : peOk s.params pe = true)
    (hr : p = s.cur → pe.run = .running) : peOk s.params (instrOnPe i s p pe) = true := by
  by_cases hc : p = s.cur
  · have hrun := hr hc
    subst hc
    rw [instrOnPe_cur]
    cases instrOp i with
    | wfe => exact waitForEvent_peOk _ h hrun (instrForm_lengthOk i)
    | wfi => exact waitForInterrupt_peOk _ h hrun (instrForm_lengthOk i)
    | sev => exact peOk_of_running h hrun hrun rfl rfl
    | sevl => exact peOk_of_running h hrun hrun rfl rfl
    | dsb =>
      dsimp only
      split
      · exact peOk_of_running h hrun hrun rfl rfl
      · exact h
  · rcases instrOnPe_other i s p pe hc with e | ⟨-, e⟩ <;> rw [e] <;> exact h

/-- Every step leaves the fields of a PE fitting together. -/
theorem stepWith_peOk {m : Move} {s t : State} {p : Nat} {pe pe' : Pe}
    (h : stepWith m s = .next t) (hp : s.pes[p]? = some pe) (hp' : t.pes[p]? = some pe')
    (hok : peOk s.params pe = true) : peOk s.params pe' = true := by
  rcases stepWith_get h hp with
    ⟨-, -, e⟩ | ⟨q, -, e | ⟨me, hme, hr, hcase⟩⟩
  · obtain rfl := Option.some.inj (hp'.symm.trans e)
    exact moveOnPe_peOk m s.tick p hok
  · obtain rfl := Option.some.inj (hp'.symm.trans e)
    exact hok
  have hrun : p = q → pe.run = .running := by
    rintro rfl
    obtain rfl := Option.some.inj (hp.symm.trans hme)
    exact hr
  rcases hcase with ⟨-, e⟩ | ⟨-, i, -, -, ⟨-, e⟩ | ⟨-, e⟩⟩
  all_goals obtain rfl := Option.some.inj (hp'.symm.trans e)
  · split
    case isTrue hq => exact peOk_of_running hok (hrun hq) (hrun hq) rfl rfl
    case isFalse => exact hok
  · split
    case isTrue hq => exact peOk_of_running hok (hrun hq) (hrun hq) rfl rfl
    case isFalse => exact hok
  · exact instrOnPe_peOk i { s.tick with cur := q } p hok hrun

/-! The rest of the system, and the invariant. -/

/-- Every step keeps memory canonical. -/
theorem stepWith_mem_wf {m : Move} {s t : State} (h : stepWith m s = .next t)
    (hmem : s.mem.wf = true) : t.mem.wf = true := by
  obtain ⟨-, -, ⟨-, rfl⟩ | ⟨-, e, -⟩⟩ := stepWith_system h
  · rcases environment_mem m s.tick with e | ⟨-, -, -, a, -, -, -, e⟩ <;> rw [e]
    · exact hmem
    · exact performAccess_wf s.mem a hmem
  · rwa [e]

/-- After every step the executing PE is one of the system. -/
theorem stepWith_cur_lt {m : Move} {s t : State} (h : stepWith m s = .next t)
    (hcur : s.cur < s.pes.length) : t.cur < t.pes.length := by
  obtain ⟨-, hlen, ⟨-, rfl⟩ | ⟨⟨q, -, e | ⟨e, hq⟩⟩, -⟩⟩ := stepWith_system h
  · obtain ⟨-, e⟩ := environment_params m s.tick
    rw [hlen, e]
    exact hcur
  · rwa [hlen, e]
  · rwa [hlen, e]

/-- Every PE of the state after a step was one of the state before it, under the same number. -/
theorem stepWith_pe_of_mem {m : Move} {s t : State} {pe' : Pe} (h : stepWith m s = .next t)
    (hmem : pe' ∈ t.pes) :
    ∃ (p : Nat) (pe : Pe), s.pes[p]? = some pe ∧ t.pes[p]? = some pe' := by
  obtain ⟨-, hlen, -⟩ := stepWith_system h
  obtain ⟨p, hp'⟩ := List.mem_iff_getElem?.mp hmem
  obtain ⟨hlt, -⟩ := List.getElem?_eq_some_iff.mp hp'
  exact ⟨p, s.pes[p], List.getElem?_eq_getElem (hlen ▸ hlt), hp'⟩

/-- Every move keeps the invariant. -/
theorem stepWith_systemOk {m : Move} {s t : State} (hs : SystemOk s)
    (h : stepWith m s = .next t) : SystemOk t := by
  obtain ⟨hmem, hcur, hpes⟩ := hs
  obtain ⟨hparams, -, -⟩ := stepWith_system h
  refine ⟨stepWith_mem_wf h hmem, stepWith_cur_lt h hcur, fun pe' hpe' => ?_⟩
  obtain ⟨p, pe, hp, hp'⟩ := stepWith_pe_of_mem h hpe'
  obtain ⟨hok, hrec⟩ := hpes pe (List.mem_of_getElem? hp)
  rw [hparams]
  exact ⟨stepWith_peOk h hp hp' hok, stepWith_accessRecorded h hp hp' hrec⟩

/-- Settles O49: a step is a move, and taking the move off the agenda touches nothing the invariant
speaks of. -/
theorem stepKeepsInvariant : Obligations.StepKeepsInvariant := by
  intro s t hs h
  exact stepWith_systemOk (s := s.dropMove) hs h

end Sys2Proof.Machine
end

section
/-! PROOFS. Where an executed instruction leaves the pc (R25, R27, R50). -/

namespace Sys2Proof.Machine

/-- The encoding of an instruction has as many bytes as its form says. -/
theorem encode_length (i : Instr) : (encode i).length = (instrForm i).len := by
  cases i <;> rfl

/-- Inside the address space the pc moves by the length. -/
theorem advancePc_toNat {pc : Word} {len : Nat} (h : pc.toNat + len < addressTop) :
    (advancePc pc len).toNat = pc.toNat + len := by
  unfold advancePc
  rw [if_pos h]
  unfold addressTop at h
  rw [BitVec.toNat_add, BitVec.toNat_ofNat]
  omega

/-- What an instruction executed by a Running PE leaves of that PE: it moves past an instruction whose
condition fails, or the operation is carried out. -/
theorem exec_running {i : Instr} {s t : State} {pe pe' : Pe} (h : exec i s = .next t)
    (hp : s.pes[s.cur]? = some pe) (hp' : t.pes[s.cur]? = some pe') (hr : pe.run = .running) :
    pe' = pe.complete (instrForm i).len ∨ pe' = instrOnPe i s s.cur pe := by
  cases hw : i.wellFormed with
  | false =>
    obtain ⟨o, -, -, e⟩ := exec_refused hw s
    simp [e] at h
  | true =>
    rw [exec_eq hw] at h
    rcases executeHint_cases (instrForm i) (instrEffect i) s with
      ⟨-, e⟩ | ⟨me, hm, hcase⟩
    · simp [e] at h
    obtain rfl := Option.some.inj (hp.symm.trans hm)
    rcases hcase with ⟨hn, -⟩ | ⟨-, -, e⟩ | ⟨-, -, e⟩
    · exact absurd hr hn
    · obtain rfl := Host.Outcome.next.inj (e.symm.trans h)
      left
      simpa [hp] using hp'.symm
    · obtain rfl := Host.Outcome.next.inj (e.symm.trans h)
      right
      exact Option.some.inj (hp'.symm.trans (instrEffect_get i hm hp))

/-- Settles O9: the outcomes of each operation, one by one; every one that completes moves the pc by
the instruction's length. -/
theorem pcMovesByTheLength : Obligations.PcMovesByTheLength := by
  intro i s t pe pe' h hp hp' hr htop
  rw [encode_length] at *
  have completes : ∀ x : Pe, x.run = .running → x.ctx = (pe.complete (instrForm i).len).ctx →
      x.run = .running ∧ x.ctx.pc.toNat = pe.ctx.pc.toNat + (instrForm i).len := by
    intro x hx hc
    exact ⟨hx, by rw [hc, complete_pc, advancePc_toNat htop]⟩
  rcases exec_running h hp hp' hr with rfl | hpe'
  · exact .inl (completes _ hr rfl)
  rw [instrOnPe_cur] at hpe'
  cases hop : instrOp i <;> simp only [hop] at hpe'
  case wfe =>
    rcases waitForEvent_cases s.occasion s.params (instrForm i) pe with
      ⟨-, e⟩ | ⟨-, e⟩ | ⟨-, r, htrap, hkind, hpc, -, e⟩ | ⟨-, -, -, -, e⟩ <;>
      obtain rfl := hpe'.trans e
    · exact .inl (completes _ hr rfl)
    · exact .inl (completes _ hr rfl)
    · exact .inr (.inr (.inl ⟨r, hkind ▸ htrap, hpc, .inl ⟨rfl, hkind⟩, rfl⟩))
    · exact .inr (.inl ⟨rfl, .inl ⟨rfl, rfl⟩⟩)
  case wfi =>
    rcases waitForInterrupt_cases s.occasion s.params (instrForm i) pe with
      e | ⟨r, htrap, hkind, hpc, e⟩ | ⟨hpd, -, -, e⟩ | ⟨-, -, -, -, e⟩ <;>
      obtain rfl := hpe'.trans e
    · exact .inl (completes _ hr rfl)
    · exact .inr (.inr (.inl ⟨r, hkind ▸ htrap, hpc, .inr ⟨rfl, hkind⟩, rfl⟩))
    · exact .inr (.inr (.inr ⟨rfl, hpd, rfl⟩))
    · exact .inr (.inl ⟨rfl, .inr (.inl ⟨rfl, rfl⟩)⟩)
  case sev => exact .inl (completes _ (hpe' ▸ hr) (hpe' ▸ rfl))
  case sevl => exact .inl (completes _ (hpe' ▸ hr) (hpe' ▸ rfl))
  case dsb =>
    split at hpe' <;> subst hpe'
    · exact .inl (completes _ hr rfl)
    · rename_i ha
      exact .inr (.inl ⟨rfl, .inr (.inr ⟨rfl, ha, rfl⟩)⟩)

end Sys2Proof.Machine
end

section
/-! PROOFS. What sets and what clears the Event Register (R13, R14): the register under each operation
on a PE, and under a step, said once for both directions. -/

namespace Sys2Proof.Machine

@[simp] theorem noteWfeEvent_er (pe : Pe) : pe.noteWfeEvent.er = pe.er := by
  rw [noteWfeEvent_eq]

@[simp] theorem noteWfiEvent_er (pe : Pe) : pe.noteWfiEvent.er = pe.er := by
  rw [noteWfiEvent_eq]

@[simp] theorem receiveEvent_er (pe : Pe) : pe.receiveEvent.er = true := by
  simp [Pe.receiveEvent]

@[simp] theorem clearMonitor_er (pr : Params) (pe : Pe) :
    (pe.clearMonitor pr).er = (pr.gmClearSetsEr || pe.er) := rfl

@[simp] theorem changeInputs_er (pr : Params) (i : Inputs) (pe : Pe) :
    (pe.changeInputs pr i).er = pe.er := by
  rw [changeInputs_eq]

@[simp] theorem debugWrite_er (pr : Params) (reg : DebugReg) (v : Word) (pe : Pe) :
    (pe.debugWrite pr reg v).er = pe.er := by
  cases reg <;> rfl

@[simp] theorem signalIdle_er (pr : Params) (pe : Pe) : (pe.signalIdle pr).er = pe.er := by
  unfold Pe.signalIdle
  cases pe.run <;> rfl

/-- A delivery in flight sets the register; where none is, nothing happens (R119). -/
theorem performDelivery_er (pe : Pe) :
    pe.performDelivery.er = pe.er ∨ (0 < pe.sevq ∧ pe.performDelivery.er = true) := by
  unfold Pe.performDelivery
  split
  · exact .inl rfl
  · exact .inr ⟨by omega, receiveEvent_er pe⟩

/-- Only a restart after `WFE` may clear the register (R98). -/
theorem resume_er (o : Occasion) (pe : Pe) :
    (pe.resume o).er = pe.er
    ∨ ((∃ len, pe.run = .suspendedWfe len) ∧ (pe.resume o).er = false) := by
  cases hr : pe.run with
  | running => exact .inl (by rw [resume_other o pe (.inl hr)])
  | poweredDown => exact .inl (by rw [resume_other o pe (.inr hr)])
  | suspendedWfi len => exact .inl (by rw [resume_wfi o pe len hr])
  | suspendedWfe len =>
    rw [resume_wfe o pe len hr]
    by_cases hc : o.choose .restartClears = true
    · exact .inr ⟨⟨len, rfl⟩, if_pos hc⟩
    · exact .inl (if_neg hc)

theorem hostInstruction_er (s : State) {f : Pe → Pe} {pe : Pe} (hf : (f pe).er = pe.er) :
    (pe.hostInstruction s f).er = pe.er := by
  rcases hostInstruction_cases s f pe with e | ⟨-, -, e⟩
  · rw [e]
  · rw [e, hf]

/-- The moves of the environment that may set the Event Register of PE `p`, which holds `pe`, beside
its reset (R13, R91). -/
def setsEventRegister (m : Move) (pr : Params) (p : Nat) (pe : Pe) : Prop :=
  (m = .deliver p ∧ 0 < pe.sevq) ∨ (∃ ctx, m = .exceptionReturn p ctx)
    ∨ m = .timerStreamEvent p ∨ m = .implEvent p
    ∨ (m = .globalMonitorCleared p ∧ pr.gmClearSetsEr = true)

/-- Everything a move of the environment can do to the Event Register of a PE. -/
theorem moveOnPe_er (m : Move) (s : State) (p : Nat) (pe : Pe) :
    (moveOnPe m s p pe).er = pe.er
    ∨ (setsEventRegister m s.params p pe ∧ (moveOnPe m s p pe).er = true)
    ∨ ((m = .resume p ∧ ∃ len, pe.run = .suspendedWfe len) ∧ (moveOnPe m s p pe).er = false)
    ∨ m = .reset p := by
  by_cases ht : m.target = p
  · subst ht
    cases m with
    | deliver q =>
      simp only [moveOnPe, Move.target, if_true]
      rcases performDelivery_er pe with e | ⟨hq, e⟩
      · exact .inl e
      · exact .inr (.inl ⟨.inl ⟨rfl, hq⟩, e⟩)
    | exceptionReturn q c =>
      simp only [moveOnPe, Move.target, if_true]
      rcases hostInstruction_cases s (exceptionReturn c) pe with e | ⟨-, -, e⟩
      · exact .inl (by rw [e])
      · exact .inr (.inl ⟨.inr (.inl ⟨c, rfl⟩), by rw [e]; rfl⟩)
    | timerStreamEvent q =>
      exact .inr (.inl ⟨.inr (.inr (.inl rfl)), by simp [moveOnPe, Move.target]⟩)
    | implEvent q =>
      exact .inr (.inl ⟨.inr (.inr (.inr (.inl rfl))), by simp [moveOnPe, Move.target]⟩)
    | globalMonitorCleared q =>
      simp only [moveOnPe, Move.target, if_true, clearMonitor_er]
      cases hg : s.params.gmClearSetsEr with
      | false => exact .inl (Bool.false_or _)
      | true => exact .inr (.inl ⟨.inr (.inr (.inr (.inr ⟨rfl, hg⟩))), rfl⟩)
    | resume q =>
      simp only [moveOnPe, Move.target, if_true, true_and]
      rcases resume_er { draw := s.draws, pe := q } pe with e | ⟨hlen, e⟩
      · exact .inl e
      · exact .inr (.inr (.inl ⟨hlen, e⟩))
    | reset q => exact .inr (.inr (.inr rfl))
    | hostStep q c => exact .inl (by simpa [moveOnPe, Move.target] using hostInstruction_er s rfl)
    | issueAccess q a => exact .inl (by simpa [moveOnPe, Move.target] using hostInstruction_er s rfl)
    | holdMonitor q => exact .inl (by simpa [moveOnPe, Move.target] using hostInstruction_er s rfl)
    | enterException q c =>
      left
      simp only [moveOnPe, Move.target, if_true]
      rcases ifRunning_cases (fun x => { x with ctx := c }) pe with ⟨-, e⟩ | ⟨-, e⟩ <;> rw [e]
    | _ => simp [moveOnPe, Move.target]
  · exact .inl (by rw [moveOnPe_other m s p pe ht])

/-- Everything an instruction can do to the Event Register of a PE: only that of the executing PE
changes, which a `WFE` clears, an `SEVL` sets and a powerdown in a `WFI` loses (R95, R113, R147). -/
theorem instrOnPe_er (i : Instr) (s : State) (p : Nat) (pe : Pe) :
    (instrOnPe i s p pe).er = pe.er
    ∨ (p = s.cur ∧ ((instrOp i = .wfe ∧ (instrOnPe i s p pe).er = false)
      ∨ (instrOp i = .sevl ∧ (instrOnPe i s p pe).er = true)
      ∨ (instrOp i = .wfi ∧ (instrOnPe i s p pe).run = .poweredDown))) := by
  by_cases hc : p = s.cur
  · subst hc
    rw [instrOnPe_cur]
    cases instrOp i <;> dsimp only
    case wfe =>
      rcases waitForEvent_cases s.occasion s.params (instrForm i) pe with
        ⟨-, e⟩ | ⟨-, e⟩ | ⟨-, r, -, -, -, -, e⟩ | ⟨-, -, -, -, e⟩ <;> simp [e]
    case wfi =>
      rcases waitForInterrupt_cases s.occasion s.params (instrForm i) pe with
        e | ⟨r, -, -, -, e⟩ | ⟨-, -, -, e⟩ | ⟨-, -, -, -, e⟩ <;> simp [e]
    case sev => exact .inl rfl
    case sevl => simp
    case dsb => split <;> exact .inl rfl
  · left
    rcases instrOnPe_other i s p pe hc with e | ⟨-, e⟩ <;> rw [e]
    rfl

/-- Everything a step can do to the Event Register of a PE. -/
theorem stepWith_er {m : Move} {s t : State} {p : Nat} {pe pe' : Pe}
    (h : stepWith m s = .next t) (hp : s.pes[p]? = some pe) (hp' : t.pes[p]? = some pe') :
    pe'.er = pe.er
    ∨ (m = .execute p ∧ ∃ i, fetch s pe = .instr i ∧ ((instrOp i = .wfe ∧ pe'.er = false)
      ∨ (instrOp i = .sevl ∧ pe'.er = true) ∨ (instrOp i = .wfi ∧ pe'.run = .poweredDown)))
    ∨ (setsEventRegister m s.params p pe ∧ pe'.er = true)
    ∨ ((m = .resume p ∧ ∃ len, pe.run = .suspendedWfe len) ∧ pe'.er = false)
    ∨ m = .reset p := by
  rcases stepWith_get h hp with
    ⟨-, -, e⟩ | ⟨q, rfl, e | ⟨me, hme, -, ⟨-, e⟩ | ⟨-, i, hf, -, ⟨-, e⟩ | ⟨-, e⟩⟩⟩⟩
  all_goals obtain rfl := Option.some.inj (hp'.symm.trans e)
  · exact (moveOnPe_er m s.tick p pe).imp id .inr
  · exact .inl rfl
  · exact .inl (by split <;> rfl)
  · exact .inl (by split <;> rfl)
  · rcases instrOnPe_er i { s.tick with cur := q } p pe with e | ⟨hq, hop⟩
    · exact .inl e
    · obtain rfl : p = q := hq
      obtain rfl := Option.some.inj (hp.symm.trans hme)
      exact .inr (.inl ⟨rfl, i, hf, hop⟩)

/-- Settles O52: of what a step can do to the Event Register (`stepWith_er`), what leaves it 0. -/
theorem eventRegisterClearedOnlyByWfe : Obligations.EventRegisterClearedOnlyByWfe := by
  intro m s t p pe pe' h hp hp' her her'
  rcases stepWith_er h hp hp' with e | ⟨hm, i, hf, hop⟩ | ⟨-, e⟩ | ⟨hm, -⟩ | hm
  · simp [her, her'] at e
  · refine .inl ⟨hm, i, hf, ?_⟩
    rcases hop with ⟨hop, -⟩ | ⟨-, e⟩ | hop
    · exact .inl hop
    · simp [her'] at e
    · exact .inr hop
  · simp [her'] at e
  · exact .inr (.inl hm)
  · exact .inr (.inr hm)

/-- Settles O53: of what a step can do to the Event Register (`stepWith_er`), what leaves it 1. -/
theorem eventRegisterSetOnlyBy : Obligations.EventRegisterSetOnlyBy := by
  intro m s t p pe pe' h hp hp' her her'
  rcases stepWith_er h hp hp' with e | ⟨hm, i, hf, hop⟩ | ⟨hm, -⟩ | ⟨-, e⟩ | hm
  · simp [her, her'] at e
  · refine .inl ⟨hm, i, hf, ?_⟩
    rcases hop with ⟨-, e⟩ | ⟨hop, -⟩ | hop
    · simp [her'] at e
    · exact .inl hop
    · exact .inr hop
  · unfold setsEventRegister at hm
    tauto
  · simp [her'] at e
  · tauto

end Sys2Proof.Machine
end

section
/-! PROOFS. A PE that is not Running (R17, R28, R74, R143, R147): it takes no step, and nothing but its
resume step or its reset changes its run state. -/

namespace Sys2Proof.Machine

/-- A PE that is not Running takes no step of its own (R28 (1)). -/
theorem executeOn_not_running {s : State} {p : Nat} {pe : Pe} (hp : s.pes[p]? = some pe)
    (hr : pe.run ≠ .running) : executeOn p s = .next s := by
  simp [executeOn, hp, hr]

/-- A step of any PE keeps the run state and the context of a PE that is not Running. -/
theorem stepWith_execute_not_running {q : Nat} {s t : State} {p : Nat} {pe pe' : Pe}
    (h : stepWith (.execute q) s = .next t) (hp : s.pes[p]? = some pe)
    (hp' : t.pes[p]? = some pe') (hr : pe.run ≠ .running) :
    pe'.run = pe.run ∧ pe'.ctx = pe.ctx := by
  rcases stepWith_get h hp with ⟨hm, -⟩ | ⟨q', -, e | ⟨me, hme, hrun, hcase⟩⟩
  · exact absurd rfl (hm q)
  · obtain rfl := Option.some.inj (hp'.symm.trans e)
    exact ⟨rfl, rfl⟩
  have hq : p ≠ q' := by
    rintro rfl
    obtain rfl := Option.some.inj (hp.symm.trans hme)
    exact hr hrun
  rcases hcase with ⟨-, e⟩ | ⟨-, i, -, -, ⟨-, e⟩ | ⟨-, e⟩⟩
  all_goals obtain rfl := Option.some.inj (hp'.symm.trans e)
  · rw [if_neg hq]
    exact ⟨rfl, rfl⟩
  · rw [if_neg hq]
    exact ⟨rfl, rfl⟩
  · rcases instrOnPe_other i { s.tick with cur := q' } p pe hq with e | ⟨-, e⟩ <;> rw [e]
    · exact ⟨rfl, rfl⟩
    · exact ⟨rfl, rfl⟩

/-- A write of the debugger leaves the run state, and of the context all but the debug registers. -/
theorem debugWrite_frame (pr : Params) (reg : DebugReg) (v : Word) (pe : Pe) :
    (pe.debugWrite pr reg v).run = pe.run ∧ (pe.debugWrite pr reg v).ctx = { pe.ctx with
      edscr := (pe.debugWrite pr reg v).ctx.edscr
      dbgosdlr := (pe.debugWrite pr reg v).ctx.dbgosdlr } := by
  cases reg <;> exact ⟨rfl, rfl⟩

/-- A resume step runs a suspended PE, and changes no other (R100, R143). -/
theorem resume_run (o : Occasion) (pe : Pe) (hr : pe.run ≠ .running) :
    (pe.run ≠ .poweredDown ∧ (pe.resume o).run = .running) ∨ pe.resume o = pe := by
  cases hrun : pe.run with
  | running => exact absurd hrun hr
  | poweredDown => exact .inr (resume_other o pe (.inr hrun))
  | suspendedWfe len => exact .inl ⟨by simp, by rw [resume_wfe o pe len hrun]⟩
  | suspendedWfi len => exact .inl ⟨by simp, by rw [resume_wfi o pe len hrun]⟩

/-- Settles O54: the moves by which a PE that is not Running changes, its resume step and a write of the
debugger apart, are `moveOnPe_suspended`. -/
theorem suspensionHoldsUntilResumeOrReset : Obligations.SuspensionHoldsUntilResumeOrReset := by
  refine ⟨fun s p pe hp hr => executeOn_not_running (s := s.tick) hp hr, ?_⟩
  intro m s t p pe pe' h hp hp' hr hrst
  have held : pe'.run = pe.run → pe'.ctx = pe.ctx → pe'.run = pe.run
      ∧ pe'.ctx = { pe.ctx with edscr := pe'.ctx.edscr, dbgosdlr := pe'.ctx.dbgosdlr }
      ∧ ((∀ reg v, m ≠ .debugWrite p reg v) → pe'.ctx = pe.ctx) :=
    fun hrun hctx => ⟨hrun, by rw [hctx], fun _ => hctx⟩
  rcases stepWith_get h hp with ⟨-, -, e⟩ | ⟨q, rfl, -⟩
  · obtain rfl := Option.some.inj (hp'.symm.trans e)
    by_cases hres : m = .resume p
    · subst hres
      simp only [moveOnPe, if_true, true_and] at held ⊢
      rcases resume_run { draw := s.tick.draws, pe := p } pe hr with ⟨hpd, hrun⟩ | e
      · exact .inl ⟨hpd, hrun⟩
      · exact .inr (held (by rw [e]) (by rw [e]))
    obtain ⟨hrun, -, -, -, hctx⟩ := moveOnPe_suspended m s.tick p pe hr hres hrst
    by_cases hdbg : ∃ reg v, m = .debugWrite p reg v
    · obtain ⟨reg, v, rfl⟩ := hdbg
      simp only [moveOnPe, if_true]
      obtain ⟨hrun, hframe⟩ := debugWrite_frame s.tick.params reg v pe
      exact .inr ⟨hrun, hframe, fun hne => absurd rfl (hne reg v)⟩
    · exact .inr (held hrun (hctx fun reg v e => hdbg ⟨reg, v, e⟩))
  · obtain ⟨hrun, hctx⟩ := stepWith_execute_not_running h hp hp' hr
    exact .inr (held hrun hctx)

end Sys2Proof.Machine
end

section
/-! PROOFS. A PE's own step, the exception return and the state after reset. -/

namespace Sys2Proof.Machine

/-- A Running PE that causes no other exception executes what it fetches (R28 (1)). -/
theorem executeOn_fetched {s : State} {p : Nat} {pe : Pe} {i : Instr} (hp : s.pes[p]? = some pe)
    (hr : pe.run = .running) (ho : pe.inputs.otherException = false) (hf : fetch s pe = .instr i) :
    executeOn p s = exec i { s with cur := p } := by
  simp [executeOn, hp, hr, ho, hf]

/-- Settles O7: the fetch does not read the agenda or the step counter. -/
theorem stepRunsTheFetchedInstruction : Obligations.StepRunsTheFetchedInstruction := by
  intro s p later pe i hag hp hr ho hf
  have hmove : s.nextMove = .execute p := by rw [State.nextMove, hag]
  have hdrop : s.dropMove = { s with agenda := later } := by rw [State.dropMove, hag, List.tail_cons]
  rw [step, hmove, hdrop]
  exact executeOn_fetched (s := State.tick { s with agenda := later }) hp hr ho hf

/-- A change of PE `p` is what it does to that PE as it stands. -/
theorem modifyPe_congr {s : State} {p : Nat} {pe : Pe} {f g : Pe → Pe} (hp : s.pes[p]? = some pe)
    (h : f pe = g pe) : s.modifyPe p f = s.modifyPe p g := by
  have hpes : (s.modifyPe p f).pes = (s.modifyPe p g).pes := by
    refine List.ext_getElem? fun q => ?_
    rw [modifyPe_get, modifyPe_get]
    by_cases hq : q = p
    · subst hq
      simp [hp, h]
    · simp [hq]
  simpa [State.modifyPe] using hpes

/-- Settles O42: the PE runs an instruction of the host, and that is the exception return. -/
theorem exceptionReturnSetsTheRegister : Obligations.ExceptionReturnSetsTheRegister := by
  intro s p pe ctx hp hh
  have hhost : pe.hostInstruction s.tick (exceptionReturn ctx) = exceptionReturn ctx pe := if_pos hh
  exact congrArg Host.Outcome.next (modifyPe_congr (s := s.tick) hp hhost)

/-- Every PE of the state after reset is a PE just reset, by its number. -/
theorem reset_pe {p : Nat} {pe : Pe} (h : State.reset.pes[p]? = some pe) : pe = peAtReset p := by
  cases p with
  | zero => exact (Option.some.inj h).symm
  | succ p =>
    simp only [State.reset, List.getElem?_cons_succ, List.getElem?_map,
      Option.map_eq_some_iff] at h
    obtain ⟨q, hq, rfl⟩ := h
    obtain ⟨-, rfl⟩ := List.getElem?_eq_some_iff.mp hq
    rw [List.getElem_range]

/-- Settles O51: the fields of a PE just reset. -/
theorem resetState : Obligations.ResetState := by
  intro p pe h
  obtain rfl := reset_pe h
  exact ⟨rfl, rfl, rfl, rfl⟩

end Sys2Proof.Machine
end

section
/-! PROOFS. The decoder on encodings (R40, R50 to R56): encoding by encoding, what it reads off the
bytes. -/

namespace Sys2Proof

theorem condOfBits_bits (cond : Cond) : condOfBits cond.bits = some cond := by
  cases cond <;> rfl

/-- The A32 decoder takes the condition off a hint word and goes by its hint number (R51). -/
theorem decodeA32_hintWord (cond : Cond) (hint : BitVec 8) :
    decodeA32 (cond.bits ++ 0x320#12 ++ 0xF0#8 ++ hint) =
      decodeA32Hint cond (0#24 ++ hint) := by
  generalize hw : (cond.bits ++ 0x320#12 ++ 0xF0#8 ++ hint : Word) = w
  have hnumber : w.extractLsb' 0 8 = hint := by
    rw [← hw]
    exact BitVec.extractLsb'_append_eq_right
  have hshouldBe : w.extractLsb' 8 8 = 0xF0#8 := by
    rw [← hw, BitVec.extractLsb'_append_eq_of_le (by omega)]
    exact BitVec.extractLsb'_append_eq_right
  have hpattern : w.extractLsb' 16 12 = 0x320#12 := by
    rw [← hw, BitVec.extractLsb'_append_eq_of_le (by omega),
      BitVec.extractLsb'_append_eq_of_le (by omega)]
    exact BitVec.extractLsb'_append_eq_right
  have hcond : w.extractLsb' 28 4 = cond.bits := by
    rw [← hw, BitVec.extractLsb'_append_eq_of_le (by omega),
      BitVec.extractLsb'_append_eq_of_le (by omega)]
    exact BitVec.extractLsb'_append_eq_left
  have hlow : (0#24 ++ hint : Word).extractLsb' 0 8 = hint := BitVec.extractLsb'_append_eq_right
  simp [decodeA32, hpattern, hcond, condOfBits_bits, hshouldBe, decodeA32Hint, hnumber, hlow]

/-- The A32 decoder on the bytes of a hint (R51). -/
theorem decode_encodeA32Hint (cond : Cond) (hint : BitVec 8) (rest : List Byte) :
    decode .a32 (encodeA32Hint cond hint ++ rest) =
      (decodeA32Hint cond (0#24 ++ hint)).before rest := by
  rw [encodeA32Hint, decode_wordBytes, decodeA32_hintWord]

/-- The T32 decoder on the bytes of a 16-bit hint: its first byte begins no 32-bit instruction (R52,
R54). -/
theorem decode_encodeT16Hint (hint : BitVec 4) (rest : List Byte) :
    decode .t32 (encodeT16Hint hint ++ rest) = (decodeT16 (0xBF#8 ++ hint ++ 0#4)).before rest :=
  decode_halfBytes _ rest (by revert hint; decide)

/-- The T32 decoder on the bytes of a 32-bit hint (R53, R54). -/
theorem decode_encodeT32Hint (hint : BitVec 8) (rest : List Byte) :
    decode .t32 (encodeT32Hint hint ++ rest) = (decodeT32 0xF3AF#16 (0x80#8 ++ hint)).before rest :=
  decode_wideBytes _ _ rest (by decide)

/-- The A32 decoder on a `DSB` word, whatever its option (R56). -/
theorem decodeA32_dsbWord (option : BitVec 4) :
    decodeA32 (0xF57FF04#28 ++ option) = .instr (.dsbA1 option) [] := by
  revert option
  decide

/-- The T32 decoder on the halfwords of a `DSB`, whatever its option (R56). -/
theorem decodeT32_dsbHalves (option : BitVec 4) :
    decodeT32 0xF3BF#16 (0x8F4#12 ++ option) = .instr (.dsbT1 option) [] := by
  revert option
  decide

/-- Settles O1, by the encoding each instruction comes in. -/
theorem decodeOfEncode : Obligations.DecodeOfEncode := by
  intro i rest
  cases i with
  | wfeA1 cond => exact decode_encodeA32Hint cond 2#8 rest
  | wfiA1 cond => exact decode_encodeA32Hint cond 3#8 rest
  | sevA1 cond => exact decode_encodeA32Hint cond 4#8 rest
  | sevlA1 cond => exact decode_encodeA32Hint cond 5#8 rest
  | wfeT1 => exact decode_encodeT16Hint 2#4 rest
  | wfiT1 => exact decode_encodeT16Hint 3#4 rest
  | sevT1 => exact decode_encodeT16Hint 4#4 rest
  | sevlT1 => exact decode_encodeT16Hint 5#4 rest
  | wfeT2 => exact decode_encodeT32Hint 2#8 rest
  | wfiT2 => exact decode_encodeT32Hint 3#8 rest
  | sevT2 => exact decode_encodeT32Hint 4#8 rest
  | sevlT2 => exact decode_encodeT32Hint 5#8 rest
  | dsbA1 option =>
    refine (decode_wordBytes (0xF57FF04#28 ++ option) rest).trans ?_
    rw [decodeA32_dsbWord]
    rfl
  | dsbT1 option =>
    refine (decode_wideBytes 0xF3BF#16 (0x8F4#12 ++ option) rest (by decide)).trans ?_
    rw [decodeT32_dsbHalves]
    rfl

end Sys2Proof
end

section
/-! PROOFS. What the fetch answers (R40, R41, R45, R50, R54): one equation per instruction set, and the
bytes it takes. -/

namespace Sys2Proof.Machine

/-- The fetch at an aligned pc in A32: four bytes, decoded. -/
theorem fetch_a32 {s : State} {pe : Pe} (hi : pe.ctx.pstate.iset = .a32)
    (hal : pe.ctx.pc.toNat % 4 = 0) :
    fetch s pe = Sum.elim id (fetchDecoded .a32) (fetchBytes s pe.ctx.pc.toNat 4) := by
  simp only [fetch, hi, fetchAlign, hal, ne_eq, not_true_eq_false, if_false]
  cases fetchBytes s pe.ctx.pc.toNat 4 <;> rfl

/-- The fetch at an aligned pc in T32: a halfword, and a second one where the first calls for it. -/
theorem fetch_t32 {s : State} {pe : Pe} (hi : pe.ctx.pstate.iset = .t32)
    (hal : pe.ctx.pc.toNat % 2 = 0) :
    fetch s pe = Sum.elim id
      (fun first =>
        if beginsWide first then
          Sum.elim id (fetchDecoded .t32) (fetchBytes s pe.ctx.pc.toNat 4)
        else fetchDecoded .t32 first)
      (fetchBytes s pe.ctx.pc.toNat 2) := by
  simp only [fetch, hi, fetchAlign, hal, ne_eq, not_true_eq_false, if_false]
  cases fetchBytes s pe.ctx.pc.toNat 2 with
  | inl stop => rfl
  | inr first => cases fetchBytes s pe.ctx.pc.toNat 4 <;> rfl

/-- The bytes before others read are read too. -/
theorem readBytes_take {m : Memory} : ∀ {k n a : Nat} {bytes : List Byte}, k ≤ n →
    readBytes m a n = some bytes → readBytes m a k = some (bytes.take k) := by
  intro k
  induction k with
  | zero => intro n a bytes _ _; rfl
  | succ k ih =>
    intro n a bytes hk h
    obtain ⟨n, rfl⟩ : ∃ j, n = j + 1 := ⟨n - 1, by omega⟩
    unfold readBytes at h
    cases hb : readByte m a with
    | none => simp [hb] at h
    | some v =>
      cases hbs : readBytes m (a + 1) n with
      | none => simp [hb, hbs] at h
      | some vs =>
        obtain rfl : v :: vs = bytes := by simpa [hb, hbs] using h
        simp [readBytes, hb, ih (by omega) hbs]

/-- Where a PE has written none of some bytes, it has written none of the first of them. -/
theorem writtenAny_eq_false_mono {written : List Nat} {a k n : Nat} (hk : k ≤ n)
    (h : writtenAny written a n = false) : writtenAny written a k = false := by
  rw [Bool.eq_false_iff] at h ⊢
  exact mt (writtenAny_mono hk) h

/-- The bytes before others that can be fetched can be fetched. -/
theorem fetchBytes_take {s : State} {a k n : Nat} {bytes : List Byte} (hk : k ≤ n)
    (h : fetchBytes s a n = .inr bytes) : fetchBytes s a k = .inr (bytes.take k) := by
  obtain ⟨htop, hw, hread⟩ := fetchBytes_eq_inr.mp h
  exact fetchBytes_eq_inr.mpr ⟨by omega, writtenAny_eq_false_mono hk hw, readBytes_take hk hread⟩

/-- The decoder gives an instruction back from its encoding alone. -/
theorem fetchDecoded_encode (i : Instr) : fetchDecoded i.iset (encode i) = .instr i :=
  fetchDecoded_instr.mpr ⟨[], by simpa using decodeOfEncode i []⟩

/-- The encodings: four bytes in A32; in T32 two that begin no 32-bit instruction, or four the first two
of which begin one (R50, R54). -/
theorem encode_cases (i : Instr) :
    (i.iset = .a32 ∧ (encode i).length = 4)
    ∨ (i.iset = .t32 ∧ (encode i).length = 2 ∧ beginsWide (encode i) = false)
    ∨ (i.iset = .t32 ∧ (encode i).length = 4 ∧ beginsWide ((encode i).take 2) = true) := by
  cases i with
  | wfeA1 | wfiA1 | sevA1 | sevlA1 | dsbA1 => exact .inl ⟨rfl, rfl⟩
  | wfeT1 | wfiT1 | sevT1 | sevlT1 => exact .inr (.inl ⟨rfl, rfl, rfl⟩)
  | wfeT2 | wfiT2 | sevT2 | sevlT2 | dsbT1 => exact .inr (.inr ⟨rfl, rfl, rfl⟩)

/-- Settles O5, by the kind of encoding. -/
theorem fetchReadsTheEncoding : Obligations.FetchReadsTheEncoding := by
  intro s pe i hiset hal hread htop hwritten
  have hfetch : fetchBytes s pe.ctx.pc.toNat (encode i).length = .inr (encode i) :=
    fetchBytes_eq_inr.mpr ⟨htop, hwritten, hread⟩
  have hdec := fetchDecoded_encode i
  rcases encode_cases i with ⟨hi, hlen⟩ | ⟨hi, hlen, hwide⟩ | ⟨hi, hlen, hwide⟩ <;>
    rw [hi] at hiset hal hdec <;> rw [hlen] at hfetch
  · rw [fetch_a32 hiset hal, hfetch]
    exact hdec
  · rw [fetch_t32 hiset hal, hfetch, Sum.elim_inr, if_neg (by simp [hwide])]
    exact hdec
  · rw [fetch_t32 hiset hal, fetchBytes_take (k := 2) (by omega) hfetch, Sum.elim_inr, if_pos hwide,
      hfetch]
    exact hdec

/-- A PE's step stops where its fetch is refused. -/
theorem executeOn_refused {s : State} {p : Nat} {pe : Pe} {r : Refusal} (hp : s.pes[p]? = some pe)
    (hr : pe.run = .running) (ho : pe.inputs.otherException = false)
    (hf : fetch s pe = .refused r) : executeOn p s = .refused r := by
  simp [executeOn, hp, hr, ho, hf]

/-- A change that leaves PE `p` as it stands leaves the system. -/
theorem modifyPe_self {s : State} {p : Nat} {pe : Pe} {f : Pe → Pe} (hp : s.pes[p]? = some pe)
    (h : f pe = pe) : s.modifyPe p f = s := by
  rw [modifyPe_congr (g := id) hp h]
  simp [State.modifyPe]

/-- Where a PE runs no instruction of the host, its host moves do nothing. -/
theorem environment_of_not_runsHostInstruction {s : State} {p : Nat} {pe : Pe} {m : Move}
    (hp : s.pes[p]? = some pe) (hh : runsHostInstruction s pe = false)
    (hm : (∃ ctx, m = .hostStep p ctx) ∨ (∃ ctx, m = .exceptionReturn p ctx)
      ∨ (∃ a, m = .issueAccess p a) ∨ m = .holdMonitor p) : environment m s = s := by
  have hself : ∀ f : Pe → Pe, s.modifyPe p (Pe.hostInstruction s f) = s := fun f =>
    modifyPe_self hp (by simp [Pe.hostInstruction, hh])
  rcases hm with ⟨ctx, rfl⟩ | ⟨ctx, rfl⟩ | ⟨a, rfl⟩ | rfl
  · exact hself _
  · exact hself _
  · simp [environment, issueAccess, hp, hh]
  · exact hself _

/-- A 16-bit halfword that decodes is two bytes of encoding (R52). -/
theorem decodeT16_length {hw : Half} {i : Instr} {rest : List Byte}
    (h : decodeT16 hw = .instr i rest) : (encode i).length = 2 := by
  unfold decodeT16 at h
  split at h
  · split at h <;> cases h <;> rfl
  · cases h

/-- A T32 instruction read from bytes that begin no 32-bit one has two bytes (R54). -/
theorem decode_narrow_length {bytes rest : List Byte} {i : Instr}
    (hwide : beginsWide bytes = false) (h : decode .t32 bytes = .instr i rest) :
    (encode i).length = 2 := by
  match bytes, hwide, h with
  | b0 :: b1 :: bs, hwide, h =>
    have hwide : t32Wide (halfOf b0 b1) = false := hwide
    simp only [decode, hwide, Bool.false_eq_true, if_false] at h
    cases hd : decodeT16 (halfOf b0 b1) with
    | instr j more =>
      rw [hd] at h
      cases h
      exact decodeT16_length hd
    | reject why => rw [hd] at h; cases h

/-- No instruction is longer than the bytes it is fetched from, none of which a PE has written. -/
theorem fetch_unwritten {s : State} {pe : Pe} {i : Instr} (h : fetch s pe = .instr i) :
    writtenAny s.written pe.ctx.pc.toNat (encode i).length = false := by
  obtain ⟨-, n, bytes, rest, hn, hfetch, hdec⟩ := fetch_eq_instr h
  have hlen : (encode i).length ≤ n := by
    rcases hn with rfl | ⟨rfl, hi, hwide⟩
    · rcases encode_cases i with ⟨-, e⟩ | ⟨-, e, -⟩ | ⟨-, e, -⟩ <;> omega
    · rw [hi] at hdec
      exact (decode_narrow_length hwide hdec).le
  obtain ⟨-, hw, -⟩ := fetchBytes_eq_inr.mp hfetch
  exact writtenAny_eq_false_mono hlen hw

/-- Settles O6, clause by clause: the three fetches, what runs there, and what is ever fetched. An
aligned pc leaves room for the aligned bytes below the top of the address space. -/
theorem selfModifiedCodeRefused : Obligations.SelfModifiedCodeRefused := by
  refine ⟨?_, ?_, ?_, ?_, fun s pe i => fetch_unwritten⟩
  · intro s pe hi hal hw
    have htop : pe.ctx.pc.toNat + 4 ≤ addressTop := by
      unfold addressTop
      omega
    rw [fetch_a32 hi hal, fetchBytes_written htop hw]
    rfl
  · intro s pe hi hal hw
    have htop : pe.ctx.pc.toNat + 2 ≤ addressTop := by
      unfold addressTop
      omega
    rw [fetch_t32 hi hal, fetchBytes_written htop hw]
    rfl
  · intro s pe b0 b1 hi hal htop hread hwide hw
    cases hw2 : writtenAny s.written pe.ctx.pc.toNat 2 with
    | true =>
      rw [fetch_t32 hi hal, fetchBytes_written (by omega) hw2]
      rfl
    | false =>
      have hbegins : beginsWide [b0, b1] = true := hwide
      have hfirst : fetchBytes s pe.ctx.pc.toNat 2 = .inr [b0, b1] :=
        fetchBytes_eq_inr.mpr ⟨by omega, hw2, hread⟩
      rw [fetch_t32 hi hal, hfirst, Sum.elim_inr, if_pos hbegins, fetchBytes_written htop hw]
      rfl
  · intro s p pe hp hr ho hf
    refine ⟨executeOn_refused (s := s.tick) hp hr ho hf, fun m hm => ?_⟩
    have hne : ∀ q, m ≠ .execute q := by
      rintro q rfl
      simp at hm
    have hhost : runsHostInstruction s.tick pe = false := runsHostInstruction_selfModifying hf
    rw [stepWith_environment hne,
      environment_of_not_runsHostInstruction (s := s.tick) hp hhost hm]
    rfl

end Sys2Proof.Machine
end

section
/-! PROOFS. The frames of the instructions (R30, R34, R102, R111, R113, R146): what an executed
instruction leaves of the system, of the other PEs and of its own. -/

namespace Sys2Proof.Machine

/-- An executed instruction leaves everything outside the PEs (R34). -/
theorem exec_sameSystem {i : Instr} {s t : State} (h : exec i s = .next t) : SameSystem s t := by
  obtain ⟨hparams, hcur, hmem, hwritten, hagenda, hdraws, -⟩ := exec_system h
  exact ⟨hparams, fun a => by rw [hmem], hmem, hwritten, hcur, hagenda, hdraws⟩

/-- Everything an executed instruction can do to a PE: nothing; moving the executing PE past an
instruction whose condition fails; the operation. -/
theorem exec_onPe {i : Instr} {s t : State} {p : Nat} {pe pe' : Pe} (h : exec i s = .next t)
    (hp : s.pes[p]? = some pe) (hp' : t.pes[p]? = some pe') :
    pe' = pe ∨ (p = s.cur ∧ pe' = pe.complete (instrForm i).len) ∨ pe' = instrOnPe i s p pe := by
  obtain ⟨me, hme, rfl | ⟨-, -, ⟨-, rfl⟩ | ⟨-, rfl⟩⟩⟩ := exec_get h
  · exact .inl (Option.some.inj (hp'.symm.trans hp))
  · rw [modifyPe_get, hp, Option.map_some, Option.some.injEq] at hp'
    subst hp'
    split
    case isTrue hc => exact .inr (.inl ⟨hc, rfl⟩)
    case isFalse => exact .inl rfl
  · exact .inr (.inr (Option.some.inj (hp'.symm.trans (instrEffect_get i hme hp))))

/-- An instruction that sends no event leaves every PE but the executing one (R102). -/
theorem exec_sameButPe {i : Instr} {s t : State} (h : exec i s = .next t)
    (hsev : instrOp i ≠ .sev) (hsevl : instrOp i ≠ .sevl) : SameButPe s.cur s t := by
  obtain ⟨-, -, -, -, -, -, hlen⟩ := exec_system h
  refine ⟨hlen, fun q hq => ?_⟩
  cases hp : s.pes[q]? with
  | none =>
    rw [List.getElem?_eq_none_iff] at hp ⊢
    omega
  | some pe =>
    obtain ⟨hlt, -⟩ := List.getElem?_eq_some_iff.mp hp
    have hp' : t.pes[q]? = some (t.pes[q]'(by omega)) := List.getElem?_eq_getElem _
    rw [hp']
    rcases exec_onPe h hp hp' with e | ⟨hc, -⟩ | e
    · rw [e]
    · exact absurd hc hq
    · rcases instrOnPe_other i s q pe hq with e' | ⟨hop, -⟩
      · rw [e, e']
      · tauto

theorem sameButWait_refl (pe : Pe) : SameButWait pe pe := ⟨rfl, rfl⟩

theorem complete_sameButWait (pe : Pe) (len : Nat) : SameButWait pe (pe.complete len) := ⟨rfl, rfl⟩

/-- Settles O16: the outcomes of `waitForEvent`, one by one. -/
theorem wfeFrame : Obligations.WfeFrame := by
  intro i s t pe pe' hop h hp hp'
  refine ⟨exec_sameSystem h, exec_sameButPe h (by simp [hop]) (by simp [hop]), ?_⟩
  rcases exec_onPe h hp hp' with rfl | ⟨-, rfl⟩ | e
  · exact ⟨id, .inl (sameButWait_refl pe')⟩
  · exact ⟨id, .inl (complete_sameButWait pe _)⟩
  rw [instrOnPe_cur, hop] at e
  rcases waitForEvent_cases s.occasion s.params (instrForm i) pe with
    ⟨her, e'⟩ | ⟨-, e'⟩ | ⟨-, r, htrap, hkind, -, -, e'⟩ | ⟨-, -, -, -, e'⟩ <;>
    obtain rfl := e.trans e'
  · exact ⟨fun _ => her, .inl ⟨rfl, rfl⟩⟩
  · exact ⟨id, .inl (complete_sameButWait pe _)⟩
  · exact ⟨id, .inr ⟨r, htrap, hkind, rfl⟩⟩
  · exact ⟨id, .inl ⟨rfl, rfl⟩⟩

/-- Settles O26: the outcomes of `waitForInterrupt`, one by one. -/
theorem wfiFrame : Obligations.WfiFrame := by
  intro i s t pe pe' hop h hp hp'
  refine ⟨exec_sameSystem h, exec_sameButPe h (by simp [hop]) (by simp [hop]), ?_⟩
  rcases exec_onPe h hp hp' with rfl | ⟨-, rfl⟩ | e
  · exact .inl ⟨sameButWait_refl pe', rfl⟩
  · exact .inl ⟨complete_sameButWait pe _, rfl⟩
  rw [instrOnPe_cur, hop] at e
  rcases waitForInterrupt_cases s.occasion s.params (instrForm i) pe with
    e' | ⟨r, htrap, hkind, -, e'⟩ | ⟨hpd, -, -, e'⟩ | ⟨-, -, -, -, e'⟩ <;>
    obtain rfl := e.trans e'
  · exact .inl ⟨complete_sameButWait pe _, rfl⟩
  · exact .inr (.inl ⟨r, htrap, hkind, rfl⟩)
  · exact .inr (.inr ⟨hpd, rfl⟩)
  · exact .inl ⟨⟨rfl, rfl⟩, rfl⟩

/-- Settles O29: on the executing PE by the operation, on another by `instrOnPe_other`. -/
theorem sendEventFrame : Obligations.SendEventFrame := by
  intro i s t hop h
  obtain ⟨-, -, -, -, -, -, hlen⟩ := exec_system h
  refine ⟨exec_sameSystem h, hlen, fun p pe pe' hp hp' => ?_⟩
  rcases exec_onPe h hp hp' with rfl | ⟨rfl, rfl⟩ | e
  · exact ⟨⟨le_rfl, Nat.le_succ _⟩, fun _ => rfl, fun _ => rfl, rfl, rfl⟩
  · exact ⟨⟨le_rfl, Nat.le_succ _⟩, fun hne => absurd rfl hne, fun _ => rfl, rfl, rfl⟩
  by_cases hc : p = s.cur
  · subst hc
    rw [instrOnPe_cur] at e
    rcases hop with hop | hop <;> rw [hop] at e <;> subst e
    · exact ⟨⟨Nat.le_succ _, le_rfl⟩, fun hne => absurd rfl hne, fun _ => rfl, rfl, rfl⟩
    · exact ⟨⟨le_rfl, Nat.le_succ _⟩, fun hne => absurd rfl hne, by simp [hop], rfl, rfl⟩
  · rcases instrOnPe_other i s p pe hc with e' | ⟨-, e'⟩ <;> obtain rfl := e.trans e'
    · exact ⟨⟨le_rfl, Nat.le_succ _⟩, fun _ => rfl, fun _ => rfl, rfl, rfl⟩
    · exact ⟨⟨Nat.le_succ _, le_rfl⟩, fun _ => rfl, fun _ => rfl, rfl, rfl⟩

end Sys2Proof.Machine
end

section
/-! PROOFS. The barrier and memory (R34 to R36, R38, R45): where a `DSB` waits, and what a step does to
memory and to what the programs have written. -/

namespace Sys2Proof.Machine

/-- Settles O35: a `DSB` completes or waits. -/
theorem dsbFrame : Obligations.DsbFrame := by
  intro i s t pe pe' hop h hp hp'
  refine ⟨exec_sameSystem h, exec_sameButPe h (by simp [hop]) (by simp [hop]), ?_⟩
  rcases exec_onPe h hp hp' with rfl | ⟨-, rfl⟩ | e
  · exact ⟨rfl, rfl⟩
  · exact ⟨rfl, rfl⟩
  rw [instrOnPe_cur, hop] at e
  dsimp only at e
  split at e <;> subst e <;> exact ⟨rfl, rfl⟩

/-- Settles O33: `exec` is `dsb` in the shared frame. -/
theorem dsbWaitsForAccesses : Obligations.DsbWaitsForAccesses := by
  intro i s pe hop hwf ⟨hp, hr, hc⟩
  rw [exec_eq hwf, executeHint_passed hp hr hc]
  simp only [instrEffect, hop, dsb, List.isEmpty_iff]
  rfl

/-- A `DSB` of the PE with an access outstanding waits; one of another PE does not reach it (R36). -/
theorem instrOnPe_dsb {i : Instr} {s : State} {p : Nat} {pe : Pe} (hop : instrOp i = .dsb)
    (ha : pe.accesses ≠ []) : instrOnPe i s p pe = pe := by
  simp [instrOnPe, hop, ha]

/-- Another PE's step leaves a PE as it is, or puts a delivery to it in flight (R102, R111, R114). -/
theorem stepWith_execute_other {q : Nat} {s t : State} {p : Nat} {pe pe' : Pe}
    (h : stepWith (.execute q) s = .next t) (hp : s.pes[p]? = some pe)
    (hp' : t.pes[p]? = some pe') (hq : p ≠ q) : pe' = pe ∨ pe' = pe.enqueueDelivery := by
  rcases stepWith_get h hp with
    ⟨hm, -⟩ | ⟨q', hq', e | ⟨me, -, -, ⟨-, e⟩ | ⟨-, i, -, -, ⟨-, e⟩ | ⟨-, e⟩⟩⟩⟩
  · exact absurd rfl (hm q)
  all_goals
    obtain rfl := Move.execute.inj hq'
    obtain rfl := Option.some.inj (hp'.symm.trans e)
  · exact .inl rfl
  · exact .inl (if_neg hq)
  · exact .inl (if_neg hq)
  · exact (instrOnPe_other i { s.tick with cur := q } p pe hq).imp id And.right

/-- The own step of a PE at a `DSB` that waits changes nothing of the PE (R36). -/
theorem stepWith_execute_waitingDsb {s t : State} {p : Nat} {pe pe' : Pe} {i : Instr}
    (h : stepWith (.execute p) s = .next t) (hp : s.pes[p]? = some pe)
    (hp' : t.pes[p]? = some pe') (ho : pe.inputs.otherException = false)
    (hf : fetch s pe = .instr i) (hop : instrOp i = .dsb)
    (hc : conditionPassed (instrForm i) pe.ctx = true) (ha : pe.accesses ≠ []) : pe' = pe := by
  rcases stepWith_get h hp with ⟨hm, -⟩ | ⟨q, hq, e | ⟨me, hme, -, hcase⟩⟩
  · exact absurd rfl (hm p)
  · exact Option.some.inj (hp'.symm.trans e)
  obtain rfl := Move.execute.inj hq
  obtain rfl := Option.some.inj (hp.symm.trans hme)
  rcases hcase with ⟨ho', -⟩ | ⟨-, j, hf', -, hcond⟩
  · simp [ho] at ho'
  obtain rfl := Fetched.instr.inj (hf.symm.trans hf')
  rcases hcond with ⟨hc', -⟩ | ⟨-, e⟩
  · simp [hc] at hc'
  · exact (Option.some.inj (hp'.symm.trans e)).trans (instrOnPe_dsb hop ha)

/-- Settles O34: the PE's own step is `stepWith_execute_waitingDsb`, another PE's
`stepWith_execute_other`, every other move `moveOnPe_atInstr`. -/
theorem dsbHoldsLaterInstructions : Obligations.DsbHoldsLaterInstructions := by
  intro m s t p pe pe' i h hp hp' hr ho hf hop hc ha hrst hexc
  rcases stepWith_get h hp with ⟨hm, -, e⟩ | ⟨q, rfl, -⟩
  · obtain rfl := Option.some.inj (hp'.symm.trans e)
    obtain ⟨hrun, hpc, -, hacc⟩ := moveOnPe_atInstr m s.tick p pe i hr hf hrst hexc
    exact ⟨hpc, hrun, fun e => absurd e (hm p), hacc⟩
  by_cases hq : p = q
  · subst hq
    obtain rfl := stepWith_execute_waitingDsb h hp hp' ho hf hop hc ha
    exact ⟨rfl, hr, fun _ => rfl, .inl rfl⟩
  · have hown : Move.execute q ≠ .execute p := fun e => hq (Move.execute.inj e).symm
    rcases stepWith_execute_other h hp hp' hq with rfl | rfl
    · exact ⟨rfl, hr, fun e => absurd e hown, .inl rfl⟩
    · exact ⟨rfl, hr, fun e => absurd e hown, .inl rfl⟩

/-- A store that completes is what memory then holds at its address (R36, R39). -/
theorem completeAccess_readByte {s : State} {p k : Nat} {pe : Pe} {addr : Word} {v : Byte}
    (hp : s.pes[p]? = some pe) (hk : pe.accesses[k]? = some (.store addr v)) :
    readByte (environment (.completeAccess p k) s).mem addr.toNat = some v := by
  have hmem : (environment (.completeAccess p k) s).mem = writeByte s.mem addr.toNat v := by
    simp [environment, completeAccess, hp, hk, performAccess]
  rw [hmem, readByte_writeByte, if_pos rfl]

/-- Settles O37: a PE's step leaves the accesses, the other moves are `moveOnPe_accesses`. -/
theorem accessesLeaveOnlyByCompleting : Obligations.AccessesLeaveOnlyByCompleting := by
  intro m s t p pe pe' h hp hp'
  rcases stepWith_get h hp with ⟨-, rfl, e⟩ | ⟨q, rfl, -⟩
  · obtain rfl := Option.some.inj (hp'.symm.trans e)
    rcases moveOnPe_accesses m s.tick p pe with e | ⟨a, hm, -, e⟩ | ⟨k, rfl, e⟩
    · exact .inl e
    · exact .inr (.inl ⟨a, hm, e⟩)
    · exact .inr (.inr ⟨k, rfl, e, fun addr v => completeAccess_readByte (s := s.tick) hp⟩)
  · exact .inl (stepWith_execute_accesses h hp hp')

/-- An access that reaches memory changes the byte a store goes to, if any. -/
theorem performAccess_changes {m : Memory} {access : Access} {a : Nat}
    (h : readByte (performAccess m access) a ≠ readByte m a) :
    ∃ addr v, access = .store addr v ∧ addr.toNat = a := by
  cases access with
  | load addr => exact absurd rfl h
  | store addr v =>
    refine ⟨addr, v, rfl, ?_⟩
    by_contra hne
    exact h (by rw [performAccess, readByte_writeByte, if_neg (Ne.symm hne)])

/-- Settles O38: a PE's step leaves memory, and of the other moves only an access that completes changes
it. -/
theorem memoryChangesOnlyByStores : Obligations.MemoryChangesOnlyByStores := by
  intro m s t a h hne
  obtain ⟨-, -, ⟨-, rfl⟩ | ⟨-, e, -⟩⟩ := stepWith_system h
  · rcases environment_mem m s.tick with e | ⟨p, k, pe, access, hm, hp, hk, e⟩ <;> rw [e] at hne
    · exact absurd rfl hne
    · obtain ⟨addr, v, rfl, haddr⟩ := performAccess_changes hne
      exact ⟨p, k, pe, addr, v, hm, hp, hk, haddr⟩
  · exact absurd (by rw [e]) hne

/-- What has been written stays written (R45). -/
theorem mem_noteWritten {written : List Nat} {a : Nat} (access : Access) (h : a ∈ written) :
    a ∈ noteWritten written access := by
  cases access with
  | load addr => exact h
  | store addr v =>
    rw [noteWritten]
    split
    · exact h
    · exact List.mem_cons_of_mem _ h

/-- What has been written stays written under every step (R45). -/
theorem stepWith_written {m : Move} {s t : State} {a : Nat} (h : stepWith m s = .next t)
    (ha : a ∈ s.written) : a ∈ t.written := by
  obtain ⟨-, -, ⟨-, rfl⟩ | ⟨-, -, e⟩⟩ := stepWith_system h
  · rcases environment_written m s.tick with e | ⟨-, access, -, e⟩ <;> rw [e]
    · exact ha
    · exact mem_noteWritten access ha
  · rwa [e]

/-- Under every move, a byte no program has written keeps its value: what changes memory is an
outstanding store, which the invariant has recorded as written (R45). -/
theorem stepWith_readByte_of_unwritten {m : Move} {s t : State} {a : Nat} (hs : SystemOk s)
    (h : stepWith m s = .next t) (ha : a ∉ s.written) : readByte t.mem a = readByte s.mem a := by
  by_contra hne
  obtain ⟨p, k, pe, addr, v, -, hp, hk, rfl⟩ := memoryChangesOnlyByStores m s t a h hne
  obtain ⟨-, -, hpes⟩ := hs
  obtain ⟨-, hrec⟩ := hpes pe (List.mem_of_getElem? hp)
  exact ha (hrec _ (List.mem_of_getElem? hk))

/-- Settles O39: a byte not written after the step was not written before it, and has kept its value. -/
theorem unwrittenBytesNeverChange : Obligations.UnwrittenBytesNeverChange := by
  intro text s t hs htext h a ha
  have hbefore : a ∉ s.written := fun hw => ha (stepWith_written (s := s.dropMove) h hw)
  calc readByte t.mem a
      _ = readByte s.mem a := stepWith_readByte_of_unwritten (s := s.dropMove) hs h hbefore
      _ = text a := htext a hbefore

end Sys2Proof.Machine
end

section
/-! PROOFS. The decoder reads an instruction from nothing but its encoding (R51 to R53, R56, R57): a word
whose fields are those of an encoding is that encoding, field by field, and the decoder tests them all. -/

namespace Sys2Proof

theorem bits_of_condOfBits {b : BitVec 4} {cond : Cond} (h : condOfBits b = some cond) :
    cond.bits = b := by
  revert b
  cases cond <;> decide

/-- The instruction of an A32 hint number is encoded with that number (R51). -/
theorem encode_of_decodeA32Hint {cond : Cond} {w : Word} {i : Instr} {more : List Byte}
    (h : decodeA32Hint cond w = .instr i more) :
    encode i = encodeA32Hint cond (w.extractLsb' 0 8) ∧ i.iset = .a32 := by
  unfold decodeA32Hint at h
  split at h <;> rename_i hn <;> cases h
  all_goals exact ⟨congrArg (encodeA32Hint cond) (BitVec.eq_of_toNat_eq hn.symm), rfl⟩

/-- The instruction of a 32-bit T32 hint number is encoded with that number (R53). -/
theorem encode_of_decodeT32Hint {hw2 : Half} {i : Instr} {more : List Byte}
    (h : decodeT32Hint hw2 = .instr i more) :
    encode i = encodeT32Hint (hw2.extractLsb' 0 8) ∧ i.iset = .t32 := by
  unfold decodeT32Hint at h
  split at h <;> rename_i hn <;> cases h
  all_goals exact ⟨congrArg encodeT32Hint (BitVec.eq_of_toNat_eq hn.symm), rfl⟩

/-- The fields of an A32 hint make up the word (R51). -/
theorem a32Hint_fields {w : Word} {cond : Cond} (hcond : w.extractLsb' 28 4 = cond.bits)
    (hpattern : w.extractLsb' 16 12 = 0x320#12) (hshouldBe : w.extractLsb' 8 8 = 0xF0#8) :
    cond.bits ++ 0x320#12 ++ 0xF0#8 ++ w.extractLsb' 0 8 = w := by
  rw [← hcond, ← hpattern, ← hshouldBe]
  simp only [BitVec.extractLsb'_append_extractLsb'_eq_extractLsb']
  exact BitVec.extractLsb'_eq_self

/-- The fields of an A32 `DSB` make up the word (R56). -/
theorem a32Dsb_fields {w : Word} (hpattern : w.extractLsb' 20 12 = 0xF57#12)
    (hshouldBe : w.extractLsb' 8 12 = 0xFF0#12) (hdsb : w.extractLsb' 4 4 = 0b0100#4) :
    0xF57FF04#28 ++ w.extractLsb' 0 4 = w := by
  have hhigh : (0xF57FF04#28 : BitVec 28) = w.extractLsb' 20 12 ++ w.extractLsb' 8 12
      ++ w.extractLsb' 4 4 := by
    rw [hpattern, hshouldBe, hdsb]
    rfl
  rw [hhigh]
  simp only [BitVec.extractLsb'_append_extractLsb'_eq_extractLsb']
  exact BitVec.extractLsb'_eq_self

/-- The fields of a 16-bit T32 hint make up the halfword (R52). -/
theorem t16Hint_fields {hw : Half} (hpattern : hw.extractLsb' 8 8 = 0xBF#8)
    (hlow : hw.extractLsb' 0 4 = 0#4) : 0xBF#8 ++ hw.extractLsb' 4 4 ++ 0#4 = hw := by
  rw [← hpattern, ← hlow]
  simp only [BitVec.extractLsb'_append_extractLsb'_eq_extractLsb']
  exact BitVec.extractLsb'_eq_self

/-- A halfword is its upper twelve bits and its lower four. -/
theorem half_eq_of_fields {hw : Half} {high : BitVec 12} {low : BitVec 4}
    (hhigh : hw.extractLsb' 4 12 = high) (hlow : hw.extractLsb' 0 4 = low) : high ++ low = hw := by
  rw [← hhigh, ← hlow]
  exact BitVec.extractLsb'_append_extractLsb'

/-- The fields of the second halfword of a T32 hint make it up (R53). -/
theorem t32Hint_fields {hw2 : Half} (h14 : hw2.extractLsb' 14 2 = 0b10#2)
    (h13 : hw2.extractLsb' 13 1 = 0#1) (h12 : hw2.extractLsb' 12 1 = 0#1)
    (h11 : hw2.extractLsb' 11 1 = 0#1) (h8 : hw2.extractLsb' 8 3 = 0#3) :
    0x80#8 ++ hw2.extractLsb' 0 8 = hw2 := by
  have hhigh : (0x80#8 : Byte) = hw2.extractLsb' 14 2 ++ hw2.extractLsb' 13 1
      ++ hw2.extractLsb' 12 1 ++ hw2.extractLsb' 11 1 ++ hw2.extractLsb' 8 3 := by
    rw [h14, h13, h12, h11, h8]
    rfl
  rw [hhigh]
  simp only [BitVec.extractLsb'_append_extractLsb'_eq_extractLsb']
  exact BitVec.extractLsb'_eq_self

/-- The fields of the second halfword of a T32 `DSB` make it up (R56). -/
theorem t32Dsb_fields {hw2 : Half} (h14 : hw2.extractLsb' 14 2 = 0b10#2)
    (h13 : hw2.extractLsb' 13 1 = 0#1) (h12 : hw2.extractLsb' 12 1 = 0#1)
    (h8 : hw2.extractLsb' 8 4 = 0xF#4) (h4 : hw2.extractLsb' 4 4 = 0b0100#4) :
    0x8F4#12 ++ hw2.extractLsb' 0 4 = hw2 := by
  refine half_eq_of_fields ?_ rfl
  calc hw2.extractLsb' 4 12
      _ = hw2.extractLsb' 14 2 ++ hw2.extractLsb' 13 1 ++ hw2.extractLsb' 12 1
            ++ hw2.extractLsb' 8 4 ++ hw2.extractLsb' 4 4 := by
        simp only [BitVec.extractLsb'_append_extractLsb'_eq_extractLsb']
      _ = 0x8F4#12 := by rw [h14, h13, h12, h8, h4]; rfl

/-- An A32 word that decodes is the encoding of what it decodes to (R51, R56). -/
theorem encode_of_decodeA32 {w : Word} {i : Instr} {more : List Byte}
    (h : decodeA32 w = .instr i more) : encode i = wordBytes w ∧ i.iset = .a32 := by
  unfold decodeA32 at h
  split at h
  case isTrue hpattern =>
    split at h
    case h_1 => cases h
    case h_2 cond hcond =>
      split at h
      case isTrue hshouldBe =>
        obtain ⟨henc, hiset⟩ := encode_of_decodeA32Hint h
        refine ⟨henc.trans ?_, hiset⟩
        rw [encodeA32Hint, a32Hint_fields (bits_of_condOfBits hcond).symm hpattern hshouldBe]
      case isFalse => cases h
  case isFalse =>
    split at h
    case isTrue hdsb =>
      obtain ⟨hpattern, hlow⟩ := hdsb
      split at h
      case isTrue hshouldBe =>
        cases h
        exact ⟨congrArg wordBytes (a32Dsb_fields hpattern hshouldBe hlow), rfl⟩
      case isFalse => cases h
    case isFalse => cases h

/-- A 16-bit T32 halfword that decodes is the encoding of what it decodes to (R52). -/
theorem encode_of_decodeT16 {hw : Half} {i : Instr} {more : List Byte}
    (h : decodeT16 hw = .instr i more) : encode i = halfBytes hw ∧ i.iset = .t32 := by
  unfold decodeT16 at h
  split at h
  case isTrue hfields =>
    obtain ⟨hpattern, hlow⟩ := hfields
    rw [← t16Hint_fields hpattern hlow, ← encodeT16Hint]
    split at h <;> rename_i hn <;> cases h
    all_goals exact ⟨congrArg encodeT16Hint (BitVec.eq_of_toNat_eq hn.symm), rfl⟩
  case isFalse => cases h

/-- Two T32 halfwords that decode are the encoding of what they decode to (R53, R56). -/
theorem encode_of_decodeT32 {hw1 hw2 : Half} {i : Instr} {more : List Byte}
    (h : decodeT32 hw1 hw2 = .instr i more) :
    encode i = halfBytes hw1 ++ halfBytes hw2 ∧ i.iset = .t32 := by
  unfold decodeT32 at h
  split at h
  case isTrue hfields =>
    obtain ⟨hpattern, h14, h12, h8⟩ := hfields
    split at h
    case isTrue hshouldBe =>
      obtain ⟨hlow, h13, h11⟩ := hshouldBe
      obtain ⟨henc, hiset⟩ := encode_of_decodeT32Hint h
      refine ⟨henc.trans ?_, hiset⟩
      rw [encodeT32Hint, t32Hint_fields h14 h13 h12 h11 h8, ← half_eq_of_fields hpattern hlow]
      rfl
    case isFalse => cases h
  case isFalse =>
    split at h
    case isTrue hfields =>
      obtain ⟨hpattern, h14, h12, h4⟩ := hfields
      split at h
      case isTrue hshouldBe =>
        obtain ⟨hlow, h13, h8⟩ := hshouldBe
        cases h
        rw [encode, t32Dsb_fields h14 h13 h12 h8 h4, ← half_eq_of_fields hpattern hlow]
        exact ⟨rfl, rfl⟩
      case isFalse => cases h
    case isFalse => cases h

theorem before_eq_instr {d : Decoded} {rest rest' : List Byte} {i : Instr} :
    d.before rest = .instr i rest' ↔ (∃ more, d = .instr i more) ∧ rest = rest' := by
  cases d <;> simp [Decoded.before]

/-- Settles O2, by the bytes each kind of instruction is read from. -/
theorem encodeOfDecode : Obligations.EncodeOfDecode := by
  intro iset bytes rest i h
  unfold decode at h
  split at h
  case h_1 b0 b1 b2 b3 bs =>
    obtain ⟨⟨more, hd⟩, rfl⟩ := before_eq_instr.mp h
    obtain ⟨henc, hiset⟩ := encode_of_decodeA32 hd
    rw [henc, wordBytes_wordOf]
    exact ⟨rfl, hiset⟩
  case h_2 => cases h
  case h_3 b0 b1 bs =>
    split at h
    case isTrue =>
      split at h
      case h_1 b2 b3 bs' =>
        obtain ⟨⟨more, hd⟩, rfl⟩ := before_eq_instr.mp h
        obtain ⟨henc, hiset⟩ := encode_of_decodeT32 hd
        rw [henc, halfBytes_halfOf, halfBytes_halfOf]
        exact ⟨rfl, hiset⟩
      case h_2 => cases h
    case isFalse =>
      obtain ⟨⟨more, hd⟩, rfl⟩ := before_eq_instr.mp h
      obtain ⟨henc, hiset⟩ := encode_of_decodeT16 hd
      rw [henc, halfBytes_halfOf]
      exact ⟨rfl, hiset⟩
  case h_4 => cases h

end Sys2Proof
end

section
/-! PROOFS. What the decoder refuses (R57, R59), and the words of the decoding vectors. -/

namespace Sys2Proof

theorem condOfBits_of_ne {b : BitVec 4} (h : b ≠ 0b1111#4) : ∃ cond, condOfBits b = some cond := by
  rw [← Option.isSome_iff_exists]
  revert b
  decide

/-- A field of a field is a field of the whole. -/
theorem extractLsb'_of_field {w start len start' len' : Nat} (x : BitVec w)
    (h : start' + len' ≤ len) :
    (x.extractLsb' start len).extractLsb' start' len' = x.extractLsb' (start + start') len' := by
  ext k hk
  simp only [BitVec.getElem_extractLsb', BitVec.getLsbD_extractLsb', Nat.add_assoc,
    show start' + k < len by omega, decide_true, Bool.true_and]

/-- A halfword beginning with 11110 calls for a second one (R54). -/
theorem t32Wide_of_pattern {hw1 : Half} {pattern : BitVec 12} (h : hw1.extractLsb' 4 12 = pattern)
    (hp : pattern.extractLsb' 7 5 = 0b11110#5) : t32Wide hw1 = true := by
  have htop : hw1.extractLsb' 11 5 = 0b11110#5 := by
    rw [← hp, ← h, extractLsb'_of_field hw1 (by omega)]
  simp [t32Wide, htop]

/-- The pattern of an A32 `DSB` is not that of a hint: bits 27 to 20 differ (R51, R56). -/
theorem a32Hint_ne_of_dsb {w : Word} (h : w.extractLsb' 20 12 = 0xF57#12) :
    w.extractLsb' 16 12 ≠ 0x320#12 := by
  intro hhint
  have hshared : (w.extractLsb' 20 12).extractLsb' 0 8 = (w.extractLsb' 16 12).extractLsb' 4 8 := by
    rw [extractLsb'_of_field w (by omega), extractLsb'_of_field w (by omega)]
  rw [h, hhint] at hshared
  exact absurd hshared (by decide)

/-- Settles O4, clause by clause: the branch of the decoder each word falls in. -/
theorem reservedWordsRefused : Obligations.ReservedWordsRefused := by
  refine ⟨?_, ?_, ?_, ?_, ?_⟩
  · intro w rest hcond hpattern
    have hnone : condOfBits (0b1111#4) = none := rfl
    rw [decode_wordBytes, decodeA32, if_pos hpattern, hcond, hnone]
    rfl
  · intro w rest hcond hpattern hshouldBe
    obtain ⟨cond, hsome⟩ := condOfBits_of_ne hcond
    rw [decode_wordBytes, decodeA32, if_pos hpattern, hsome]
    simp only [if_neg hshouldBe, Decoded.before]
  · intro w rest hpattern hdsb hshouldBe
    rw [decode_wordBytes, decodeA32, if_neg (a32Hint_ne_of_dsb hpattern), if_pos ⟨hpattern, hdsb⟩,
      if_neg hshouldBe]
    rfl
  · intro hw1 hw2 rest hpattern h14 h12 h8 hshouldBe
    rw [decode_wideBytes _ _ _ (t32Wide_of_pattern hpattern rfl), decodeT32,
      if_pos ⟨hpattern, h14, h12, h8⟩, if_neg (by tauto)]
    rfl
  · intro hw1 hw2 rest hpattern h14 h12 h4 hshouldBe
    have hhint : hw1.extractLsb' 4 12 ≠ 0xF3A#12 := by
      rw [hpattern]
      decide
    rw [decode_wideBytes _ _ _ (t32Wide_of_pattern hpattern rfl), decodeT32, if_neg (by tauto),
      if_pos ⟨hpattern, h14, h12, h4⟩, if_neg (by tauto)]
    rfl

/-- Settles O3: each word is the encoding of its instruction, which `decodeOfEncode` decodes. -/
theorem vectorWordsDecode : Obligations.VectorWordsDecode :=
  ⟨decodeOfEncode (.wfeA1 .al) [], decodeOfEncode (.wfiA1 .al) [], decodeOfEncode (.sevlA1 .al) [],
    decodeOfEncode (.wfeA1 .ne) [], decodeOfEncode (.sevA1 .eq) [], decodeOfEncode (.dsbA1 optionSy) [],
    decodeOfEncode .wfeT1 [], decodeOfEncode .wfiT1 [], decodeOfEncode .sevT1 [],
    decodeOfEncode .sevlT1 [], decodeOfEncode .wfeT2 [], decodeOfEncode .wfiT2 [],
    decodeOfEncode .sevT2 [], decodeOfEncode .sevlT2 [], decodeOfEncode (.dsbT1 optionSy) []⟩

end Sys2Proof
end

section
/-! PROOFS. The condition of an instruction (R55, R56, R60), what comes of one that fails, and the
barrier options this spec refuses (R56). -/

namespace Sys2Proof.Machine

/-- The slot of the IT block at an address is the first one listed there; none is always (R60). -/
theorem itCond_eq_lookup (slots : List (Word × Cond)) (pc : Word) :
    itCond slots pc = (slots.lookup pc).getD .al := by
  induction slots with
  | nil => rfl
  | cons slot later ih =>
    obtain ⟨a, cond⟩ := slot
    by_cases h : a = pc
    · subst h
      simp [itCond]
    · have hne : (pc == a) = false := beq_false_of_ne (Ne.symm h)
      simp [itCond, h, ih, List.lookup_cons, hne]

/-- A T32 instruction executes under the condition of its slot of the IT block (R60). -/
theorem conditionPassed_itBlock {f : Form} (hf : f.source = .itBlock) (c : Context) :
    conditionPassed f c = condHolds c.pstate ((c.pstate.itBlock.lookup c.pc).getD .al) := by
  rw [conditionPassed, formCond, hf, itCond_eq_lookup]

/-- A Running PE whose condition fails moves past the instruction (R55). -/
theorem executeHint_failed {f : Form} {op : State → Pe → State} {s : State} {pe : Pe}
    (hp : s.pes[s.cur]? = some pe) (hr : pe.run = .running)
    (hc : conditionPassed f pe.ctx = false) :
    executeHint f op s = .next (s.modifyPe s.cur fun q => q.complete f.len) := by
  simp [executeHint, hp, hr, hc]

/-- Settles O10: the source of the condition by the constructor, the table by the condition, and the
failed condition in the frame every instruction shares. -/
theorem failedConditionOnlyMovesPc : Obligations.FailedConditionOnlyMovesPc := by
  refine ⟨?_, ?_, ?_⟩
  · intro i c
    cases i with
    | wfeA1 | wfiA1 | sevA1 | sevlA1 | dsbA1 => rfl
    | wfeT1 | wfiT1 | sevT1 | sevlT1 | wfeT2 | wfiT2 | sevT2 | sevlT2 | dsbT1 =>
      exact conditionPassed_itBlock rfl c
  · intro p c
    cases c <;> rfl
  · intro i s pe hwf hp hr hc
    rw [exec_eq hwf, executeHint_failed hp hr hc]
    rfl

theorem executeDsb_refused {option : BitVec 4} (h : option ≠ optionSy) (f : Form) (s : State) :
    executeDsb f option s = .refused (.dsbOption option) := if_neg h

/-- Settles O36: both encodings are `executeDsb`. -/
theorem otherBarrierOptionsRefused : Obligations.OtherBarrierOptionsRefused := by
  intro option s h
  exact ⟨executeDsb_refused h formA1Always s, executeDsb_refused h formT32 s⟩

end Sys2Proof.Machine
end

section
/-! PROOFS. Wait For Event (R71 to R75, R94, R165): another exception that comes first, the levels that are
wakeup events, the instruction branch by branch, and what a suspension in `WFE` presupposes. -/

namespace Sys2Proof.Machine

/-! Another exception comes first. -/

/-- A next state in which PE `p` is changed is fixed by what the change makes of that PE as it stands. -/
theorem next_modifyPe_congr {s : State} {p : Nat} {pe : Pe} {f g : Pe → Pe}
    (hp : s.pes[p]? = some pe) (h : f pe = g pe) :
    (.next (s.modifyPe p f) : Host.Outcome State Fault Refusal) = .next (s.modifyPe p g) :=
  congrArg Host.Outcome.next (modifyPe_congr hp h)

/-- A Running PE whose instruction causes another exception takes it (R72 (a), R169). -/
theorem executeOn_otherException {s : State} {p : Nat} {pe : Pe} (hp : s.pes[p]? = some pe)
    (hr : pe.run = .running) (ho : pe.inputs.otherException = true) :
    executeOn p s = .next (s.modifyPe p (takeOtherException { draw := s.draws, pe := p })) := by
  simp [executeOn, hp, hr, ho]

/-- Settles O8: the context is the one the host's exception entry leaves. -/
theorem otherExceptionComesFirst : Obligations.OtherExceptionComesFirst := by
  intro s p pe hp hr ho
  refine ⟨Config.exceptionEntry (s.draws + 1) p pe.ctx, ?_⟩
  exact (executeOn_otherException (s := s.tick) hp hr ho).trans
    (next_modifyPe_congr (s := s.tick) hp rfl)

/-! The levels. -/

/-- `EDSCR.INTdis` disables an interrupt in the configuration of R92 only. -/
theorem not_intdis_iff (pe : Pe) (disabled : Bool) :
    (!(disabled && intdisActive pe)) = true ↔ ¬ (disabled = true
      ∧ pe.inputs.invasiveDebug = true ∧ pe.ctx.edscr.getLsbD 14 = true) := by
  rw [Bool.not_eq_true', ← Bool.not_eq_true, Bool.and_eq_true, intdisActive, Bool.and_eq_true,
    edscrHde]

/-- When one physical interrupt is a WFE wakeup event (R82 to R84), by its own bits. -/
theorem physicalLevel_iff (pr : Params) (pe : Pe) (pending masked effective disabled : Bool) :
    (pending && (!masked || !(effective || !(pr.haveEL2 || pr.haveEL3)))
        && !(disabled && intdisActive pe)) = true ↔
      pending = true
        ∧ (masked = false ∨ (effective = false ∧ (pr.haveEL2 = true ∨ pr.haveEL3 = true)))
        ∧ ¬ (disabled = true ∧ pe.inputs.invasiveDebug = true
          ∧ pe.ctx.edscr.getLsbD 14 = true) := by
  rw [Bool.and_eq_true, not_intdis_iff, Bool.and_eq_true, and_assoc]
  simp only [Bool.or_eq_true, Bool.not_eq_true', Bool.or_eq_false_iff, Bool.not_eq_false']

/-- When one virtual interrupt is a WFE wakeup event (R85 to R87), by its own bits. -/
theorem virtualLevel_iff (pe : Pe) (pending routed masked disabled : Bool) :
    (pending && (routed && !masked) && !(disabled && intdisActive pe)) = true ↔
      routed = true ∧ pending = true ∧ masked = false
        ∧ ¬ (disabled = true ∧ pe.inputs.invasiveDebug = true
          ∧ pe.ctx.edscr.getLsbD 14 = true) := by
  rw [Bool.and_eq_true, not_intdis_iff, Bool.and_eq_true, Bool.and_eq_true, Bool.not_eq_true']
  tauto

theorem perExcAny_iff (x : PerExc) :
    perExcAny x = true ↔ x.irq = true ∨ x.fiq = true ∨ x.serror = true := by
  simp [perExcAny, or_assoc]

/-- Settles O17: interrupt by interrupt, `physicalLevel_iff` and `virtualLevel_iff`. -/
theorem wfeWakeupLevels : Obligations.WfeWakeupLevels := by
  intro pr pe
  have hdebug : debugWakeup pe = true ↔
      pe.inputs.edbgrq = true ∧ pe.inputs.haltingAllowed = true := Bool.and_eq_true_iff
  simp only [wfeWakeupPending, Bool.or_eq_true, Bool.and_eq_true (virtualWakeups _), perExcAny_iff,
    virtualWakeups_iff, hdebug, wfePhysical, wfeVirtual, perExcMap3, intdisMasks_irq,
    intdisMasks_fiq, intdisMasks_serror, physMaskEffective_irq, physMaskEffective_fiq,
    physMaskEffective_serror, physicalLevel_iff, virtualLevel_iff, pstateMasks, hcrRouting, or_assoc]

/-! The instruction. -/

theorem instrForm_iset (i : Instr) : (instrForm i).iset = i.iset := by
  cases i <;> rfl

/-- Only a `DSB` can fail to be well-formed (R56). -/
theorem wellFormed_of_not_dsb {i : Instr} (h : instrOp i ≠ .dsb) : i.wellFormed = true := by
  cases i with
  | dsbA1 | dsbT1 => exact absurd rfl h
  | _ => rfl

/-- An instruction other than `DSB` whose premise holds carries out its operation. -/
theorem exec_ready {i : Instr} {s : State} {pe : Pe} (hop : instrOp i ≠ .dsb) (h : Ready i s pe) :
    exec i s = .next (instrEffect i s pe) := by
  obtain ⟨hp, hr, hc⟩ := h
  rw [exec_eq (wellFormed_of_not_dsb hop), executeHint_passed hp hr hc]

/-- A `WFE` does to the executing PE what `waitForEvent` does to it as it stands. -/
theorem exec_wfe {i : Instr} {s : State} {pe : Pe} {f : Pe → Pe} (hop : instrOp i = .wfe)
    (h : Ready i s pe) (hf : waitForEvent s.occasion s.params (instrForm i) pe = f pe) :
    exec i s = .next (s.modifyPe s.cur f) := by
  obtain ⟨hp, -, -⟩ := id h
  rw [exec_ready (by simp [hop]) h, instrEffect, hop]
  exact next_modifyPe_congr hp hf

theorem trappedOr_of_none {o : Occasion} {pr : Params} {kind : WaitKind} {f : Form} {pe other : Pe}
    (h : wfxTrap pr kind pe.ctx = none) : trappedOr o pr kind f pe other = other := by
  simp only [trappedOr, h]

theorem trappedOr_of_some {o : Occasion} {pr : Params} {kind : WaitKind} {f : Form} {pe other : Pe}
    {target : TrapTarget} (h : wfxTrap pr kind pe.ctx = some target) :
    trappedOr o pr kind f pe other = takeTrap o
      { target := target, kind := kind, pc := pe.ctx.pc, len := f.len, iset := f.iset
        cond := formCond f pe.ctx } pe := by
  simp only [trappedOr, h]

/-- A wait with a wakeup event pending completes where it is not trapped (R165). -/
theorem completePending_of_untrapped {o : Occasion} {pr : Params} {kind : WaitKind} {f : Form}
    {pe : Pe} (h : pr.trapWhenWakeupPending = false ∨ wfxTrap pr kind pe.ctx = none) :
    completePending o pr kind f pe = pe.complete f.len := by
  rcases h with h | h
  · simp [completePending, h]
  · simp only [completePending, trappedOr_of_none h, ite_self]

/-- Under `trap_when_wakeup_pending` the implementation may trap such a wait (R165). -/
theorem completePending_of_trapControl {o : Occasion} {pr : Params} {kind : WaitKind} {f : Form}
    {pe : Pe} {target : TrapTarget} (hpr : pr.trapWhenWakeupPending = true)
    (h : wfxTrap pr kind pe.ctx = some target) :
    completePending o pr kind f pe = if o.choose .trapPending then
        takeTrap o
          { target := target, kind := kind, pc := pe.ctx.pc, len := f.len, iset := f.iset
            cond := formCond f pe.ctx } pe
      else pe.complete f.len := by
  simp only [completePending, hpr, Bool.true_and, trappedOr_of_some h]

/-- `WFE` with a wakeup event pending (R72 (c)). -/
theorem waitForEvent_of_pending {o : Occasion} {pr : Params} {f : Form} {pe : Pe}
    (her : pe.er = false) (hp : wfeWakeupPending pr pe = true) :
    waitForEvent o pr f pe = completePending o pr .wfe f pe := by
  simp [waitForEvent, her, hp]

/-- `WFE` with nothing pending: what would suspend it is the trap where a control applies (R74, R75). -/
theorem waitForEvent_of_nothing_pending {o : Occasion} {pr : Params} {f : Form} {pe : Pe}
    (her : pe.er = false) (hp : wfeWakeupPending pr pe = false) :
    waitForEvent o pr f pe = if o.choose .suspend then
        trappedOr o pr .wfe f pe { pe with run := .suspendedWfe f.len, wakereq := false }
      else pe.complete f.len := by
  simp [waitForEvent, her, hp]

/-- Settles O11: the first branch of `waitForEvent`. -/
theorem wfeWithRegisterSetCompletes : Obligations.WfeWithRegisterSetCompletes := by
  intro i s pe hop h her
  exact exec_wfe hop h (if_pos her)

/-- Settles O12: the two cases of `completePending`. -/
theorem wfeWithWakeupPendingCompletes : Obligations.WfeWithWakeupPendingCompletes := by
  intro i s pe hop h her hp
  obtain ⟨hpe, -, -⟩ := id h
  have hwait := waitForEvent_of_pending (o := s.occasion) (f := instrForm i) her hp
  refine ⟨_, exec_wfe (f := waitForEvent s.occasion s.params (instrForm i)) hop h rfl, ?_, ?_⟩
  · intro huntrapped
    exact modifyPe_congr hpe (hwait.trans (completePending_of_untrapped huntrapped))
  · intro target hpr htrap
    rw [← instrForm_iset]
    exact modifyPe_congr hpe (hwait.trans (completePending_of_trapControl hpr htrap))

/-- Settles O13: no trap control applies, so the choice is between suspending and completing. -/
theorem wfeSuspendsOrCompletes : Obligations.WfeSuspendsOrCompletes := by
  intro i s pe hop h her hp htrap
  refine exec_wfe hop h ?_
  rw [waitForEvent_of_nothing_pending her hp, trappedOr_of_none htrap]
  rfl

/-- Settles O14: a trap control applies, so the choice is between the trap and completing. -/
theorem wfeIsTrappedOrCompletes : Obligations.WfeIsTrappedOrCompletes := by
  intro i s pe target hop h her hp htrap
  refine exec_wfe hop h ?_
  rw [waitForEvent_of_nothing_pending her hp, trappedOr_of_some htrap, instrForm_iset]
  rfl

/-! What a suspension in `WFE` presupposes. -/

/-- What holds of a PE that a `WFE` of its own suspends (R72, R74, R75). -/
def MaySuspendInWfe (o : Occasion) (pr : Params) (pe : Pe) : Prop :=
  pe.er = false ∧ wfeWakeupPending pr pe = false ∧ wfxTrap pr .wfe pe.ctx = none
    ∧ o.choose .suspend = true

theorem waitForEvent_suspended {o : Occasion} {pr : Params} {f : Form} {pe : Pe} {len : Nat}
    (hr : pe.run = .running) (h : (waitForEvent o pr f pe).run = .suspendedWfe len) :
    MaySuspendInWfe o pr pe := by
  rcases waitForEvent_cases o pr f pe with
    ⟨-, e⟩ | ⟨-, e⟩ | ⟨-, r, -, -, -, -, e⟩ | ⟨her, hp, htrap, hs, -⟩
  · simp [e, hr] at h
  · simp [e, hr] at h
  · simp [e, hr] at h
  · exact ⟨her, hp, htrap, hs⟩

theorem waitForInterrupt_not_suspendedWfe {o : Occasion} {pr : Params} {f : Form} {pe : Pe}
    {len : Nat} (hr : pe.run = .running) : (waitForInterrupt o pr f pe).run ≠ .suspendedWfe len := by
  rcases waitForInterrupt_cases o pr f pe with
    e | ⟨r, -, -, -, e⟩ | ⟨-, -, -, e⟩ | ⟨-, -, -, -, e⟩ <;> simp [e, hr]

/-- Of the instructions only a `WFE` suspends a PE in `WFE`, the one that executes it. -/
theorem instrOnPe_suspendedWfe {i : Instr} {s : State} {p : Nat} {pe : Pe} {len : Nat}
    (hr : pe.run = .running) (h : (instrOnPe i s p pe).run = .suspendedWfe len) :
    p = s.cur ∧ MaySuspendInWfe s.occasion s.params pe := by
  by_cases hc : p = s.cur
  · subst hc
    refine ⟨rfl, ?_⟩
    rw [instrOnPe_cur] at h
    cases hop : instrOp i <;> simp only [hop] at h
    case wfe => exact waitForEvent_suspended hr h
    case wfi => exact absurd h (waitForInterrupt_not_suspendedWfe hr)
    case sev => simp [hr] at h
    case sevl => simp [hr] at h
    case dsb => split at h <;> simp [hr] at h
  · rcases instrOnPe_other i s p pe hc with e | ⟨-, e⟩ <;> simp [e, hr] at h

/-- A step that suspends a Running PE in `WFE` is the PE's own, and runs an instruction of it. -/
theorem stepWith_suspendedWfe {m : Move} {s t : State} {p : Nat} {pe pe' : Pe} {len : Nat}
    (h : stepWith m s = .next t) (hp : s.pes[p]? = some pe) (hp' : t.pes[p]? = some pe')
    (hr : pe.run = .running) (hs : pe'.run = .suspendedWfe len) :
    m = .execute p ∧ pe.inputs.otherException = false
      ∧ MaySuspendInWfe { draw := s.draws + 1, pe := p } s.params pe := by
  rcases stepWith_get h hp with
    ⟨-, -, e⟩ | ⟨q, rfl, e | ⟨me, hme, -, ⟨-, e⟩ | ⟨ho, i, -, -, ⟨-, e⟩ | ⟨-, e⟩⟩⟩⟩
  all_goals obtain rfl := Option.some.inj (hp'.symm.trans e)
  · simp [moveOnPe_running m s.tick p pe hr] at hs
  · simp [hr] at hs
  · split at hs <;> simp [takeOtherException, hr] at hs
  · split at hs <;> simp [hr] at hs
  · obtain ⟨hq, hmay⟩ := instrOnPe_suspendedWfe hr hs
    obtain rfl : p = q := hq
    obtain rfl := Option.some.inj (hp.symm.trans hme)
    exact ⟨rfl, ho, hmay⟩

/-- Settles O15: each condition contradicts what a suspension presupposes (`stepWith_suspendedWfe`). -/
theorem wfeSuspendsOnlyIf : Obligations.WfeSuspendsOnlyIf := by
  intro m s t p pe pe' h hp hp' hr hcond len hs
  obtain ⟨hm, ho, her, hpending, htrap, hchoice⟩ := stepWith_suspendedWfe h hp hp' hr hs
  have hchosen : Config.choose (s.draws + 1) p .suspend = true := hchoice
  rcases hcond with hne | ho' | her' | hpending' | ⟨target, htrap'⟩ | hchoice'
  · exact hne hm
  · simp [ho] at ho'
  · simp [her] at her'
  · simp [hpending] at hpending'
  · simp [htrap] at htrap'
  · simp [hchosen] at hchoice'

end Sys2Proof.Machine
end

section
/-! PROOFS. The agents (R18, R99, R100, R102, R143): what an event, a change of the inputs and a resume
step do to their PE, and that a move reaches no other. -/

namespace Sys2Proof.Machine

/-- Settles O44: each event is what noting it does to the latch (`noteWfeEvent_eq`, `noteWfiEvent_eq`). -/
theorem instantaneousEvents : Obligations.InstantaneousEvents := by
  intro s p pe hp
  have hevent := noteWfeEvent_eq pe.setEventRegister
  refine ⟨?_, ?_, ?_⟩
  · rintro m (rfl | rfl)
    · exact next_modifyPe_congr (s := s.tick) hp hevent
    · exact next_modifyPe_congr (s := s.tick) hp hevent
  · exact next_modifyPe_congr (s := s.tick) hp (congrArg (fun q : Pe => { q with
      er := s.params.gmClearSetsEr || pe.er, monitor := false }) (noteWfeEvent_eq pe))
  · exact next_modifyPe_congr (s := s.tick) hp (noteWfiEvent_eq pe)

/-- An input of R19 differs in two records where one of the five does. -/
theorem wakeInputsDiffer_iff (i j : Inputs) : wakeInputsDiffer i j = true ↔
    i.physical ≠ j.physical ∨ i.virtual ≠ j.virtual ∨ i.edbgrq ≠ j.edbgrq
      ∨ i.haltingAllowed ≠ j.haltingAllowed ∨ i.invasiveDebug ≠ j.invasiveDebug := by
  simp only [wakeInputsDiffer, Bool.or_eq_true, decide_eq_true_eq, bne_iff_ne, or_assoc]

/-- The change of PE `p` leaves every other PE. -/
theorem modifyPe_sameButPe (s : State) (p : Nat) (f : Pe → Pe) :
    SameButPe p s (s.modifyPe p f) :=
  ⟨modifyPe_length s p f, fun q hq => modifyPe_other s p q f hq⟩

/-- Settles O45: what changes is `changeInputs_eq`. -/
theorem inputChangeRequestsWake : Obligations.InputChangeRequestsWake := by
  intro s p pe i hp
  refine ⟨s.tick.modifyPe p (Pe.changeInputs s.params i), pe.changeInputs s.params i, rfl, ?_,
    modifyPe_sameButPe s.tick p _, rfl, ?_⟩
  · rw [modifyPe_same, tick_pes, hp, Option.map_some]
  rw [changeInputs_eq]
  refine ⟨fun h => Bool.and_elim_left h, rfl, ?_, ?_⟩
  · intro h1 h2 h3 h4 h5
    have hsame : wakeInputsDiffer i pe.inputs = false := by
      rw [← Bool.not_eq_true, wakeInputsDiffer_iff]
      tauto
    simp [hsame]
  · intro hdiff
    rw [(wakeInputsDiffer_iff i pe.inputs).mpr hdiff]
    cases pe.run <;> simp

/-- Settles O46: `resume_wfe` and `resume_wfi`. -/
theorem resumeFromSuspension : Obligations.ResumeFromSuspension := by
  refine ⟨fun s p pe len hp hr => ?_, fun s p pe len hp hr => ?_⟩
  · exact next_modifyPe_congr (s := s.tick) hp (resume_wfe _ pe len hr)
  · exact next_modifyPe_congr (s := s.tick) hp (resume_wfi _ pe len hr)

/-- Settles O55: a move of the environment reaches its own PE only (`moveOnPe_other`), another PE's step
at most puts a delivery in flight (`stepWith_execute_other`). -/
theorem pesAreIsolated : Obligations.PesAreIsolated := by
  intro m s t q pe pe' h hm hp hp'
  have unchanged : pe' = pe → pe' = { pe with sevq := pe'.sevq } ∧ pe.sevq ≤ pe'.sevq
      ∧ pe'.sevq ≤ pe.sevq + 1 ∧ ((∀ p, m ≠ .execute p) → pe' = pe) := by
    rintro rfl
    exact ⟨rfl, le_rfl, Nat.le_succ _, fun _ => rfl⟩
  rcases stepWith_get h hp with ⟨-, -, e⟩ | ⟨p, rfl, -⟩
  · obtain rfl := Option.some.inj (hp'.symm.trans e)
    exact unchanged (moveOnPe_other m s.tick q pe hm)
  · rcases stepWith_execute_other h hp hp' (Ne.symm hm) with e | rfl
    · exact unchanged e
    · exact ⟨rfl, Nat.le_succ _, le_rfl, fun hne => absurd rfl (hne p)⟩

end Sys2Proof.Machine
end

section
/-! PROOFS. Progress (R101, R120): what a suspended PE keeps until it resumes or is reset, packaged once
for runs, and with the fairness of D29 that it runs again. -/

namespace Sys2Proof.Machine

/-! What a suspended PE keeps in a step. -/

/-- PE `p` is Running. -/
def PeRunning (p : Nat) (s : State) : Prop := ∃ pe, s.pes[p]? = some pe ∧ pe.run = .running

/-- PE `p` is suspended in `WFE`, and a wakeup event has occurred for it (R18). -/
def WfeWakeRequested (p : Nat) (s : State) : Prop :=
  ∃ pe len, s.pes[p]? = some pe ∧ pe.run = .suspendedWfe len ∧ pe.wakereq = true

/-- PE `p` is suspended in `WFE`, and a wakeup event has occurred for it or is on its way (R18, R22). -/
def WfeWakeComing (p : Nat) (s : State) : Prop :=
  ∃ pe len, s.pes[p]? = some pe ∧ pe.run = .suspendedWfe len ∧ (pe.wakereq = true ∨ 0 < pe.sevq)

/-- Every PE is still there after a step. -/
theorem stepWith_pe {m : Move} {s t : State} {p : Nat} {pe : Pe} (h : stepWith m s = .next t)
    (hp : s.pes[p]? = some pe) : ∃ pe', t.pes[p]? = some pe' :=
  (stepWith_hostReset h hp).imp fun _ => And.left

/-- A step that is neither its resume step nor its reset leaves a suspended PE suspended and its wake
request pending, and takes none of the deliveries to it but one that is performed. -/
theorem stepWith_suspended {m : Move} {s t : State} {p : Nat} {pe pe' : Pe}
    (h : stepWith m s = .next t) (hp : s.pes[p]? = some pe) (hp' : t.pes[p]? = some pe')
    (hr : pe.run ≠ .running) (hres : m ≠ .resume p) (hrst : m ≠ .reset p) :
    pe'.run = pe.run ∧ (pe.wakereq = true → pe'.wakereq = true)
      ∧ (m ≠ .deliver p → pe.sevq ≤ pe'.sevq) := by
  rcases stepWith_get h hp with ⟨-, -, e⟩ | ⟨q, rfl, -⟩
  · obtain rfl := Option.some.inj (hp'.symm.trans e)
    obtain ⟨hrun, -, hw, hq, -⟩ := moveOnPe_suspended m s.tick p pe hr hres hrst
    exact ⟨hrun, hw, fun hm => (hq hm).ge⟩
  by_cases hq : p = q
  · subst hq
    obtain rfl := Host.Outcome.next.inj ((executeOn_not_running (s := s.tick) hp hr).symm.trans h)
    obtain rfl := Option.some.inj (hp.symm.trans hp')
    exact ⟨rfl, id, fun _ => le_rfl⟩
  · rcases stepWith_execute_other h hp hp' hq with rfl | rfl
    · exact ⟨rfl, id, fun _ => le_rfl⟩
    · exact ⟨rfl, id, fun _ => Nat.le_succ _⟩

/-- The resume step and the reset of a suspended PE make it run (R100, R190). -/
theorem stepWith_resume_or_reset {m : Move} {s t : State} {p len : Nat} {pe : Pe}
    (h : stepWith m s = .next t) (hp : s.pes[p]? = some pe) (hr : pe.run = .suspendedWfe len)
    (hm : m = .resume p ∨ m = .reset p) : PeRunning p t := by
  rcases hm with rfl | rfl <;> obtain rfl := Host.Outcome.next.inj h
  · refine ⟨_, environment_get (.resume p) (s := s.tick) hp, ?_⟩
    rw [moveOnPe, if_pos rfl, resume_wfe _ pe len hr]
  · refine ⟨_, environment_get (.reset p) (s := s.tick) hp, ?_⟩
    rw [moveOnPe, if_pos rfl, Pe.reset]

/-- A delivery in flight that is performed wakes a PE suspended in `WFE` (R99 (i), R119). -/
theorem stepWith_deliver_wakes {s t : State} {p len : Nat} {pe : Pe}
    (h : stepWith (.deliver p) s = .next t) (hp : s.pes[p]? = some pe)
    (hr : pe.run = .suspendedWfe len) (hq : 0 < pe.sevq) : WfeWakeRequested p t := by
  obtain rfl := Host.Outcome.next.inj h
  refine ⟨_, len, environment_get (.deliver p) (s := s.tick) hp, ?_⟩
  rw [moveOnPe, if_pos rfl, performDelivery_eq pe hq]
  exact ⟨hr, by simp only [hr]⟩

/-- A wake request is pending until the PE runs (R18). -/
theorem stepWith_wfeWakeRequested {m : Move} {s t : State} {p : Nat} (h : stepWith m s = .next t)
    (hs : WfeWakeRequested p s) : WfeWakeRequested p t ∨ PeRunning p t := by
  obtain ⟨pe, len, hp, hr, hw⟩ := hs
  by_cases hm : m = .resume p ∨ m = .reset p
  · exact .inr (stepWith_resume_or_reset h hp hr hm)
  push Not at hm
  obtain ⟨hres, hrst⟩ := hm
  obtain ⟨pe', hp'⟩ := stepWith_pe h hp
  obtain ⟨hrun, hwake, -⟩ := stepWith_suspended h hp hp' (by simp [hr]) hres hrst
  exact .inl ⟨pe', len, hp', hrun.trans hr, hwake hw⟩

/-- A delivery performed for a PE it can wake leaves the PE with a wake request. -/
theorem stepWith_deliver_wfeWakeComing {s t : State} {p : Nat}
    (h : stepWith (.deliver p) s = .next t) (hs : WfeWakeComing p s) : WfeWakeRequested p t := by
  obtain ⟨pe, len, hp, hr, hw | hq⟩ := hs
  · obtain ⟨pe', hp'⟩ := stepWith_pe h hp
    obtain ⟨hrun, hwake, -⟩ := stepWith_suspended h hp hp' (by simp [hr]) (by simp) (by simp)
    exact ⟨pe', len, hp', hrun.trans hr, hwake hw⟩
  · exact stepWith_deliver_wakes h hp hr hq

/-- A wakeup event on its way to a suspended PE stays so, or occurs, until the PE runs. -/
theorem stepWith_wfeWakeComing {m : Move} {s t : State} {p : Nat} (h : stepWith m s = .next t)
    (hs : WfeWakeComing p s) : WfeWakeComing p t ∨ PeRunning p t := by
  by_cases hdel : m = .deliver p
  · subst hdel
    obtain ⟨pe', len, hp', hr', hw'⟩ := stepWith_deliver_wfeWakeComing h hs
    exact .inl ⟨pe', len, hp', hr', .inl hw'⟩
  obtain ⟨pe, len, hp, hr, hcoming⟩ := hs
  by_cases hm : m = .resume p ∨ m = .reset p
  · exact .inr (stepWith_resume_or_reset h hp hr hm)
  push Not at hm
  obtain ⟨hres, hrst⟩ := hm
  obtain ⟨pe', hp'⟩ := stepWith_pe h hp
  obtain ⟨hrun, hwake, hqueue⟩ := stepWith_suspended h hp hp' (by simp [hr]) hres hrst
  exact .inl ⟨pe', len, hp', hrun.trans hr, hcoming.imp hwake fun hq => hq.trans_le (hqueue hdel)⟩

/-! Runs. -/

/-- In a run, what every step keeps unless it makes PE `p` run holds until the PE runs. -/
theorem holds_until_running {schedule : Nat → Move} {run : Nat → State} {p n : Nat}
    {P : State → Prop} (hrun : IsRun schedule run)
    (hkept : ∀ {m s t}, stepWith m s = .next t → P s → P t ∨ PeRunning p t) (hn : P (run n))
    {k : Nat} (hk : n ≤ k) : P (run k) ∨ ∃ m, n < m ∧ PeRunning p (run m) := by
  induction k, hk using Nat.le_induction with
  | base => exact .inl hn
  | succ k hk ih =>
    rcases ih with hP | hran
    · exact (hkept (hrun k) hP).imp id fun hr => ⟨k + 1, by omega, hr⟩
    · exact .inr hran

/-- A PE suspended in `WFE` with a wake request is obliged to resume (R101). -/
theorem mustResume_of_wfeWakeRequested {p : Nat} {s : State} (h : WfeWakeRequested p s) :
    MustResume s p := by
  obtain ⟨pe, len, hp, hr, hw⟩ := h
  exact ⟨pe, hp, by simp only [mustResume, hr, hw]⟩

/-- In a fair run a PE suspended in `WFE` with a wake request runs later (R101): the step by which
fairness has it resume or be reset finds it so, or it has run before. -/
theorem runs_of_wfeWakeRequested {schedule : Nat → Move} {run : Nat → State} {p n : Nat}
    (hrun : IsRun schedule run) (hfair : Fair schedule run) (h : WfeWakeRequested p (run n)) :
    ∃ m, n < m ∧ PeRunning p (run m) := by
  obtain ⟨hresume, -⟩ := hfair
  obtain ⟨k, hk, hmove⟩ := hresume n p (mustResume_of_wfeWakeRequested h)
  rcases holds_until_running hrun stepWith_wfeWakeRequested h hk with hreq | hran
  · obtain ⟨pe, len, hp, hr, -⟩ := id hreq
    have hm : schedule k = .resume p ∨ schedule k = .reset p := by
      rcases hmove with hm | hm | hlapsed
      · exact .inl hm
      · exact .inr hm
      · exact absurd (mustResume_of_wfeWakeRequested hreq) hlapsed
    exact ⟨k + 1, by omega, stepWith_resume_or_reset (hrun k) hp hr hm⟩
  · exact hran

/-- In a fair run a PE suspended in `WFE` runs later where a wakeup event is on its way (R101, R120): the
delivery that fairness has performed finds it so, or it has run before. -/
theorem runs_of_wfeWakeComing {schedule : Nat → Move} {run : Nat → State} {p n : Nat}
    (hrun : IsRun schedule run) (hfair : Fair schedule run) (h : WfeWakeComing p (run n)) :
    ∃ m, n < m ∧ PeRunning p (run m) := by
  obtain ⟨pe, len, hp, hr, hw | hq⟩ := id h
  · exact runs_of_wfeWakeRequested hrun hfair ⟨pe, len, hp, hr, hw⟩
  obtain ⟨-, hdeliver⟩ := id hfair
  obtain ⟨k, hk, hm⟩ := hdeliver n p pe hp hq
  rcases holds_until_running hrun stepWith_wfeWakeComing h hk with hcoming | hran
  · have hreq := stepWith_deliver_wfeWakeComing (hm ▸ hrun k) hcoming
    obtain ⟨m, hkm, hran⟩ := runs_of_wfeWakeRequested hrun hfair hreq
    exact ⟨m, by omega, hran⟩
  · exact hran

/-- Settles O58: `runs_of_wfeWakeRequested`. -/
theorem wakeRequestEndsWfeSuspension : Obligations.WakeRequestEndsWfeSuspension := by
  intro schedule run n p len pe hrun hfair hp hr hw
  obtain ⟨m, hm, pe', hran⟩ := runs_of_wfeWakeRequested hrun hfair ⟨pe, len, hp, hr, hw⟩
  exact ⟨m, pe', hm, hran⟩

/-- An `SEV` puts a delivery to every other PE in flight (R111). -/
theorem stepWith_sev {s t : State} {p q : Nat} {sender pe : Pe} {i : Instr}
    (h : stepWith (.execute q) s = .next t) (hq : s.pes[q]? = some sender)
    (hr : sender.run = .running) (ho : sender.inputs.otherException = false)
    (hf : fetch s sender = .instr i) (hop : instrOp i = .sev)
    (hc : conditionPassed (instrForm i) sender.ctx = true) (hp : s.pes[p]? = some pe)
    (hpq : p ≠ q) : t.pes[p]? = some pe.enqueueDelivery := by
  have hexec : stepWith (.execute q) s = .next (instrEffect i { s.tick with cur := q } sender) :=
    (executeOn_fetched (s := s.tick) hq hr ho hf).trans (exec_ready (by simp [hop]) ⟨hq, hr, hc⟩)
  obtain rfl := Host.Outcome.next.inj (hexec.symm.trans h)
  rw [instrEffect_get i (s := { s.tick with cur := q }) hq hp]
  simp [instrOnPe, hop, hpq]

/-- Settles O60: a delivery in flight is a wakeup event on its way, and an `SEV` puts one in flight. -/
theorem sevWakesASuspendedPe : Obligations.SevWakesASuspendedPe := by
  refine ⟨?_, ?_⟩
  · intro schedule run n p len pe hrun hfair hp hr hq
    obtain ⟨m, hm, pe', hran⟩ := runs_of_wfeWakeComing hrun hfair ⟨pe, len, hp, hr, .inr hq⟩
    exact ⟨m, pe', hm, hran⟩
  · intro schedule run n p q len sender pe i hrun hfair hsched hq hrq ho hf hop hc hp hr
    have hpq : p ≠ q := by
      rintro rfl
      obtain rfl := Option.some.inj (hp.symm.trans hq)
      simp [hr] at hrq
    have hsent := stepWith_sev (hsched ▸ hrun n) hq hrq ho hf hop hc hp hpq
    have hcoming : WfeWakeComing p (run (n + 1)) :=
      ⟨_, len, hsent, hr, .inr (Nat.succ_pos pe.sevq)⟩
    obtain ⟨m, hm, pe', hran⟩ := runs_of_wfeWakeComing hrun hfair hcoming
    exact ⟨m, pe', by omega, hran⟩

end Sys2Proof.Machine
end

section
/-! PROOFS. Send Event (R111, R113 to R115, R117 to R119): an instruction as one change of every PE, what
`SEV` and `SEVL` come to by it, and the deliveries of an `SEV` in any order. -/

namespace Sys2Proof.Machine

/-! The instruction. -/

/-- A state whose system is the same differs in its PEs at most. -/
theorem eq_withPes_of_sameSystem {s t : State} (h : SameSystem s t) : t = { s with pes := t.pes } := by
  obtain ⟨hparams, -, hmem, hwritten, hcur, hagenda, hdraws⟩ := h
  rw [← hparams, ← hmem, ← hwritten, ← hcur, ← hagenda, ← hdraws]

/-- An instruction other than `DSB` whose premise holds does `instrOnPe` to every PE, and nothing else. -/
theorem exec_ready_mapPes {i : Instr} {s : State} {pe : Pe} (hop : instrOp i ≠ .dsb)
    (h : Ready i s pe) : exec i s = .next (s.mapPes (instrOnPe i s)) := by
  obtain ⟨hp, -, -⟩ := id h
  have hexec := exec_ready hop h
  obtain ⟨-, -, -, -, -, -, hlen⟩ := exec_system hexec
  have hpes : (instrEffect i s pe).pes = (s.mapPes (instrOnPe i s)).pes := by
    refine List.ext_getElem? fun p => ?_
    rw [mapPes_get]
    cases hq : s.pes[p]? with
    | none =>
      rw [List.getElem?_eq_none_iff] at hq
      exact List.getElem?_eq_none (hlen.trans_le hq)
    | some q => exact instrEffect_get i hp hq
  rw [hexec, eq_withPes_of_sameSystem (exec_sameSystem hexec), hpes]
  rfl

/-- Settles O27: what `instrOnPe` is for `SEV`. -/
theorem sevSignalsEveryPe : Obligations.SevSignalsEveryPe := by
  intro i s pe hop h
  have heffect : instrOnPe i s = fun p q =>
      if p = s.cur then q.enqueueDelivery.complete (instrForm i).len else q.enqueueDelivery := by
    funext p q
    simp only [instrOnPe, hop]
  rw [exec_ready_mapPes (by simp [hop]) h, heffect]
  rfl

/-- Settles O28: what `instrOnPe` is for `SEVL`. -/
theorem sevlSetsTheLocalRegister : Obligations.SevlSetsTheLocalRegister := by
  intro i s pe hop h
  have heffect : instrOnPe i s = fun p q =>
      if p = s.cur then q.setEventRegister.complete (instrForm i).len
      else if s.occasion.choose (.sevlSignals p) then q.enqueueDelivery
      else q := by
    funext p q
    simp only [instrOnPe, hop]
  rw [exec_ready_mapPes (by simp [hop]) h, heffect]
  rfl

/-- `SEV` puts one delivery to every PE in flight, the executing one included (R111). -/
theorem instrOnPe_sev_sevq {i : Instr} (hop : instrOp i = .sev) (s : State) (p : Nat) (pe : Pe) :
    (instrOnPe i s p pe).sevq = pe.sevq + 1 := by
  simp only [instrOnPe, hop]
  split <;> rfl

/-- Settles O30: neither operation reads the mode, the security state or a control register. -/
theorem sendEventAtAllPrivilegeLevels : Obligations.SendEventAtAllPrivilegeLevels := by
  intro i s pe hop h
  obtain ⟨hp, hr, -⟩ := id h
  have hdsb : instrOp i ≠ .dsb := by rcases hop with hop | hop <;> simp [hop]
  have hafter : (s.mapPes (instrOnPe i s)).pes[s.cur]? = some (instrOnPe i s s.cur pe) := by
    rw [mapPes_get, hp, Option.map_some]
  refine ⟨_, _, exec_ready_mapPes hdsb h, hafter, ?_⟩
  rw [instrOnPe_cur]
  rcases hop with hop | hop
  · rw [hop]
    refine ⟨hr, rfl, rfl, rfl, by simp, fun _ q x hx => ⟨instrOnPe i s q x, ?_, ?_⟩⟩
    · rw [mapPes_get, hx, Option.map_some]
    · rw [instrOnPe_sev_sevq hop]
      exact Nat.succ_pos x.sevq
  · rw [hop]
    exact ⟨hr, rfl, rfl, rfl, fun _ => rfl, by simp⟩

/-- Settles O32: the `WFE` finds the Event Register set, which is `wfeWithRegisterSetCompletes`. -/
theorem sevlThenWfeCompletes : Obligations.SevlThenWfeCompletes := by
  intro i j s pe hi hj h
  obtain ⟨hp, hr, -⟩ := id h
  have hafter : (s.mapPes (instrOnPe i s)).pes[s.cur]?
      = some (pe.setEventRegister.complete (instrForm i).len) := by
    rw [mapPes_get, hp, Option.map_some, instrOnPe_cur, hi]
  refine ⟨_, _, exec_ready_mapPes (by simp [hi]) h, hafter, fun hc => ?_⟩
  have hwfe := wfeWithRegisterSetCompletes j _ _ hj ⟨hafter, hr, hc⟩ rfl
  refine ⟨_, (pe.setEventRegister.complete (instrForm i).len).clearEventRegister.complete
    (instrForm j).len, hwfe, ?_, rfl, hr, rfl, rfl⟩
  rw [mapPes_cur, modifyPe_same, hafter]
  rfl

/-! The deliveries. -/

/-- Settles O43: what changes is `performDelivery_eq`. -/
theorem deliveryIsPerformed : Obligations.DeliveryIsPerformed := by
  intro s p pe hp hq
  exact next_modifyPe_congr (s := s.tick) hp (performDelivery_eq pe hq)

/-- After a list of deliveries has been performed, each PE has had as many as the list holds for it,
whatever their order. -/
theorem foldl_deliver_get (order : List Nat) (s : State) (p : Nat) :
    (order.foldl (fun u q => environment (.deliver q) u) s).pes[p]?
      = (s.pes[p]?).map Pe.performDelivery^[order.count p] := by
  induction order generalizing s with
  | nil => simp
  | cons q order ih =>
    rw [List.foldl_cons, ih, environment, modifyPe_get, Option.map_map]
    by_cases h : p = q
    · subst h
      rw [List.count_cons_self, Function.iterate_succ]
      simp [Function.comp_def]
    · rw [List.count_cons_of_ne (Ne.symm h)]
      simp [Function.comp_def, h]

/-- A delivery put in flight by an `SEV` and then performed sets the Event Register and leaves as many
in flight as before (R111, R119). -/
theorem performDelivery_instrOnPe_sev {i : Instr} (hop : instrOp i = .sev) (s : State) (p : Nat)
    (pe : Pe) : (instrOnPe i s p pe).performDelivery.er = true
      ∧ (instrOnPe i s p pe).performDelivery.sevq = pe.sevq := by
  have hsevq := instrOnPe_sev_sevq hop s p pe
  rw [performDelivery_eq _ (by omega)]
  exact ⟨rfl, by simp only [hsevq, Nat.add_sub_cancel]⟩

/-- Settles O31: in every order each PE has its one delivery performed (`foldl_deliver_get`). -/
theorem atomicSendEventIsASchedule : Obligations.AtomicSendEventIsASchedule := by
  intro i s t pe order hop h hexec hperm
  obtain rfl := Host.Outcome.next.inj ((exec_ready_mapPes (by simp [hop]) h).symm.trans hexec)
  refine List.ext_getElem? fun p => ?_
  rw [List.getElem?_map, List.getElem?_map, foldl_deliver_get, mapPes_get, sendEventAtomic, mapPes_get]
  cases hq : s.pes[p]? with
  | none => rfl
  | some q =>
    obtain ⟨hlt, -⟩ := List.getElem?_eq_some_iff.mp hq
    have hone : order.count p = 1 := by
      rw [hperm.count_eq]
      exact List.count_eq_one_of_mem List.nodup_range (List.mem_range.mpr hlt)
    obtain ⟨her, hsevq⟩ := performDelivery_instrOnPe_sev hop s p q
    simp [hone, her, hsevq]

end Sys2Proof.Machine
end

section
/-! PROOFS. Wait For Interrupt (R131 to R147, R158, R165): the levels that are wakeup events and that no
mask enters, the instruction branch by branch, what a suspension in `WFI` presupposes, and the Event Register. -/

namespace Sys2Proof.Machine

/-! The levels. -/

theorem debugWakeup_iff (pe : Pe) : debugWakeup pe = true ↔
    pe.inputs.edbgrq = true ∧ pe.inputs.haltingAllowed = true := Bool.and_eq_true_iff

/-- The virtual interrupts that are WFI wakeup events where any can be: those `HCR` routes (R137 to
R139). -/
theorem routedVirtual_iff (virtual : PerExc) (c : Context) :
    perExcAny (perExcMap3 (fun pending routed _ => pending && routed) virtual (hcrRouting c)
        (perExcAll false)) = true ↔
      (c.hcr.getLsbD 4 = true ∧ virtual.irq = true) ∨ (c.hcr.getLsbD 3 = true ∧ virtual.fiq = true)
        ∨ (c.hcr.getLsbD 5 = true ∧ virtual.serror = true) := by
  simp only [perExcAny_iff, perExcMap3, hcrRouting, Bool.and_eq_true, and_comm]

/-- Settles O18: the physical interrupts, the virtual ones (`routedVirtual_iff`) and the debug request. -/
theorem wfiWakeupLevels : Obligations.WfiWakeupLevels := by
  intro pe
  rw [wfiWakeupPending, Bool.or_eq_true, Bool.or_eq_true, Bool.and_eq_true, perExcAny_iff,
    virtualWakeups_iff, routedVirtual_iff, debugWakeup_iff]
  simp only [or_assoc]

/-- With all three mask bits set, each able to mask its physical exception, no physical interrupt is a WFE
wakeup event (R82 to R84). -/
theorem wfePhysical_of_masked {pr : Params} {pe : Pe} (hmasks : pstateMasks pe.ctx = perExcAll true)
    (heffective : physMaskEffective pr pe = perExcAll true) : wfePhysical pr pe = perExcAll false := by
  simp [wfePhysical, hmasks, heffective, perExcMap3, perExcAll]

/-- With all three mask bits set no virtual interrupt is a WFE wakeup event (R85 to R87). -/
theorem wfeVirtual_of_masked {pe : Pe} (hmasks : pstateMasks pe.ctx = perExcAll true) :
    wfeVirtual pe = perExcAll false := by
  simp [wfeVirtual, hmasks, perExcMap3, perExcAll]

/-- Settles O19: `wfiWakeupPending` does not read the masks; `WFE` does (`wfePhysical_of_masked`,
`wfeVirtual_of_masked`); the virtual interrupts are what `wfiWakeupLevels` leaves. -/
theorem wfiWakeupCannotBeMasked : Obligations.WfiWakeupCannotBeMasked := by
  refine ⟨fun pe a i f => rfl, ?_, ?_⟩
  · intro pr pe ha hi hf heffective h
    have hmasks : pstateMasks pe.ctx = perExcAll true := by
      rw [pstateMasks, ha, hi, hf, perExcAll]
    rw [wfeWakeupPending, wfePhysical_of_masked hmasks heffective, wfeVirtual_of_masked hmasks] at h
    rw [← debugWakeup_iff]
    simpa [perExcAny, perExcAll] using h
  · intro pe h hphysical hdebug
    rw [wfiWakeupLevels pe, hphysical] at h
    simpa [perExcAll, hdebug] using h

/-! The instruction. -/

/-- A `WFI` does to the executing PE what `waitForInterrupt` does to it as it stands. -/
theorem exec_wfi {i : Instr} {s : State} {pe : Pe} {f : Pe → Pe} (hop : instrOp i = .wfi)
    (h : Ready i s pe) (hf : waitForInterrupt s.occasion s.params (instrForm i) pe = f pe) :
    exec i s = .next (s.modifyPe s.cur f) := by
  obtain ⟨hp, -, -⟩ := id h
  rw [exec_ready (by simp [hop]) h, instrEffect, hop]
  exact next_modifyPe_congr hp hf

/-- Whether a pending wakeup event stops a `WFI`: outside a powerdown configuration always, inside one as
the implementation chooses (R133, R147). -/
def wakeupStopsWfi (o : Occasion) (pe : Pe) : Bool :=
  wfiWakeupPending pe && (!pe.inputs.powerdownConfigured || o.choose .pendingStopsPowerdown)

/-- `WFI` that a pending wakeup event stops (R133). -/
theorem waitForInterrupt_of_stopped {o : Occasion} {pr : Params} {f : Form} {pe : Pe}
    (h : wakeupStopsWfi o pe = true) :
    waitForInterrupt o pr f pe = completePending o pr .wfi f pe := if_pos h

/-- `WFI` that no wakeup event stops: what would suspend it or power it down is the trap where a control
applies (R132, R147, R158). -/
theorem waitForInterrupt_of_not_stopped {o : Occasion} {pr : Params} {f : Form} {pe : Pe}
    (h : wakeupStopsWfi o pe = false) :
    waitForInterrupt o pr f pe = if o.choose .suspend then
        trappedOr o pr .wfi f pe
          (if pe.inputs.powerdownConfigured then powerDown o pe
            else { pe with run := .suspendedWfi f.len, wakereq := false })
      else pe.complete f.len := if_neg (Bool.eq_false_iff.mp h)

theorem wakeupStopsWfi_of_nothing_pending {o : Occasion} {pe : Pe} (h : wfiWakeupPending pe = false) :
    wakeupStopsWfi o pe = false := by
  simp [wakeupStopsWfi, h]

theorem wakeupStopsWfi_of_not_powerdown {o : Occasion} {pe : Pe} (h : wfiWakeupPending pe = true)
    (hpd : pe.inputs.powerdownConfigured = false) : wakeupStopsWfi o pe = true := by
  simp [wakeupStopsWfi, h, hpd]

theorem wakeupStopsWfi_of_powerdown {o : Occasion} {pe : Pe} (h : wfiWakeupPending pe = true)
    (hpd : pe.inputs.powerdownConfigured = true) :
    wakeupStopsWfi o pe = o.choose .pendingStopsPowerdown := by
  simp [wakeupStopsWfi, h, hpd]

/-- Settles O20: outside a powerdown configuration the pending event stops the `WFI`, which leaves the two
cases of `completePending`. -/
theorem wfiWithWakeupPendingCompletes : Obligations.WfiWithWakeupPendingCompletes := by
  intro i s pe hop h hp hpd
  obtain ⟨hpe, -, -⟩ := id h
  have hwait := waitForInterrupt_of_stopped (pr := s.params) (f := instrForm i)
    (wakeupStopsWfi_of_not_powerdown (o := s.occasion) hp hpd)
  refine ⟨_, exec_wfi (f := waitForInterrupt s.occasion s.params (instrForm i)) hop h rfl, ?_, ?_⟩
  · intro huntrapped
    exact modifyPe_congr hpe (hwait.trans (completePending_of_untrapped huntrapped))
  · intro target hpr htrap
    rw [← instrForm_iset]
    exact modifyPe_congr hpe (hwait.trans (completePending_of_trapControl hpr htrap))

/-- Settles O21: no trap control applies, so the choice is between suspending, or powering down where that
is configured, and completing. -/
theorem wfiSuspendsOrCompletes : Obligations.WfiSuspendsOrCompletes := by
  intro i s pe hop h hp htrap
  refine exec_wfi hop h ?_
  rw [waitForInterrupt_of_not_stopped (wakeupStopsWfi_of_nothing_pending hp), trappedOr_of_none htrap]
  rfl

/-- Settles O22: a trap control applies, so the choice is between the trap and completing. -/
theorem wfiIsTrappedOrCompletes : Obligations.WfiIsTrappedOrCompletes := by
  intro i s pe target hop h hp htrap
  refine exec_wfi hop h ?_
  rw [waitForInterrupt_of_not_stopped (wakeupStopsWfi_of_nothing_pending hp), trappedOr_of_some htrap,
    instrForm_iset]
  rfl

/-- Settles O23: by whether the pending event stops the `WFI`, and by whether a trap control applies. -/
theorem powerdownMayIgnorePending : Obligations.PowerdownMayIgnorePending := by
  intro i s pe hop h hp hpd
  refine exec_wfi hop h ?_
  have hstops : wakeupStopsWfi s.occasion pe = Config.choose s.draws s.cur .pendingStopsPowerdown :=
    wakeupStopsWfi_of_powerdown hp hpd
  cases hchoice : Config.choose s.draws s.cur .pendingStopsPowerdown with
  | true =>
    rw [waitForInterrupt_of_stopped (hstops.trans hchoice)]
    cases htrap : wfxTrap s.params .wfi pe.ctx with
    | none => exact completePending_of_untrapped (.inr htrap)
    | some target =>
      rw [completePending, trappedOr_of_some htrap, instrForm_iset]
      rfl
  | false =>
    rw [waitForInterrupt_of_not_stopped (hstops.trans hchoice), if_pos hpd]
    cases htrap : wfxTrap s.params .wfi pe.ctx with
    | none =>
      rw [trappedOr_of_none htrap]
      rfl
    | some target =>
      rw [trappedOr_of_some htrap, instrForm_iset]
      rfl

/-! What a suspension in `WFI` presupposes. -/

/-- What holds of a PE that a `WFI` of its own suspends (R132, R133, R158). -/
def MaySuspendInWfi (o : Occasion) (pr : Params) (pe : Pe) : Prop :=
  wfiWakeupPending pe = false ∧ wfxTrap pr .wfi pe.ctx = none ∧ o.choose .suspend = true

theorem waitForInterrupt_suspended {o : Occasion} {pr : Params} {f : Form} {pe : Pe} {len : Nat}
    (hr : pe.run = .running) (h : (waitForInterrupt o pr f pe).run = .suspendedWfi len) :
    MaySuspendInWfi o pr pe := by
  rcases waitForInterrupt_cases o pr f pe with
    e | ⟨r, -, -, -, e⟩ | ⟨-, -, -, e⟩ | ⟨-, hp, htrap, hs, -⟩
  · simp [e, hr] at h
  · simp [e, hr] at h
  · simp [e] at h
  · exact ⟨hp, htrap, hs⟩

theorem waitForEvent_not_suspendedWfi {o : Occasion} {pr : Params} {f : Form} {pe : Pe} {len : Nat}
    (hr : pe.run = .running) : (waitForEvent o pr f pe).run ≠ .suspendedWfi len := by
  rcases waitForEvent_cases o pr f pe with
    ⟨-, e⟩ | ⟨-, e⟩ | ⟨-, r, -, -, -, -, e⟩ | ⟨-, -, -, -, e⟩ <;> simp [e, hr]

/-- Of the instructions only a `WFI` suspends a PE in `WFI`, the one that executes it. -/
theorem instrOnPe_suspendedWfi {i : Instr} {s : State} {p : Nat} {pe : Pe} {len : Nat}
    (hr : pe.run = .running) (h : (instrOnPe i s p pe).run = .suspendedWfi len) :
    p = s.cur ∧ MaySuspendInWfi s.occasion s.params pe := by
  by_cases hc : p = s.cur
  · subst hc
    refine ⟨rfl, ?_⟩
    rw [instrOnPe_cur] at h
    cases hop : instrOp i <;> simp only [hop] at h
    case wfe => exact absurd h (waitForEvent_not_suspendedWfi hr)
    case wfi => exact waitForInterrupt_suspended hr h
    case sev => simp [hr] at h
    case sevl => simp [hr] at h
    case dsb => split at h <;> simp [hr] at h
  · rcases instrOnPe_other i s p pe hc with e | ⟨-, e⟩ <;> simp [e, hr] at h

/-- A step that suspends a Running PE in `WFI` is the PE's own, and runs an instruction of it. -/
theorem stepWith_suspendedWfi {m : Move} {s t : State} {p : Nat} {pe pe' : Pe} {len : Nat}
    (h : stepWith m s = .next t) (hp : s.pes[p]? = some pe) (hp' : t.pes[p]? = some pe')
    (hr : pe.run = .running) (hs : pe'.run = .suspendedWfi len) :
    m = .execute p ∧ pe.inputs.otherException = false
      ∧ MaySuspendInWfi { draw := s.draws + 1, pe := p } s.params pe := by
  rcases stepWith_get h hp with
    ⟨-, -, e⟩ | ⟨q, rfl, e | ⟨me, hme, -, ⟨-, e⟩ | ⟨ho, i, -, -, ⟨-, e⟩ | ⟨-, e⟩⟩⟩⟩
  all_goals obtain rfl := Option.some.inj (hp'.symm.trans e)
  · simp [moveOnPe_running m s.tick p pe hr] at hs
  · simp [hr] at hs
  · split at hs <;> simp [takeOtherException, hr] at hs
  · split at hs <;> simp [hr] at hs
  · obtain ⟨hq, hmay⟩ := instrOnPe_suspendedWfi hr hs
    obtain rfl : p = q := hq
    obtain rfl := Option.some.inj (hp.symm.trans hme)
    exact ⟨rfl, ho, hmay⟩

/-- Settles O24: each condition contradicts what a suspension presupposes (`stepWith_suspendedWfi`). -/
theorem wfiSuspendsOnlyIf : Obligations.WfiSuspendsOnlyIf := by
  intro m s t p pe pe' h hp hp' hr hcond len hs
  obtain ⟨hm, ho, hpending, htrap, hchoice⟩ := stepWith_suspendedWfi h hp hp' hr hs
  have hchosen : Config.choose (s.draws + 1) p .suspend = true := hchoice
  rcases hcond with hne | ho' | hpending' | ⟨target, htrap'⟩ | hchoice'
  · exact hne hm
  · simp [ho] at ho'
  · simp [hpending] at hpending'
  · simp [htrap] at htrap'
  · simp [hchosen] at hchoice'

/-! The Event Register. -/

@[simp] theorem completePending_run (o : Occasion) (pr : Params) (kind : WaitKind) (f : Form) (pe : Pe) :
    (completePending o pr kind f pe).run = pe.run := by
  rcases completePending_cases o pr kind f pe with e | ⟨r, -, -, -, -, e⟩ <;> simp [e]

/-- The run state a `WFI` leaves (R131, R147): the Event Register plays no part (R146). -/
theorem waitForInterrupt_run (o : Occasion) (pr : Params) (f : Form) (pe : Pe) :
    (waitForInterrupt o pr f pe).run =
      if wakeupStopsWfi o pe = false ∧ o.choose .suspend = true ∧ wfxTrap pr .wfi pe.ctx = none then
        if pe.inputs.powerdownConfigured then .poweredDown else .suspendedWfi f.len
      else pe.run := by
  cases hstops : wakeupStopsWfi o pe with
  | true => rw [waitForInterrupt_of_stopped hstops]; simp
  | false =>
    rw [waitForInterrupt_of_not_stopped hstops]
    cases htrap : wfxTrap pr .wfi pe.ctx with
    | none =>
      rw [trappedOr_of_none htrap]
      cases o.choose .suspend <;> cases pe.inputs.powerdownConfigured <;> simp
    | some target =>
      rw [trappedOr_of_some htrap]
      cases o.choose .suspend <;> simp

/-- Settles O25: what an instruction does to the register (`instrOnPe_er`), the resume step
(`resume_wfi`), the run state a `WFI` leaves (`waitForInterrupt_run`), and a delivery
(`performDelivery_eq`). -/
theorem wfiIgnoresTheEventRegister : Obligations.WfiIgnoresTheEventRegister := by
  refine ⟨?_, ?_, ?_, ?_⟩
  · intro i s t pe pe' hop h hp hp' hrun
    rcases exec_onPe h hp hp' with rfl | ⟨-, rfl⟩ | rfl
    · rfl
    · rfl
    · rcases instrOnPe_er i s s.cur pe with e | ⟨-, ⟨hop', -⟩ | ⟨hop', -⟩ | ⟨-, hdown⟩⟩
      · exact e
      · simp [hop] at hop'
      · simp [hop] at hop'
      · exact absurd hdown hrun
  · intro s p pe len hp hr
    refine ⟨_, _, rfl, environment_get (.resume p) (s := s.tick) hp, ?_⟩
    rw [moveOnPe, if_pos rfl, resume_wfi _ pe len hr]
    exact ⟨rfl, rfl⟩
  · intro o pr f pe b
    rw [waitForInterrupt_run, waitForInterrupt_run]
    rfl
  · intro s p pe len hp hq hr
    refine ⟨_, _, rfl, environment_get (.deliver p) (s := s.tick) hp, ?_⟩
    rw [moveOnPe, if_pos rfl, performDelivery_eq pe hq]
    exact ⟨rfl, rfl, by simp only [hr]⟩

end Sys2Proof.Machine
end

section
/-! PROOFS. The debugger and the idle signal (R151 to R154). -/

namespace Sys2Proof.Machine

/-- What a debug interface reads after a write (R152). -/
theorem debugWrite_debugRead (pr : Params) (reg other : DebugReg) (v : Word) (pe : Pe) :
    (pe.debugWrite pr reg v).debugRead other = if other = reg then v else pe.debugRead other := by
  cases reg <;> cases other <;> rfl

/-- A write of the debugger changes the context and the idle signal only (R152; log entry 23). -/
theorem debugWrite_eq (pr : Params) (reg : DebugReg) (v : Word) (pe : Pe) :
    pe.debugWrite pr reg v = { pe with
      idle := (pe.debugWrite pr reg v).idle, ctx := (pe.debugWrite pr reg v).ctx } := by
  cases reg <;> rfl

/-- Settles O48: the write does not read the run state (`debugWrite_debugRead`, `debugWrite_eq`,
`debugWrite_frame`). -/
theorem debugAccessInEveryRunState : Obligations.DebugAccessInEveryRunState := by
  intro s p pe reg v hp
  obtain ⟨-, hctx⟩ := debugWrite_frame s.params reg v pe
  refine ⟨s.tick.modifyPe p (Pe.debugWrite s.params reg v), pe.debugWrite s.params reg v, rfl, ?_,
    modifyPe_sameButPe s.tick p _, rfl, ?_, ?_, debugWrite_eq s.params reg v pe, hctx⟩
  · rw [modifyPe_same, tick_pes, hp, Option.map_some]
  · rw [debugWrite_debugRead, if_pos rfl]
  · intro other hne
    rw [debugWrite_debugRead, if_neg hne]

/-- Where a PE's fields fit together, the idle state is signalled only where R154 allows it, in the WFI
state or a powerdown (log entry 23). -/
theorem idleAllowed_of_peOk {pr : Params} {pe : Pe} (hok : peOk pr pe = true) (hidle : pe.idle = true) :
    idleAllowed pr pe = true ∧ ((∃ len, pe.run = .suspendedWfi len) ∨ pe.run = .poweredDown) := by
  unfold peOk at hok
  cases hr : pe.run <;> simp only [hr, hidle] at hok
  case running => simp at hok
  case suspendedWfe len => simp at hok
  case suspendedWfi len => exact ⟨by simpa using (Bool.and_elim_right hok), .inl ⟨len, rfl⟩⟩
  case poweredDown => exact ⟨by simpa using (Bool.and_elim_right hok), .inr rfl⟩

/-- With `FEAT_DoubleLock` and `DBGOSDLR.DLK` set the debug interface has to be idle (R154). -/
theorem debugIdle_of_idleAllowed {pr : Params} {pe : Pe} (h : idleAllowed pr pe = true)
    (hlock : pr.haveDoubleLock = true) (hdlk : pe.ctx.dbgosdlr.getLsbD 0 = true) :
    pe.inputs.debugIdle = true := by
  have hset : dbgosdlrDlk pe.ctx = true := hdlk
  simpa [hlock, hset] using Bool.and_elim_right h

/-- Settles O57: the invariant, which a step keeps (`stepKeepsInvariant`), says when the idle state is
signalled (`idleAllowed_of_peOk`). -/
theorem idleSignalNeedsIdleDebugInterface : Obligations.IdleSignalNeedsIdleDebugInterface := by
  intro s t pe hs h hpe hidle
  obtain ⟨-, -, hpes⟩ := stepKeepsInvariant s t hs h
  obtain ⟨hok, -⟩ := hpes pe hpe
  obtain ⟨hallowed, hrun⟩ := idleAllowed_of_peOk hok hidle
  exact ⟨debugIdle_of_idleAllowed hallowed, hrun⟩

end Sys2Proof.Machine
end

section
/-! PROOFS. Progress of a PE suspended in `WFI` (R144): its wake request is pending until it runs, and
fairness has it run outside the debug configuration of D26. -/

namespace Sys2Proof.Machine

/-- PE `p` is suspended in `WFI`, and a wakeup event has occurred for it (R18). -/
def WfiWakeRequested (p : Nat) (s : State) : Prop :=
  ∃ pe len, s.pes[p]? = some pe ∧ pe.run = .suspendedWfi len ∧ pe.wakereq = true

/-- The resume step and the reset of a PE suspended in either instruction make it run (R100, R143, R190). -/
theorem peRunning_of_resume_or_reset {m : Move} {s t : State} {p : Nat} {pe : Pe}
    (h : stepWith m s = .next t) (hp : s.pes[p]? = some pe) (hr : pe.run ≠ .running)
    (hpd : pe.run ≠ .poweredDown) (hm : m = .resume p ∨ m = .reset p) : PeRunning p t := by
  rcases hm with rfl | rfl <;> obtain rfl := Host.Outcome.next.inj h
  · refine ⟨_, environment_get (.resume p) (s := s.tick) hp, ?_⟩
    rw [moveOnPe, if_pos rfl]
    cases hrun : pe.run with
    | running => exact absurd hrun hr
    | poweredDown => exact absurd hrun hpd
    | suspendedWfe len => rw [resume_wfe _ pe len hrun]
    | suspendedWfi len => rw [resume_wfi _ pe len hrun]
  · refine ⟨_, environment_get (.reset p) (s := s.tick) hp, ?_⟩
    rw [moveOnPe, if_pos rfl, Pe.reset]

/-- A PE with a wake request in `WFI` that resumes or is reset runs. -/
theorem peRunning_of_wfiWakeRequested {m : Move} {s t : State} {p : Nat} (h : stepWith m s = .next t)
    (hs : WfiWakeRequested p s) (hm : m = .resume p ∨ m = .reset p) : PeRunning p t := by
  obtain ⟨pe, len, hp, hr, -⟩ := hs
  exact peRunning_of_resume_or_reset h hp (by simp [hr]) (by simp [hr]) hm

/-- A wake request is pending until the PE runs (R18). -/
theorem stepWith_wfiWakeRequested {m : Move} {s t : State} {p : Nat} (h : stepWith m s = .next t)
    (hs : WfiWakeRequested p s) : WfiWakeRequested p t ∨ PeRunning p t := by
  by_cases hm : m = .resume p ∨ m = .reset p
  · exact .inr (peRunning_of_wfiWakeRequested h hs hm)
  obtain ⟨pe, len, hp, hr, hw⟩ := hs
  obtain ⟨hres, hrst⟩ := not_or.mp hm
  obtain ⟨pe', hp'⟩ := stepWith_pe h hp
  obtain ⟨hrun, hwake, -⟩ := stepWith_suspended h hp hp' (by simp [hr]) hres hrst
  exact .inl ⟨pe', len, hp', hrun.trans hr, hwake hw⟩

/-- A PE suspended in `WFI` with a wake request is obliged to resume outside the debug configuration of D26
(R144). -/
theorem mustResume_of_wfiWakeRequested {p : Nat} {s : State} (h : WfiWakeRequested p s)
    (hdebug : ∀ pe, s.pes[p]? = some pe → intdisActive pe = false) : MustResume s p := by
  obtain ⟨pe, len, hp, hr, hw⟩ := h
  exact ⟨pe, hp, by simp [mustResume, hr, hw, hdebug pe hp]⟩

/-- Settles O59: the step by which fairness has the PE resume or be reset finds its wake request pending
and its obligation standing, or the PE has run before (`holds_until_running`). -/
theorem wakeRequestEndsWfiSuspension : Obligations.WakeRequestEndsWfiSuspension := by
  intro schedule run n p len pe hrun hfair hp hr hw hdebug
  obtain ⟨hresume, -⟩ := hfair
  have hn : WfiWakeRequested p (run n) := ⟨pe, len, hp, hr, hw⟩
  have obliged : ∀ k, n ≤ k → WfiWakeRequested p (run k) → MustResume (run k) p :=
    fun k hk hreq => mustResume_of_wfiWakeRequested hreq fun pe' hp' => hdebug k pe' hk hp'
  have ran : ∃ m, n < m ∧ PeRunning p (run m) := by
    obtain ⟨k, hk, hmove⟩ := hresume n p (obliged n le_rfl hn)
    rcases holds_until_running hrun stepWith_wfiWakeRequested hn hk with hreq | hran
    · have hm : schedule k = .resume p ∨ schedule k = .reset p := by
        rcases hmove with hm | hm | hlapsed
        · exact .inl hm
        · exact .inr hm
        · exact absurd (obliged k hk hreq) hlapsed
      exact ⟨k + 1, by omega, peRunning_of_wfiWakeRequested (hrun k) hreq hm⟩
    · exact hran
  obtain ⟨m, hm, pe', hp', hran⟩ := ran
  exact ⟨m, pe', hm, hp', hran⟩

end Sys2Proof.Machine
end

section
/-! PROOFS. The trap function and taking a trap (R162 to R168): when each target is the first whose control
applies, and the fields of the syndrome a trap to Hyp mode writes. -/

namespace Sys2Proof.Machine

/-! The targets, in the order of R166. -/

theorem wfxTrap_el1Undefined_iff (pr : Params) (kind : WaitKind) (c : Context) :
    wfxTrap pr kind c = some .el1Undefined ↔ trapControl pr kind c .el1Undefined = true := by
  rcases wfxTrap_cases pr kind c with ⟨h, h1⟩ | ⟨h, h1, -⟩ | ⟨h, h1, -⟩ | ⟨h, h1, -⟩ <;> simp [h, h1]

theorem wfxTrap_el2HypTrap_iff (pr : Params) (kind : WaitKind) (c : Context) :
    wfxTrap pr kind c = some .el2HypTrap ↔
      wfxTrap pr kind c ≠ some .el1Undefined ∧ trapControl pr kind c .el2HypTrap = true := by
  rcases wfxTrap_cases pr kind c with ⟨h, -⟩ | ⟨h, -, h2⟩ | ⟨h, -, h2, -⟩ | ⟨h, -, h2, -⟩
  · simp [h]
  all_goals simp [h, h2]

theorem wfxTrap_el3MonitorTrap_iff (pr : Params) (kind : WaitKind) (c : Context) :
    wfxTrap pr kind c = some .el3MonitorTrap ↔
      wfxTrap pr kind c ≠ some .el1Undefined ∧ wfxTrap pr kind c ≠ some .el2HypTrap
        ∧ trapControl pr kind c .el3MonitorTrap = true := by
  rcases wfxTrap_cases pr kind c with ⟨h, -⟩ | ⟨h, -⟩ | ⟨h, -, -, h3⟩ | ⟨h, -, -, h3⟩
  · simp [h]
  · simp [h]
  all_goals simp [h, h3]

/-! The control of each target. -/

/-- R162: User mode, and the `SCTLR` bit clear. -/
theorem trapControl_el1Undefined (pr : Params) (kind : WaitKind) (c : Context) :
    trapControl pr kind c .el1Undefined = true ↔
      (∃ ns, c.pstate.mode = .low .user ns) ∧ sctlrNoTrap kind c = false := by
  rw [trapControl, Bool.and_eq_true, atEl0_iff, Bool.not_eq_true']

/-- R163: EL2 implemented, Non-secure state outside Hyp mode, and the `HCR` bit set. -/
theorem trapControl_el2HypTrap (pr : Params) (kind : WaitKind) (c : Context) :
    trapControl pr kind c .el2HypTrap = true ↔
      pr.haveEL2 = true ∧ (∃ mode, c.pstate.mode = .low mode true) ∧ hcrTrap kind c = true := by
  simp [trapControl, ← virtualWakeups_iff, virtualWakeups, and_assoc]

/-- R164: EL3 implemented, outside Monitor mode, and the `SCR` bit set. -/
theorem trapControl_el3MonitorTrap (pr : Params) (kind : WaitKind) (c : Context) :
    trapControl pr kind c .el3MonitorTrap = true ↔
      pr.haveEL3 = true ∧ c.pstate.mode ≠ .monitor ∧ scrTrap kind c = true := by
  simp [trapControl, ← inMonitorMode_iff, and_assoc]

/-- Settles O40: each target is the first whose control applies, and a control's bit is the one of the
instruction's kind (R20). -/
theorem trapFunction : Obligations.TrapFunction := by
  intro pr kind c
  rw [wfxTrap_el2HypTrap_iff, wfxTrap_el3MonitorTrap_iff, wfxTrap_el1Undefined_iff,
    trapControl_el1Undefined, trapControl_el2HypTrap, trapControl_el3MonitorTrap]
  cases kind with
  | wfe => exact ⟨.rfl, .rfl, .rfl⟩
  | wfi => exact ⟨.rfl, .rfl, .rfl⟩

/-! The fields of the syndrome of a trap to Hyp mode (R168). -/

/-- `EC`. -/
theorem hypSyndrome_ec (o : Occasion) (r : TrapRecord) :
    (hypSyndrome o r).extractLsb' 26 6 = 0x01#6 := by
  unfold hypSyndrome
  rw [BitVec.extractLsb'_append_eq_of_le (by omega), BitVec.extractLsb'_append_eq_of_le (by omega),
    BitVec.extractLsb'_append_eq_of_le (by omega)]
  exact BitVec.extractLsb'_append_eq_left

/-- `IL`. -/
theorem hypSyndrome_il (o : Occasion) (r : TrapRecord) :
    (hypSyndrome o r).getLsbD 25 = (r.len == 4) := by
  simp only [hypSyndrome, BitVec.getLsbD_append]
  simp

/-- `CV`. -/
theorem hypSyndrome_cv (o : Occasion) (r : TrapRecord) :
    (hypSyndrome o r).getLsbD 24 = (syndromeCond o r).getLsbD 4 := by
  simp only [hypSyndrome, BitVec.getLsbD_append]
  simp

/-- `COND`. -/
theorem hypSyndrome_cond (o : Occasion) (r : TrapRecord) :
    (hypSyndrome o r).extractLsb' 20 4 = (syndromeCond o r).extractLsb' 0 4 := by
  unfold hypSyndrome
  rw [BitVec.extractLsb'_append_eq_of_le (by omega), BitVec.extractLsb'_append_eq_of_le (by omega),
    BitVec.extractLsb'_append_eq_of_add_le (by omega)]

/-- The bits between `COND` and `TI`. -/
theorem hypSyndrome_reserved (o : Occasion) (r : TrapRecord) :
    (hypSyndrome o r).extractLsb' 1 19 = 0#19 := by
  unfold hypSyndrome
  rw [BitVec.extractLsb'_append_eq_of_le (by omega)]
  exact BitVec.extractLsb'_append_eq_right

/-- `TI`. -/
theorem hypSyndrome_ti (o : Occasion) (r : TrapRecord) :
    (hypSyndrome o r).getLsbD 0 = (r.kind == .wfe) := by
  simp only [hypSyndrome, BitVec.getLsbD_append]
  simp

/-- Of an A32 instruction, `CV` is 1 and `COND` its condition. -/
theorem hypSyndrome_a32 (o : Occasion) (r : TrapRecord) (h : r.iset = .a32) :
    (hypSyndrome o r).getLsbD 24 = true ∧ (hypSyndrome o r).extractLsb' 20 4 = r.cond.bits := by
  have hfield : syndromeCond o r = 1#1 ++ r.cond.bits := by rw [syndromeCond, h]
  rw [hypSyndrome_cv, hypSyndrome_cond, hfield]
  exact ⟨by simp only [BitVec.getLsbD_append]; simp, BitVec.extractLsb'_append_eq_right⟩

/-! Taking a trap. -/

/-- A trap changes the record and the context, nothing else of the PE (R167). -/
theorem takeTrap_frame (o : Occasion) (r : TrapRecord) (pe : Pe) :
    takeTrap o r pe = { pe with trap := some r, ctx := (takeTrap o r pe).ctx } := rfl

/-- A trap to Hyp mode writes its syndrome (R168). -/
theorem takeTrap_hsr_hyp (o : Occasion) (r : TrapRecord) (pe : Pe) (h : r.target = .el2HypTrap) :
    (takeTrap o r pe).ctx.hsr = hypSyndrome o r := by
  rw [takeTrap_hsr, trapSyndrome, h]

/-- A trap that is not to Hyp mode leaves the syndrome register (R168). -/
theorem takeTrap_hsr_other (o : Occasion) (r : TrapRecord) (pe : Pe) (h : r.target ≠ .el2HypTrap) :
    (takeTrap o r pe).ctx.hsr = pe.ctx.hsr := by
  rw [takeTrap_hsr, trapSyndrome]
  cases ht : r.target with
  | el2HypTrap => exact absurd ht h
  | el1Undefined => rfl
  | el3MonitorTrap => rfl

/-- Settles O41: the mode is `trapMode` of the target, and the syndrome is written for Hyp mode only. -/
theorem trapEntry : Obligations.TrapEntry := by
  intro o r pe
  refine ⟨takeTrap_trap o r pe, takeTrap_frame o r pe, fun h => ⟨?_, ?_⟩, fun h => ⟨?_, ?_⟩, fun h => ?_⟩
  · exact takeTrap_hsr_other o r pe (by simp [h])
  · rw [takeTrap_mode, h, trapMode]
  · exact takeTrap_hsr_other o r pe (by simp [h])
  · rw [takeTrap_mode, h, trapMode]
  · rw [takeTrap_hsr_hyp o r pe h]
    exact ⟨by rw [takeTrap_mode, h, trapMode], hypSyndrome_ec o r, hypSyndrome_il o r,
      hypSyndrome_a32 o r, hypSyndrome_reserved o r, hypSyndrome_ti o r⟩

end Sys2Proof.Machine
end

section
/-! PROOFS. Reset (R12, R17, R18, R190, R191): what `Reset(p)` leaves of its PE, after a powerdown and
otherwise, and that the state after reset meets the invariant. -/

namespace Sys2Proof.Machine

/-! The context and the monitor after a reset (log entries 10 and 17). -/

theorem contextAfterReset_of_poweredDown (o : Occasion) {pe : Pe} (h : pe.run = .poweredDown) :
    contextAfterReset o pe = { Config.lostContext o.draw o.pe with pc := pe.hostReset.pc } := by
  rw [contextAfterReset, h]

theorem contextAfterReset_of_not_poweredDown (o : Occasion) {pe : Pe} (h : pe.run ≠ .poweredDown) :
    contextAfterReset o pe = pe.hostReset := by
  rw [contextAfterReset]
  cases hr : pe.run with
  | poweredDown => exact absurd hr h
  | running | suspendedWfe | suspendedWfi => rfl

/-- The reset entry is the host's, after a powerdown too (R190). -/
@[simp] theorem contextAfterReset_pc (o : Occasion) (pe : Pe) :
    (contextAfterReset o pe).pc = pe.hostReset.pc := by
  by_cases h : pe.run = .poweredDown
  · rw [contextAfterReset_of_poweredDown o h]
  · rw [contextAfterReset_of_not_poweredDown o h]

theorem monitorAfterReset_of_poweredDown (o : Occasion) {pe : Pe} (h : pe.run = .poweredDown) :
    monitorAfterReset o pe = o.choose .lostMonitor := by
  rw [monitorAfterReset, h]

theorem monitorAfterReset_of_not_poweredDown (o : Occasion) {pe : Pe} (h : pe.run ≠ .poweredDown) :
    monitorAfterReset o pe = false := by
  rw [monitorAfterReset]
  cases hr : pe.run with
  | poweredDown => exact absurd hr h
  | running | suspendedWfe | suspendedWfi => rfl

/-- Settles O47: only the context and the monitor after a reset depend on the run state. -/
theorem resetOfOnePe : Obligations.ResetOfOnePe := by
  intro s p pe hp
  let o : Occasion := { draw := s.draws + 1, pe := p }
  refine ⟨s.tick.modifyPe p (Pe.reset o), pe.reset o, rfl, ?_, modifyPe_sameButPe s.tick p _,
    rfl, rfl, rfl, rfl, rfl, rfl, contextAfterReset_pc o pe, rfl, rfl, fun hrun => ?_, fun hdown => ?_⟩
  · rw [modifyPe_same, tick_pes, hp, Option.map_some]
  · exact ⟨contextAfterReset_of_not_poweredDown o hrun, monitorAfterReset_of_not_poweredDown o hrun⟩
  · exact ⟨monitorAfterReset_of_poweredDown o hdown, contextAfterReset_of_poweredDown o hdown⟩

/-- The fields of a PE just reset fit together: Running, no wake request, no idle signal. -/
theorem peAtReset_peOk (pr : Params) (p : Nat) : peOk pr (peAtReset p) = true := rfl

/-- Settles O50: every PE is a PE just reset (`reset_pe`), which has no access outstanding. -/
theorem resetMeetsInvariant : Obligations.ResetMeetsInvariant := by
  refine ⟨reset_mem_wf, Nat.succ_pos _, fun pe hpe => ?_⟩
  obtain ⟨p, hp⟩ := List.mem_iff_getElem?.mp hpe
  obtain rfl := reset_pe hp
  exact ⟨peAtReset_peOk _ p, List.forall_mem_nil _⟩

end Sys2Proof.Machine
end
